-- ==== Sys2Proof/Word.lean ====
section
/-! DEFINITION. The data types of BDE-CORE's values: bytes, 32-bit words and byte-string registers of fixed length. -/

namespace Sys2Proof

/-- A byte (`00_scope.md` R12). -/
abbrev Byte := BitVec 8

/-- A 32-bit word: the width of every host-visible register and of every host access (R11, R93). -/
abbrev Word := BitVec 32

/-- A byte string of fixed length `n` held in a register group; element `k` is the byte at offset base + k (R95). -/
abbrev ByteReg (n : Nat) := Vector Byte n

/-- A cipher block: 16 bytes (R11, R151). -/
abbrev Block := ByteReg 16

/-- `zeros(n)` (R12). -/
def zeroReg (n : Nat) : ByteReg n := Vector.replicate n 0#8

end Sys2Proof
end

