-- ==== Sys2Proof/Syntax.lean ====
section
/-! DEFINITION. The commands of BDE-CORE (one constructor per row of `spec/opcode_table.json`) and the operations of a
host program (`30_encoding.md` R140, R141). -/

namespace Sys2Proof

/-- The MODE field of a command word, cw[9:8] (R120, R124). Values 2 and 3 decode and then fail with UNSUPPORTED_MODE. -/
inductive Mode where
  | decrypt
  | encrypt
  | reserved2
  | reserved3
deriving DecidableEq, Repr

/-- The KSEL field of a command word, cw[10] (R120, R125). -/
inductive KeySel where
  | fvek
  | tweak
deriving DecidableEq, Repr

/-- The eleven commands (R127). Every other operand is implicit (R128). -/
inductive Instr where
  /-- INIT: create the context with a method code (R275). -/
  | init (method : BitVec 16)
  /-- FREE: destroy the context (R278). -/
  | free
  /-- SETKEYS: install FVEK and Tweak (R281). -/
  | setkeys
  /-- CRYPT: encrypt or decrypt one sector (R300). -/
  | crypt (mode : Mode)
  /-- ECB: one AES block with one sub-context (R170). -/
  | ecb (mode : Mode) (ksel : KeySel)
  /-- CBC: AES-CBC with the IV register (R171). -/
  | cbc (mode : Mode) (ksel : KeySel)
  /-- DIFFA: Diffuser-A over a buffer (R210). -/
  | diffa (mode : Mode)
  /-- DIFFB: Diffuser-B over a buffer (R211). -/
  | diffb (mode : Mode)
  /-- HASH8: password hash of UTF-8 text (R240). -/
  | hash8
  /-- HASH16: password hash of UTF-16 text (R242). -/
  | hash16
  /-- CALCKEY: iterated-hash key stretch (R245). -/
  | calckey
deriving DecidableEq, Repr

/-- The width of a host bus access. Only 32 bits is legal (R93); another width is a bus error (R94). -/
inductive Width where
  | w8
  | w16
  | w32
  | w64
deriving DecidableEq, Repr

/-- One operation of the host's program (R140, R141), or an action of the platform. Addresses are host addresses: the
window's offset `o` is at `P_BASE + o` (R90). -/
inductive HostOp where
  /-- `WR`: one bus write. -/
  | write (width : Width) (addr : Nat) (value : Word)
  /-- The second half of `COPYOI`: a 32-bit write of the value the host has just read (R141). -/
  | writeLast (addr : Nat)
  /-- `RD`: one bus read. -/
  | read (width : Width) (addr : Nat)
  /-- `BNZ`: read, and continue at operation `target` when the value ANDed with the mask is non-zero. -/
  | bnz (addr : Nat) (mask : Word) (target : Nat)
  /-- The platform's reset input: a power-on reset (R380, R366). -/
  | powerOnReset
deriving DecidableEq, Repr

end Sys2Proof
end

