-- ==== Sys2Proof/Decode.lean ====
section
/-! DEFINITION. Decoding a 32-bit command word (`30_encoding.md` R120 to R127), and after it the encoder. -/

namespace Sys2Proof

/-- Why a command word is no command (R123). Both become ILLEGAL_COMMAND error reports of the machine. -/
inductive DecodeError where
  /-- OPC is not listed in R127. -/
  | reservedOpcode
  /-- A must-be-0 field of the listed opcode is non-zero. -/
  | reservedBits
deriving DecidableEq, Repr

/-- OPC = cw[7:0] (R120). -/
def cwOpc (cw : Word) : Byte := cw.extractLsb' 0 8

/-- MODE = cw[9:8] (R120). -/
def cwMode (cw : Word) : BitVec 2 := cw.extractLsb' 8 2

/-- KSEL = cw[10] (R120). -/
def cwKsel (cw : Word) : BitVec 1 := cw.extractLsb' 10 1

/-- RSV = cw[15:11] (R120). -/
def cwRsv (cw : Word) : BitVec 5 := cw.extractLsb' 11 5

/-- IMM16 = cw[31:16] (R120). -/
def cwImm16 (cw : Word) : BitVec 16 := cw.extractLsb' 16 16

/-- The MODE field's meaning (R124). -/
def modeOf (m : BitVec 2) : Mode :=
  match m.toNat with
  | 0 => .decrypt
  | 1 => .encrypt
  | 2 => .reserved2
  | _ => .reserved3

/-- The KSEL field's meaning (R125). -/
def kselOf (k : BitVec 1) : KeySel :=
  match k.toNat with
  | 0 => .fvek
  | _ => .tweak

/-- A listed opcode whose unused fields must be 0 (R123). -/
def requireZero (unused : Bool) (i : Instr) : Except DecodeError Instr :=
  if unused then .ok i else .error .reservedBits

/-- Decoding: OPC is looked up first, then the must-be-0 fields of R127 are checked (R123). -/
def decode (cw : Word) : Except DecodeError Instr :=
  let m0 := cwMode cw == 0
  let k0 := cwKsel cw == 0
  let r0 := cwRsv cw == 0
  let i0 := cwImm16 cw == 0
  let mode := modeOf (cwMode cw)
  let ksel := kselOf (cwKsel cw)
  match (cwOpc cw).toNat with
  | 0x01 => requireZero (m0 && k0 && r0) (.init (cwImm16 cw))
  | 0x02 => requireZero (m0 && k0 && r0 && i0) .free
  | 0x03 => requireZero (m0 && k0 && r0 && i0) .setkeys
  | 0x04 => requireZero (k0 && r0 && i0) (.crypt mode)
  | 0x05 => requireZero (r0 && i0) (.ecb mode ksel)
  | 0x06 => requireZero (r0 && i0) (.cbc mode ksel)
  | 0x07 => requireZero (k0 && r0 && i0) (.diffa mode)
  | 0x08 => requireZero (k0 && r0 && i0) (.diffb mode)
  | 0x09 => requireZero (m0 && k0 && r0 && i0) .hash8
  | 0x0A => requireZero (m0 && k0 && r0 && i0) .hash16
  | 0x0B => requireZero (m0 && k0 && r0 && i0) .calckey
  | _ => .error .reservedOpcode

/-- The opcode byte of a command (R127). -/
def Instr.opc : Instr → Byte
  | .init _ => 0x01
  | .free => 0x02
  | .setkeys => 0x03
  | .crypt _ => 0x04
  | .ecb _ _ => 0x05
  | .cbc _ _ => 0x06
  | .diffa _ => 0x07
  | .diffb _ => 0x08
  | .hash8 => 0x09
  | .hash16 => 0x0A
  | .calckey => 0x0B

/-- The bits of a MODE field. -/
def modeBits : Mode → BitVec 2
  | .decrypt => 0
  | .encrypt => 1
  | .reserved2 => 2
  | .reserved3 => 3

/-- The bit of a KSEL field. -/
def kselBits : KeySel → BitVec 1
  | .fvek => 0
  | .tweak => 1

/-- The one command-word format, RSV zero (R120). -/
def commandWord (imm16 : BitVec 16) (ksel : BitVec 1) (mode : BitVec 2) (opc : Byte) : Word :=
  imm16 ++ (0 : BitVec 5) ++ ksel ++ mode ++ opc

/-- The word of a command (R127, R140). -/
def encode (i : Instr) : Word :=
  match i with
  | .init m => commandWord m 0 0 i.opc
  | .free => commandWord 0 0 0 i.opc
  | .setkeys => commandWord 0 0 0 i.opc
  | .crypt m => commandWord 0 0 (modeBits m) i.opc
  | .ecb m k => commandWord 0 (kselBits k) (modeBits m) i.opc
  | .cbc m k => commandWord 0 (kselBits k) (modeBits m) i.opc
  | .diffa m => commandWord 0 0 (modeBits m) i.opc
  | .diffb m => commandWord 0 0 (modeBits m) i.opc
  | .hash8 => commandWord 0 0 0 i.opc
  | .hash16 => commandWord 0 0 0 i.opc
  | .calckey => commandWord 0 0 0 i.opc

/-- The `match` column of R127. -/
def rowMatch : Instr → Word
  | .init _ => 0x00000001
  | .free => 0x00000002
  | .setkeys => 0x00000003
  | .crypt _ => 0x00000004
  | .ecb _ _ => 0x00000005
  | .cbc _ _ => 0x00000006
  | .diffa _ => 0x00000007
  | .diffb _ => 0x00000008
  | .hash8 => 0x00000009
  | .hash16 => 0x0000000A
  | .calckey => 0x0000000B

/-- The `mask` column of R127. -/
def rowMask : Instr → Word
  | .init _ => 0x0000FFFF
  | .free => 0xFFFFFFFF
  | .setkeys => 0xFFFFFFFF
  | .crypt _ => 0xFFFFFCFF
  | .ecb _ _ => 0xFFFFF8FF
  | .cbc _ _ => 0xFFFFF8FF
  | .diffa _ => 0xFFFFFCFF
  | .diffb _ => 0xFFFFFCFF
  | .hash8 => 0xFFFFFFFF
  | .hash16 => 0xFFFFFFFF
  | .calckey => 0xFFFFFFFF

/-- The command the decoder reads from the first `nbits` bits of `w`, numbered as `spec/opcode_table.json` numbers
them; every higher bit is 0. A command word is one 32-bit register write, so nothing is stored and no byte order
enters; a number of more than 32 bits is no command word. -/
def decodeTableWord (nbits w : Nat) : Option Instr :=
  let v := w % 2 ^ nbits
  if v < 2 ^ 32 then
    match decode (BitVec.ofNat 32 v) with
    | .ok i => some i
    | .error _ => none
  else none

end Sys2Proof
end

