-- ==== Sys2Proof/Machine/Bytes.lean ====
section
/-! DEFINITION. Conversions between bytes and words (`00_scope.md` R14), and the 32-bit window of a byte-string register
(`20_memory.md` R95). -/

namespace Sys2Proof.Machine

/-- Byte `k` of a word, byte 0 the least significant. -/
def byteOf (w : Word) (k : Nat) : Byte := w.extractLsb' (8 * k) 8

/-- `LE32` of four bytes (R14). -/
def le32 (b0 b1 b2 b3 : Byte) : Word := b3 ++ b2 ++ b1 ++ b0

/-- `BE32` of four bytes (R14). -/
def be32 (b0 b1 b2 b3 : Byte) : Word := b0 ++ b1 ++ b2 ++ b3

/-- `enc_LE32` (R14). -/
def encLE32 (w : Word) : List Byte := [byteOf w 0, byteOf w 1, byteOf w 2, byteOf w 3]

/-- `enc_BE32` (R14). -/
def encBE32 (w : Word) : List Byte := [byteOf w 3, byteOf w 2, byteOf w 1, byteOf w 0]

/-- `enc_LE64` (R14). -/
def encLE64 (v : BitVec 64) : List Byte := (List.range 8).map fun k => v.extractLsb' (8 * k) 8

/-- `enc_BE64` (`42_kdf.md` R231). -/
def encBE64 (v : BitVec 64) : List Byte := (encLE64 v).reverse

/-- `enc_LE16` of a code unit below 2^16 (`42_kdf.md` R237). -/
def encLE16 (u : Nat) : List Byte := [BitVec.ofNat 8 u, BitVec.ofNat 8 (u / 256)]

/-- The byte-string register of the first `n` bytes of a string; bytes the string lacks are 0. -/
def regOfBytes (n : Nat) (bs : List Byte) : ByteReg n := Vector.ofFn fun k : Fin n => bs.getD k.val 0#8

/-- What a 32-bit read of word `j` of a byte-string register returns (R95). -/
def regWord {n : Nat} (r : ByteReg n) (j : Nat) : Word :=
  le32 (r.toList.getD (4 * j) 0#8) (r.toList.getD (4 * j + 1) 0#8) (r.toList.getD (4 * j + 2) 0#8)
    (r.toList.getD (4 * j + 3) 0#8)

/-- What a 32-bit write of word `j` makes of a byte-string register (R95). -/
def regSetWord {n : Nat} (r : ByteReg n) (j : Nat) (w : Word) : ByteReg n :=
  Vector.ofFn fun k : Fin n => if k.val / 4 = j then byteOf w (k.val % 4) else r[k]

/-- Byte-wise exclusive OR of two strings of equal length (R13). -/
def xorReg {n : Nat} (a b : ByteReg n) : ByteReg n := Vector.ofFn fun k : Fin n => a[k] ^^^ b[k]

/-- The first `n` 32-bit little-endian words of a string (`41_diffuser.md` R201). -/
def leWords : Nat → List Byte → List Word
  | 0, _ => []
  | n + 1, bs => le32 (bs.getD 0 0#8) (bs.getD 1 0#8) (bs.getD 2 0#8) (bs.getD 3 0#8) :: leWords n (bs.drop 4)

/-- The first `n` 32-bit big-endian words of a string (`42_kdf.md` R231). -/
def beWords : Nat → List Byte → List Word
  | 0, _ => []
  | n + 1, bs => be32 (bs.getD 0 0#8) (bs.getD 1 0#8) (bs.getD 2 0#8) (bs.getD 3 0#8) :: beWords n (bs.drop 4)

/-- The first `n` 16-byte blocks of a string. -/
def blocksOf : Nat → List Byte → List Block
  | 0, _ => []
  | n + 1, bs => regOfBytes 16 (bs.take 16) :: blocksOf n (bs.drop 16)

/-- The string of a list of blocks. -/
def bytesOfBlocks (xs : List Block) : List Byte := xs.flatMap fun x => x.toList

end Sys2Proof.Machine
end

