-- ==== Sys2Proof/Config.lean ====
section
/-! DEFINITION. The implementation parameters of `00_scope.md` R10, and the free values: what the spec leaves open
and no proof may know. -/

namespace Sys2Proof

/-- `P_KDF_LAYOUT` (R10, R239): the message hashed in each CALCKEY round. -/
inductive KdfLayout where
  | bde88
  | doc56
deriving DecidableEq, Repr

/-- `P_NONDIFF_IV` (R10, R310): the IV of CRYPT under a non-Diffuser method. -/
inductive NonDiffIv where
  | zero
  | derived
deriving DecidableEq, Repr

/-- The parameters of R10. -/
structure Params where
  /-- `P_BUF_BYTES` -/
  bufBytes : Nat
  /-- `P_KDF_ITERATIONS` -/
  kdfIterations : Nat
  /-- `P_KDF_LAYOUT` -/
  kdfLayout : KdfLayout
  /-- `P_NONDIFF_IV` -/
  nonDiffIv : NonDiffIv
  /-- `P_BASE` -/
  base : Nat
  /-- `P_LATENCY`: which assignment of latencies to commands and operands the implementation has. Its values are
  unspecified (R10, R395): `Config.freeLatency` of this number gives them (DESIGN CHOICE, log entry 2, safe). -/
  latency : Nat
deriving DecidableEq, Repr

/-- The legal values of the parameters (R10). Every value of `latency` stands for finite latencies of at least 1. -/
abbrev Params.legal (p : Params) : Prop :=
  p.bufBytes % 16 = 0 ∧ 512 ≤ p.bufBytes ∧ p.bufBytes ≤ 4096 ∧
  1 ≤ p.kdfIterations ∧ p.kdfIterations ≤ 2 ^ 64 ∧ p.base % 0x4000 = 0

/-- Free value: the byte a host read of an Unknown byte returns, "an unconstrained value (a draw)" (`10_state.md` R54).
Applied to the counter `State.draws`, so that each draw is independent of every other (DESIGN CHOICE, log entry 1,
safe). -/
opaque Config.freeByte : Nat → Byte

/-- Free value: which 16 KiB window of the host's address space the platform gives BDE-CORE (`P_BASE` is OPEN, R103;
DESIGN CHOICE, log entry 4, safe). -/
opaque Config.windowIndex : Nat

/-- Free value: the value `Params.latency` has after reset, since R10 states no default for P_LATENCY (DESIGN CHOICE, log
entry 2, safe). -/
opaque Config.latencyIndex : Nat

/-- The defaults of R10; `P_BASE` is aligned to 0x4000 and otherwise open (log entries 4 and 5), and `P_LATENCY` is open
(log entry 2). -/
def Params.default : Params where
  bufBytes := 4096
  kdfIterations := 0x00100000
  kdfLayout := .bde88
  nonDiffIv := .zero
  base := 0x4000 * Config.windowIndex
  latency := Config.latencyIndex

end Sys2Proof
end

