-- ==== Sys2Proof/Machine/State.lean ====
section
/-! DEFINITION. The state of BDE-CORE and of the host that drives it, as plain data; the reasons a step can stop; the
state after power-on reset. -/

namespace Sys2Proof.Machine

/-! ## Outcomes that are no next state -/

/-- Why a step stops. Each is one of the model faults the spec names (`60_exceptions.md` R348) or an error of the host
program. All are SAFE: the hardware goes on where the model stops, so no claim can rest on what follows. -/
inductive Fault where
  /-- Raised by a host access that is not 32 bits wide or not aligned (R94, R348). Safe. -/
  | busError
  /-- Raised by a host access outside the window: no address of BDE-CORE (R90). Safe. -/
  | outsideWindow
  /-- Raised by a command that consumes an Unknown byte of IBUF (R54, R99, R348). Safe. -/
  | unknownInput
  /-- Raised by a host access to an operand, input or output while a command is BUSY (R390, R348). Safe. -/
  | hazard
  /-- Raised by a host program that writes back "the value just read" before it has read any (R141). Safe. -/
  | noValueRead
deriving DecidableEq, Repr

/-- Why an instruction is refused. -/
inductive Refusal where
  /-- Raised by `exec` for an instruction that has no meaning yet (none in this model). Safe. -/
  | notModelled (mnemonic : String)
deriving DecidableEq, Repr

/-! ## Error reports (`60_exceptions.md` R340 to R342) -/

/-- ERROR.CODE (R340). -/
inductive ErrCode where
  | none
  | invalidArgument
  | invalidKeySize
  | invalidInputSize
  | allocationFailed
  | keyInstallFailed
  | cipherOperationFailed
  | unsupportedMode
  | illegalCommand
deriving DecidableEq, Repr

/-- ERROR.CAUSE (R341). -/
inductive ErrCause where
  | none
  | noContext
  | contextAlreadyValid
  | unsupportedMethod
  | keyNotSet
  | invalidKeySize
  | lengthZero
  | lengthNotMultiple
  | lengthTooLarge
  | lengthNotSector
  | badUtf8
  | reservedOpcode
  | reservedBits
deriving DecidableEq, Repr

/-- ERROR.UNIT (R342). -/
inductive ErrUnit where
  | none
  | fvekEnc
  | fvekDec
  | tweakEnc
  | tweakDec
  | diffuser
  | hash
  | context
  | decoder
deriving DecidableEq, Repr

/-- `Error(CODE, CAUSE, UNIT)` (R15, R345). -/
structure CmdError where
  code : ErrCode
  cause : ErrCause
  unit : ErrUnit
deriving DecidableEq, Repr

/-! ## The context and its sub-contexts (`10_state.md` R55 to R63) -/

/-- An AES key of one of the two key sizes (R151, R59). -/
inductive AesKey where
  | k128 (key : ByteReg 16)
  | k256 (key : ByteReg 32)
deriving DecidableEq, Repr

/-- A sub-context's value (R59). The expanded schedule is a function of the key and is not stored (DEDUCED, log entry 12,
safe). -/
inductive SubCtx where
  | unset
  | keyed (key : AesKey)
deriving DecidableEq, Repr

/-- A sub-context identifier S (R58). -/
inductive SubId where
  | fvekEnc
  | fvekDec
  | tweakEnc
  | tweakDec
deriving DecidableEq, Repr

/-- The direction of a transform (R124). -/
inductive Direction where
  | encrypt
  | decrypt
deriving DecidableEq, Repr

/-- The context: `(ctx_valid, method)` of R55 and the four sub-contexts of R58. -/
structure Context where
  valid : Bool
  method : BitVec 16
  fvekEnc : SubCtx
  fvekDec : SubCtx
  tweakEnc : SubCtx
  tweakDec : SubCtx
deriving DecidableEq, Repr

/-- No context: the state before INIT and after FREE (R55, R274). -/
def Context.absent : Context := ⟨false, 0, .unset, .unset, .unset, .unset⟩

/-! ## Memory -/

/-- The storage of IBUF and OBUF, keyed by window offset (R92): an unlisted byte is Unknown (R54). -/
abbrev Memory := List Host.Cell

/-- The canonical form: addresses strictly rising. An unlisted byte has no value, so no entry can equal it. -/
abbrev Memory.wf (m : Memory) : Prop := m.Pairwise (fun x y => x.1 < y.1)

/-! ## Hidden working state (`10_state.md` R64, R65) -/

/-- The running record of CALCKEY (`42_kdf.md` R246). -/
structure KdfRecord where
  last : ByteReg 32
  pwh : ByteReg 32
  salt : ByteReg 16
  counter : BitVec 64
deriving DecidableEq, Repr

/-- The buffers BK, IVW and MASK of CRYPT and the running record of CALCKEY. No host access reads them. -/
structure Hidden where
  bk : Block
  ivw : Block
  mask : ByteReg 32
  kdf : KdfRecord
deriving DecidableEq, Repr

/-- CRYPT's three buffers zeroed, the rest kept (`44_sector_crypt.md` R303). -/
def Hidden.clearSector (h : Hidden) : Hidden := { h with bk := zeroReg 16, ivw := zeroReg 16, mask := zeroReg 32 }

/-- CALCKEY's running record zeroed, the rest kept (DESIGN CHOICE, log entry 11, safe). -/
def Hidden.clearKdf (h : Hidden) : Hidden := { h with kdf := ⟨zeroReg 32, zeroReg 32, zeroReg 16, 0⟩ }

/-- All hidden state zero: its value after reset (R68) and between commands (R64, R303; log entry 11). -/
def Hidden.zero : Hidden := ⟨zeroReg 16, zeroReg 16, zeroReg 32, ⟨zeroReg 32, zeroReg 32, zeroReg 16, 0⟩⟩

/-! ## The engine and the host -/

/-- `snap` of R66: every register and buffer a command reads, as it was at acceptance. -/
structure Snapshot where
  ctx : Context
  sectorSize : BitVec 16
  length : BitVec 16
  blkidxLo : Word
  blkidxHi : Word
  fvekStage : ByteReg 32
  tweakStage : ByteReg 32
  iv : ByteReg 16
  salt : ByteReg 16
  pwhash : ByteReg 32
  mem : Memory
deriving DecidableEq, Repr

end Sys2Proof.Machine

namespace Sys2Proof

/-- Free value: how many host accesses fit between a command's acceptance and its completion. P_LATENCY is this plus 1,
so every finite latency of at least 1 is admitted (R395). Its arguments are the parameter `Params.latency`, the command
word, the operands the command has at acceptance ("per command and operands", `00_scope.md` R10), and the counter
`State.draws`, so that the latency is also free to differ from one occasion to the next (DESIGN CHOICE, log entry 2,
safe). -/
opaque Config.freeLatency : Nat → Word → Machine.Snapshot → Nat → Nat

end Sys2Proof

namespace Sys2Proof.Machine

/-- The engine (R66). -/
inductive Engine where
  | idle
  /-- An accepted command word, its snapshot, and how many more host accesses come before its completion. -/
  | busy (cw : Word) (snap : Snapshot) (left : Nat)
deriving DecidableEq, Repr

/-- The host: its program, its position in it (R31, R140), and the values its reads returned, newest first (DESIGN CHOICE,
log entries 3 and 16, safe). -/
structure HostSide where
  prog : List HostOp
  pc : Nat
  reads : List Word
deriving DecidableEq, Repr

/-- The whole state. STATUS.BUSY, CTX_VALID, FVEK_KEYED and TWEAK_KEYED, METHOD and IRQ are views of `engine`, `ctx`
and the enables (R35, R37, R66, R67), and ID and VERSION are constants (R32, R33). -/
structure State where
  /-- The implementation parameters (R10). No step changes them. -/
  cfg : Params
  /-- CTRL.IE_DONE (R34) -/
  ieDone : Bool
  /-- CTRL.IE_ERR (R34) -/
  ieErr : Bool
  /-- CTRL.IE_OVR (R34) -/
  ieOvr : Bool
  /-- STATUS.DONE (R35) -/
  done : Bool
  /-- STATUS.ERR (R35) -/
  err : Bool
  /-- STATUS.OVR (R35) -/
  ovr : Bool
  /-- ERROR (R36) -/
  error : Word
  /-- ctx_valid, method and the four sub-contexts (R55, R58) -/
  ctx : Context
  /-- SECTOR_SIZE bits 15:0 (R38) -/
  sectorSize : BitVec 16
  /-- LENGTH bits 15:0 (R39) -/
  length : BitVec 16
  /-- BLKIDX_LO (R40) -/
  blkidxLo : Word
  /-- BLKIDX_HI (R40) -/
  blkidxHi : Word
  /-- FVEK_STAGE (R42) -/
  fvekStage : ByteReg 32
  /-- TWEAK_STAGE (R43) -/
  tweakStage : ByteReg 32
  /-- IV (R44) -/
  iv : ByteReg 16
  /-- SALT (R45) -/
  salt : ByteReg 16
  /-- PWHASH (R46) -/
  pwhash : ByteReg 32
  /-- DKEY (R47) -/
  dkey : ByteReg 32
  /-- IBUF and OBUF (R52, R53) -/
  mem : Memory
  /-- BK, IVW, MASK and the KDF running state (R64, R65) -/
  hidden : Hidden
  /-- the engine (R66) -/
  engine : Engine
  /-- the host that drives the window (R20) -/
  host : HostSide
  /-- The MODEL's own field, not the spec's: how many free values have been drawn (DESIGN CHOICE, log entry 1, safe). -/
  draws : Nat
deriving DecidableEq, Repr

/-- Every register at its reset value (R68), with the buffers, the host and the model's own fields as given. -/
def State.fresh (cfg : Params) (mem : Memory) (host : HostSide) (draws : Nat) : State where
  cfg := cfg
  ieDone := false
  ieErr := false
  ieOvr := false
  done := false
  err := false
  ovr := false
  error := 0
  ctx := Context.absent
  sectorSize := 0x0200
  length := 0
  blkidxLo := 0
  blkidxHi := 0
  fvekStage := zeroReg 32
  tweakStage := zeroReg 32
  iv := zeroReg 16
  salt := zeroReg 16
  pwhash := zeroReg 32
  dkey := zeroReg 32
  mem := mem
  hidden := Hidden.zero
  engine := .idle
  host := host
  draws := draws

/-- The machine after power-on reset (R380): the power-on column of R68, every byte of IBUF and OBUF Unknown, the
default parameters (R10), and a host with no program. -/
def State.reset : State := State.fresh Params.default [] ⟨[], 0, []⟩ 0

end Sys2Proof.Machine
end

