-- ==== Sys2Proof/Machine/Ops.lean ====
section
/-! DEFINITION. The operations over memory and registers that the commands and the host accesses share: buffer bytes,
the snapshot, acceptance, completion, the error report and its acknowledgement. -/

namespace Sys2Proof.Machine

/-! ## Memory: one byte at a time, in canonical form -/

/-- The byte at a window offset; `none` is Unknown (R54). -/
def Memory.read : Memory → Nat → Option Byte
  | [], _ => none
  | c :: m, a => if c.1 = a then some c.2 else Memory.read m a

/-- Make the byte at a window offset known. -/
def Memory.write : Memory → Nat → Byte → Memory
  | [], a, b => [(a, b)]
  | c :: m, a, b =>
    if a < c.1 then (a, b) :: c :: m
    else if c.1 = a then (a, b) :: m
    else c :: Memory.write m a b

/-- Make `n` bytes from offset `a` on Unknown. -/
def Memory.forget (m : Memory) (a n : Nat) : Memory := m.filter fun c => !(decide (a ≤ c.1) && decide (c.1 < a + n))

/-- The `n` bytes from offset `a` on, when all are known (`BufRead`, R99). -/
def Memory.readBytes (m : Memory) : Nat → Nat → Option (List Byte)
  | _, 0 => some []
  | a, n + 1 =>
    match Memory.read m a, Memory.readBytes m (a + 1) n with
    | some b, some bs => some (b :: bs)
    | _, _ => none

/-- Write a byte string from offset `a` on (`BufWrite`, R99). -/
def Memory.writeBytes (m : Memory) : Nat → List Byte → Memory
  | _, [] => m
  | a, b :: bs => Memory.writeBytes (m.write a b) (a + 1) bs

/-- The window offset of IBUF (R52). -/
def ibufBase : Nat := 0x1000

/-- The window offset of OBUF (R53). -/
def obufBase : Nat := 0x2000

/-! ## The snapshot (R66) -/

/-- The current value of every register and buffer a command reads. -/
def State.takeSnapshot (s : State) : Snapshot where
  ctx := s.ctx
  sectorSize := s.sectorSize
  length := s.length
  blkidxLo := s.blkidxLo
  blkidxHi := s.blkidxHi
  fvekStage := s.fvekStage
  tweakStage := s.tweakStage
  iv := s.iv
  salt := s.salt
  pwhash := s.pwhash
  mem := s.mem

/-- The operands of the command in progress: the snapshot taken at its acceptance (R121). While Idle no command is in
progress, and these are the current values (DEDUCED, log entry 6, safe). -/
def State.operands (s : State) : Snapshot :=
  match s.engine with
  | .busy _ snap _ => snap
  | .idle => s.takeSnapshot

/-- STATUS.BUSY (R35, R66). -/
def State.isBusy (s : State) : Bool :=
  match s.engine with
  | .busy _ _ _ => true
  | .idle => false

/-! ## Acceptance and completion (R121) -/

/-- Acceptance of a command word, with `left` host accesses before its completion. -/
def State.acceptWithin (s : State) (cw : Word) (left : Nat) : State :=
  { s with done := false, err := false, error := 0, engine := .busy cw s.takeSnapshot left }

/-- The latency of a command word accepted now: a free value of the implementation's P_LATENCY, the command, its operands
(R10, R395) and the occasion. The spec leaves it open on what else it depends; that it is counted in host accesses and
drawn at acceptance is the model's (DESIGN CHOICE, log entry 2, safe). -/
def State.latencyOf (s : State) (cw : Word) : Nat := Config.freeLatency s.cfg.latency cw s.takeSnapshot s.draws

/-- Acceptance of a command word while Idle (R121), with a free latency (R395; DESIGN CHOICE, log entry 2, safe). -/
def State.accept (s : State) (cw : Word) : State :=
  { s.acceptWithin cw (s.latencyOf cw) with draws := s.draws + 1 }

/-- A CMD write while Busy: the word is dropped and OVR is set (R122). -/
def State.overrun (s : State) : State := { s with ovr := true }

/-- Completion without error (R121, R345): ERROR and ERR stay as acceptance left them. -/
def State.succeed (s : State) : State := { s with engine := .idle, done := true }

/-! ## The error report: this block's exception entry, and its acknowledgement (R345, R353) -/

/-- The number of an error kind (R340). -/
def codeNum : ErrCode → Byte
  | .none => 0x00
  | .invalidArgument => 0x01
  | .invalidKeySize => 0x02
  | .invalidInputSize => 0x03
  | .allocationFailed => 0x04
  | .keyInstallFailed => 0x05
  | .cipherOperationFailed => 0x06
  | .unsupportedMode => 0x07
  | .illegalCommand => 0x08

/-- The number of a cause (R341). -/
def causeNum : ErrCause → Byte
  | .none => 0x00
  | .noContext => 0x01
  | .contextAlreadyValid => 0x02
  | .unsupportedMethod => 0x03
  | .keyNotSet => 0x04
  | .invalidKeySize => 0x05
  | .lengthZero => 0x06
  | .lengthNotMultiple => 0x07
  | .lengthTooLarge => 0x08
  | .lengthNotSector => 0x09
  | .badUtf8 => 0x0A
  | .reservedOpcode => 0x0B
  | .reservedBits => 0x0C

/-- The number of a unit (R342). -/
def unitNum : ErrUnit → BitVec 4
  | .none => 0x0
  | .fvekEnc => 0x1
  | .fvekDec => 0x2
  | .tweakEnc => 0x3
  | .tweakDec => 0x4
  | .diffuser => 0x5
  | .hash => 0x6
  | .context => 0x7
  | .decoder => 0x8

/-- The value of ERROR: `CODE | CAUSE << 8 | UNIT << 16 | OPC << 24`, bits 23:20 zero (R36, R343). -/
def errorWord (opc : Byte) (e : CmdError) : Word :=
  opc ++ (0 : BitVec 4) ++ unitNum e.unit ++ causeNum e.cause ++ codeNum e.code

/-- Completion with an error: ERROR is written, ERR and DONE are set, the engine is Idle, and nothing else changes
(R345). This is the one way a command reports a failure; there is no trap (R352). -/
def State.failWith (s : State) (opc : Byte) (e : CmdError) : State :=
  { s with error := errorWord opc e, err := true, done := true, engine := .idle }

/-- The host's acknowledgement: a STATUS write clears each W1C bit it writes 1 to (R35, R353). -/
def State.acknowledge (s : State) (v : Word) : State :=
  { s with
    done := s.done && !v.getLsbD 1
    err := s.err && !v.getLsbD 2
    ovr := s.ovr && !v.getLsbD 3 }

/-- The report of a word that does not decode (R123). -/
def decodeReport : DecodeError → CmdError
  | .reservedOpcode => ⟨.illegalCommand, .reservedOpcode, .decoder⟩
  | .reservedBits => ⟨.illegalCommand, .reservedBits, .decoder⟩

/-- CRYPT's hidden buffers zeroed, as at the start and the end of every CRYPT (`44_sector_crypt.md` R303). -/
def State.clearSector (s : State) : State := { s with hidden := s.hidden.clearSector }

/-! ## The engine's buffers (R99) -/

/-- `BufRead(IBUF, 0, n)` of the command in progress; `none` when a byte is Unknown. -/
def State.readIbuf (s : State) (n : Nat) : Option (List Byte) := s.operands.mem.readBytes ibufBase n

/-- `BufWrite(OBUF, 0, len(v), v)`. -/
def State.writeObuf (s : State) (v : List Byte) : State := { s with mem := s.mem.writeBytes obufBase v }

/-- Every byte of OBUF[0:n] becomes Unknown (R346). -/
def State.forgetObuf (s : State) (n : Nat) : State := { s with mem := s.mem.forget obufBase n }

/-- A command whose checks have passed and that reads IBUF[0:n]: consuming an Unknown byte is a model fault (R99, R348);
the read comes before the key and UTF-8 checks, as the pseudocode has it (DEDUCED, log entry 13, safe). -/
def withInput (s : State) (n : Nat) (k : List Byte → Host.Outcome State Fault Refusal) :
    Host.Outcome State Fault Refusal :=
  match s.readIbuf n with
  | none => .fault .unknownInput
  | some x => k x

/-- The common form of ECB, CBC, DIFFA, DIFFB and CRYPT after their checks: read IBUF[0:n], transform, write
OBUF[0:n]; a failure of the transform is a cipher failure, which leaves OBUF[0:n] Unknown (R346). -/
def transformBuffer (s : State) (i : Instr) (n : Nat) (f : List Byte → Except CmdError (List Byte)) :
    Host.Outcome State Fault Refusal :=
  withInput s n fun x =>
    match f x with
    | .ok y => .next (s.writeObuf y).succeed
    | .error e => .next ((s.forgetObuf n).failWith i.opc e)

/-- A command that fails a check: the error report and nothing else (R131, R345). -/
def reject (s : State) (i : Instr) (e : CmdError) : Host.Outcome State Fault Refusal := .next (s.failWith i.opc e)

end Sys2Proof.Machine
end

