-- ==== Sys2Proof/Machine/Flags.lean ====
section
/-! DEFINITION. The registers that are views of the state: STATUS, CTRL and METHOD, and the IRQ line. -/

namespace Sys2Proof.Machine

/-- Whether a sub-context is Keyed (R59). -/
def SubCtx.isKeyed : SubCtx → Bool
  | .unset => false
  | .keyed _ => true

/-- STATUS.FVEK_KEYED: both FVEK sub-contexts are Keyed (R35). -/
def State.fvekKeyed (s : State) : Bool := s.ctx.fvekEnc.isKeyed && s.ctx.fvekDec.isKeyed

/-- STATUS.TWEAK_KEYED: both Tweak sub-contexts are Keyed (R35). -/
def State.tweakKeyed (s : State) : Bool := s.ctx.tweakEnc.isKeyed && s.ctx.tweakDec.isKeyed

/-- STATUS (R35): bit 0 BUSY, 1 DONE, 2 ERR, 3 OVR, 4 CTX_VALID, 5 FVEK_KEYED, 6 TWEAK_KEYED, 31:7 zero. -/
def State.statusWord (s : State) : Word :=
  (0 : BitVec 25) ++ BitVec.ofBool s.tweakKeyed ++ BitVec.ofBool s.fvekKeyed ++ BitVec.ofBool s.ctx.valid ++
    BitVec.ofBool s.ovr ++ BitVec.ofBool s.err ++ BitVec.ofBool s.done ++ BitVec.ofBool s.isBusy

/-- CTRL (R34): bit 0 IE_DONE, 1 IE_ERR, 2 IE_OVR; SRST and the reserved bits read 0. -/
def State.ctrlWord (s : State) : Word :=
  (0 : BitVec 29) ++ BitVec.ofBool s.ieOvr ++ BitVec.ofBool s.ieErr ++ BitVec.ofBool s.ieDone

/-- METHOD (R37): 0x0000 while no context exists. -/
def State.methodWord (s : State) : Word := (0 : BitVec 16) ++ (if s.ctx.valid then s.ctx.method else 0)

/-- The IRQ output, a level and a function of the state (R67, R350). -/
def State.irq (s : State) : Bool := (s.ieDone && s.done) || (s.ieErr && s.err) || (s.ieOvr && s.ovr)

end Sys2Proof.Machine
end

