-- ==== Sys2Proof/Machine/Aes.lean ====
section
/-! DEFINITION. AES (`40_aes.md` R151 to R160) and the chaining modes over a block transform (R167, R168). -/

namespace Sys2Proof.Machine

/-! ## Field arithmetic (R153) -/

/-- `xtime`. -/
def xtime (a : Byte) : Byte := (a <<< 1) ^^^ (if a.getLsbD 7 then 0x1B#8 else 0#8)

/-- `gmul(a, b)`: the XOR of `xtime^k(a)` over every bit k set in b. -/
def gmul (a b : Byte) : Byte :=
  (List.range 8).foldl (fun acc k => if b.getLsbD k then acc ^^^ Nat.repeat xtime k a else acc) 0#8

/-! ## S-boxes (R154, R155): one 128-bit numeral per row of the spec's table, column 0 the most significant byte -/

/-- The rows of R154. -/
def sboxRows : List (BitVec 128) :=
  [0x637c777bf26b6fc53001672bfed7ab76, 0xca82c97dfa5947f0add4a2af9ca472c0,
   0xb7fd9326363ff7cc34a5e5f171d83115, 0x04c723c31896059a071280e2eb27b275] ++
  [0x09832c1a1b6e5aa0523bd6b329e32f84, 0x53d100ed20fcb15b6acbbe394a4c58cf,
   0xd0efaafb434d338545f9027f503c9fa8, 0x51a3408f929d38f5bcb6da2110fff3d2] ++
  [0xcd0c13ec5f974417c4a77e3d645d1973, 0x60814fdc222a908846eeb814de5e0bdb,
   0xe0323a0a4906245cc2d3ac629195e479, 0xe7c8376d8dd54ea96c56f4ea657aae08] ++
  [0xba78252e1ca6b4c6e8dd741f4bbd8b8a, 0x703eb5664803f60e613557b986c11d9e,
   0xe1f8981169d98e949b1e87e9ce5528df, 0x8ca1890dbfe6426841992d0fb054bb16]

/-- The rows of R155. -/
def invSboxRows : List (BitVec 128) :=
  [0x52096ad53036a538bf40a39e81f3d7fb, 0x7ce339829b2fff87348e4344c4dee9cb,
   0x547b9432a6c2233dee4c950b42fac34e, 0x082ea16628d924b2765ba2496d8bd125] ++
  [0x72f8f66486689816d4a45ccc5d65b692, 0x6c704850fdedb9da5e154657a78d9d84,
   0x90d8ab008cbcd30af7e45805b8b34506, 0xd02c1e8fca3f0f02c1afbd0301138a6b] ++
  [0x3a9111414f67dcea97f2cfcef0b4e673, 0x96ac7422e7ad3585e2f937e81c75df6e,
   0x47f11a711d29c5896fb7620eaa18be1b, 0xfc563e4bc6d279209adbc0fe78cd5af4] ++
  [0x1fdda8338807c731b11210592780ec5f, 0x60517fa919b54a0d2de57a9f93c99cef,
   0xa0e03b4dae2af5b0c8ebbb3c83539961, 0x172b047eba77d626e169146355210c7d]

/-- The entry of a table: row the high nibble, column the low nibble. -/
def tableByte (rows : List (BitVec 128)) (x : Byte) : Byte :=
  (rows.getD (x.toNat / 16) 0).extractLsb' (8 * (15 - x.toNat % 16)) 8

/-- `SBOX[x]` (R154). -/
def sbox (x : Byte) : Byte := tableByte sboxRows x

/-- `INV_SBOX[y]` (R155). -/
def invSbox (y : Byte) : Byte := tableByte invSboxRows y

/-! ## Keys and the key schedule (R151, R152, R156) -/

/-- The key size in bits (R59). -/
def AesKey.bits : AesKey → Nat
  | .k128 _ => 128
  | .k256 _ => 256

/-- Nk, the key length in words (R151). -/
def AesKey.nk : AesKey → Nat
  | .k128 _ => 4
  | .k256 _ => 8

/-- Nr, the number of rounds (R151). -/
def AesKey.nr : AesKey → Nat
  | .k128 _ => 10
  | .k256 _ => 14

/-- The key's bytes. -/
def AesKey.bytes : AesKey → List Byte
  | .k128 k => k.toList
  | .k256 k => k.toList

/-- A key word: the bytes w[i][0] to w[i][3] (R152). -/
abbrev KeyWord := ByteReg 4

/-- The four bytes of a key word. -/
def keyWord (b0 b1 b2 b3 : Byte) : KeyWord := ⟨#[b0, b1, b2, b3], rfl⟩

/-- `RotWord` (R156). -/
def rotWord (w : KeyWord) : KeyWord := keyWord w[1] w[2] w[3] w[0]

/-- `SubWord` (R156). -/
def subWord (w : KeyWord) : KeyWord := keyWord (sbox w[0]) (sbox w[1]) (sbox w[2]) (sbox w[3])

/-- `Rcon[j]` for j from 1 to 10 (R156). -/
def rcon (j : Nat) : Byte := Nat.repeat xtime (j - 1) 0x01#8

/-- The word `t` that is added to w[i-Nk], from w[i-1] (R156). -/
def scheduleCore (nk i : Nat) (t : KeyWord) : KeyWord :=
  if i % nk = 0 then xorReg (subWord (rotWord t)) (keyWord (rcon (i / nk)) 0 0 0)
  else if nk = 8 ∧ i % nk = 4 then subWord t
  else t

/-- One more word of the schedule, in front of the words so far, newest first. -/
def scheduleStep (nk : Nat) (acc : List KeyWord) (i : Nat) : List KeyWord :=
  xorReg (acc.getD (nk - 1) (zeroReg 4)) (scheduleCore nk i (acc.getD 0 (zeroReg 4))) :: acc

/-- The key's own words: `w[i][j] = key[4*i + j]` (R152). -/
def keyWords : Nat → List Byte → List KeyWord
  | 0, _ => []
  | n + 1, bs => keyWord (bs.getD 0 0#8) (bs.getD 1 0#8) (bs.getD 2 0#8) (bs.getD 3 0#8) :: keyWords n (bs.drop 4)

/-- `KeyExpansion(key)`: the words w[0] to w[4*(Nr+1) - 1] (R156). -/
def keyExpansion (key : AesKey) : List KeyWord :=
  ((List.range' key.nk (4 * (key.nr + 1) - key.nk)).foldl (scheduleStep key.nk)
    (keyWords key.nk key.bytes).reverse).reverse

/-- Round key r: the words w[4r] to w[4r+3], as the 16 bytes added to the state (R156, R157). -/
def roundKey (w : List KeyWord) (r : Nat) : Block :=
  Vector.ofFn fun k : Fin 16 => (w.getD (4 * r + k.val / 4) (zeroReg 4))[k.val % 4]

/-! ## Round transformations (R152, R157). Byte `r + 4c` of a block is s[r][c]. -/

/-- `SubBytes`. -/
def subBytes (s : Block) : Block := s.map sbox

/-- `InvSubBytes`. -/
def invSubBytes (s : Block) : Block := s.map invSbox

/-- `ShiftRows`: s'[r][c] = s[r][(c + r) mod 4]. -/
def shiftRows (s : Block) : Block :=
  Vector.ofFn fun k : Fin 16 => s[k.val % 4 + 4 * ((k.val / 4 + k.val % 4) % 4)]

/-- `InvShiftRows`: s'[r][c] = s[r][(c - r) mod 4]. -/
def invShiftRows (s : Block) : Block :=
  Vector.ofFn fun k : Fin 16 => s[k.val % 4 + 4 * ((k.val / 4 + 4 - k.val % 4) % 4)]

/-- The byte a_(r+d) of the column of byte `k = r + 4c`, rows mod 4. -/
def columnByte (s : Block) (k : Fin 16) (d : Nat) : Byte := s[(k.val % 4 + d) % 4 + 4 * (k.val / 4)]

/-- `MixColumns`. -/
def mixColumns (s : Block) : Block :=
  Vector.ofFn fun k : Fin 16 =>
    gmul 2 (columnByte s k 0) ^^^ gmul 3 (columnByte s k 1) ^^^ columnByte s k 2 ^^^ columnByte s k 3

/-- `InvMixColumns`. -/
def invMixColumns (s : Block) : Block :=
  Vector.ofFn fun k : Fin 16 =>
    gmul 14 (columnByte s k 0) ^^^ gmul 11 (columnByte s k 1) ^^^ gmul 13 (columnByte s k 2) ^^^ gmul 9 (columnByte s k 3)

/-- One of the rounds 1 to Nr-1 of `Cipher` (R158). -/
def cipherRound (w : List KeyWord) (s : Block) (r : Nat) : Block :=
  xorReg (mixColumns (shiftRows (subBytes s))) (roundKey w r)

/-- One of the rounds Nr-1 to 1 of `InvCipher` (R159). -/
def invCipherRound (w : List KeyWord) (s : Block) (r : Nat) : Block :=
  invMixColumns (xorReg (invSubBytes (invShiftRows s)) (roundKey w r))

/-- `Cipher(key, in)` (R158). -/
def cipher (key : AesKey) (x : Block) : Block :=
  let w := keyExpansion key
  let s := (List.range' 1 (key.nr - 1)).foldl (cipherRound w) (xorReg x (roundKey w 0))
  xorReg (shiftRows (subBytes s)) (roundKey w key.nr)

/-- `InvCipher(key, in)` (R159). -/
def invCipher (key : AesKey) (x : Block) : Block :=
  let w := keyExpansion key
  let s := (List.range' 1 (key.nr - 1)).reverse.foldl (invCipherRound w) (xorReg x (roundKey w key.nr))
  xorReg (invSubBytes (invShiftRows s)) (roundKey w 0)

/-! ## Chaining over a block transform -/

/-- The loop of `CBC_Enc`: c_j = E(p_j ^ prev), and prev becomes c_j (R167). -/
def chainEncrypt (e : Block → Block) : Block → List Block → List Block
  | _, [] => []
  | prev, p :: ps =>
    let c := e (xorReg p prev)
    c :: chainEncrypt e c ps

/-- The loop of `CBC_Dec`: p_j = D(c_j) ^ prev, and prev becomes c_j (R168). -/
def chainDecrypt (d : Block → Block) : Block → List Block → List Block
  | _, [] => []
  | prev, c :: cs => xorReg (d c) prev :: chainDecrypt d c cs

end Sys2Proof.Machine
end

