-- ==== Sys2Proof/Machine/Operands.lean ====
section
/-! DEFINITION. The operand forms of the commands (`30_encoding.md` R124, R125, R128, R131): directions, sub-contexts,
the block index, methods, and the operand checks; and the cipher over a sub-context (`40_aes.md` R164 to R168). -/

namespace Sys2Proof.Machine

/-! ## Direction and sub-context -/

/-- The direction MODE selects; `none` for the reserved values (R124). -/
def directionOf : Mode → Option Direction
  | .decrypt => some .decrypt
  | .encrypt => some .encrypt
  | .reserved2 => none
  | .reserved3 => none

/-- The sub-context ECB and CBC use (R125). -/
def selectSub : KeySel → Direction → SubId
  | .fvek, .encrypt => .fvekEnc
  | .fvek, .decrypt => .fvekDec
  | .tweak, .encrypt => .tweakEnc
  | .tweak, .decrypt => .tweakDec

/-- `sub[S]` (R60). -/
def Context.sub (c : Context) : SubId → SubCtx
  | .fvekEnc => c.fvekEnc
  | .fvekDec => c.fvekDec
  | .tweakEnc => c.tweakEnc
  | .tweakDec => c.tweakDec

/-- `unit(S)` (R58). -/
def unitOf : SubId → ErrUnit
  | .fvekEnc => .fvekEnc
  | .fvekDec => .fvekDec
  | .tweakEnc => .tweakEnc
  | .tweakDec => .tweakDec

/-- The block transform of a keyed sub-context: `E_S` for an encryption sub-context, `D_S` for a decryption one (R161). -/
def blockTransform (S : SubId) (key : AesKey) (x : Block) : Block :=
  match S with
  | .fvekEnc => cipher key x
  | .fvekDec => invCipher key x
  | .tweakEnc => cipher key x
  | .tweakDec => invCipher key x

/-! ## The block index and the block key -/

/-- `block_index` (R40): BLKIDX_HI * 2^32 + BLKIDX_LO. -/
def blockIndex (o : Snapshot) : BitVec 64 := o.blkidxHi ++ o.blkidxLo

/-- The 16-byte block key: the little-endian index, then zeros (`44_sector_crypt.md` R304). -/
def blockKey (idx : BitVec 64) : Block := regOfBytes 16 (encLE64 idx)

/-! ## Methods (`43_context.md` R270 to R272) -/

/-- The capability record of a method (R272). -/
structure MethodClass where
  keyBitSize : Nat
  usesTweak : Bool
  usesDiffuser : Bool
deriving DecidableEq, Repr

/-- `Classify(m)` (R270, R272); `none` for an unsupported code (R271). -/
def classify (m : BitVec 16) : Option MethodClass :=
  if m = 0x8000 then some ⟨128, true, true⟩
  else if m = 0x8001 then some ⟨256, true, true⟩
  else if m = 0x8002 then some ⟨128, false, false⟩
  else if m = 0x8003 then some ⟨256, false, false⟩
  else none

/-- `SetKey(S, keybytes, bits)`: the value sub[S] takes, the first bits/8 bytes of the staging value; `none` is the
failure InvalidKeySize (R165). -/
def setKey (keybytes : ByteReg 32) (bits : Nat) : Option SubCtx :=
  if bits = 128 then some (.keyed (.k128 (regOfBytes 16 keybytes.toList)))
  else if bits = 256 then some (.keyed (.k256 keybytes))
  else none

/-! ## Checks and their reports (R123, R124, R131, R340 to R342) -/

/-- MODE of 2 or 3 (R124). -/
def errUnsupportedMode : CmdError := ⟨.unsupportedMode, .none, .decoder⟩

/-- The command needs a context and there is none (R131). -/
def errNoContext : CmdError := ⟨.invalidArgument, .noContext, .context⟩

/-- INIT while a context exists (R131, R275). -/
def errContextAlreadyValid : CmdError := ⟨.invalidArgument, .contextAlreadyValid, .context⟩

/-- CRYPT under an unsupported method (R131, R300). -/
def errUnsupportedMethod : CmdError := ⟨.invalidArgument, .unsupportedMethod, .context⟩

/-- SETKEYS under an unsupported method (R281). -/
def errInvalidKeySize : CmdError := ⟨.keyInstallFailed, .invalidKeySize, .fvekEnc⟩

/-- HASH8 on ill-formed UTF-8 (R240). -/
def errBadUtf8 : CmdError := ⟨.invalidArgument, .badUtf8, .hash⟩

/-- Use of an Unset sub-context (R164). -/
def errKeyNotSet (S : SubId) : CmdError := ⟨.cipherOperationFailed, .keyNotSet, unitOf S⟩

/-- A length check that fails with cause `c` (R131). -/
def errLength (c : ErrCause) : CmdError := ⟨.invalidInputSize, c, .decoder⟩

/-- The length checks of R131, the first that applies: L > B, L = 0 where L >= 1 is required, L no multiple of the
granule, L other than the sector size (Diffuser methods only). -/
def lengthCheck (cap len : Nat) (minOne : Bool) (granule : Nat) (sector : Option Nat) : Option CmdError :=
  if cap < len then some (errLength .lengthTooLarge)
  else if minOne = true ∧ len = 0 then some (errLength .lengthZero)
  else if len % granule ≠ 0 then some (errLength .lengthNotMultiple)
  else match sector with
    | none => none
    | some n => if len ≠ n then some (errLength .lengthNotSector) else none

/-! ## The checks of the commands that write OBUF, in R344's order -/

/-- ECB: MODE and the context (`40_aes.md` R170). -/
def ecbChecks (mode : Mode) (o : Snapshot) : Except CmdError Direction :=
  match directionOf mode with
  | none => .error errUnsupportedMode
  | some d => if o.ctx.valid then .ok d else .error errNoContext

/-- CBC: those of ECB, then the length (`40_aes.md` R171). -/
def cbcChecks (cap : Nat) (mode : Mode) (o : Snapshot) : Except CmdError Direction :=
  match ecbChecks mode o with
  | .error e => .error e
  | .ok d =>
    match lengthCheck cap o.length.toNat false 16 none with
    | some e => .error e
    | none => .ok d

/-- DIFFA and DIFFB: MODE and the length (`41_diffuser.md` R210, R211). -/
def diffuserChecks (cap : Nat) (mode : Mode) (o : Snapshot) : Except CmdError Direction :=
  match directionOf mode with
  | none => .error errUnsupportedMode
  | some d =>
    match lengthCheck cap o.length.toNat true 16 none with
    | some e => .error e
    | none => .ok d

/-- The sector length a method's length check compares with: SECTOR_SIZE under a Diffuser method (R131, R301). -/
def sectorOperand (cls : MethodClass) (o : Snapshot) : Option Nat :=
  if cls.usesDiffuser then some o.sectorSize.toNat else none

/-- CRYPT: MODE, the context, the method, the length (`44_sector_crypt.md` R300). -/
def cryptChecks (cap : Nat) (mode : Mode) (o : Snapshot) : Except CmdError (Direction × MethodClass) :=
  match ecbChecks mode o with
  | .error e => .error e
  | .ok d =>
    match classify o.ctx.method with
    | none => .error errUnsupportedMethod
    | some cls =>
      match lengthCheck cap o.length.toNat true 16 (sectorOperand cls o) with
      | some e => .error e
      | none => .ok (d, cls)

/-! ## The cipher over a sub-context (`40_aes.md` R164 to R168) -/

/-- `ECB(S, x)` (R166). -/
def ecb (c : Context) (S : SubId) (x : Block) : Except CmdError Block :=
  match c.sub S with
  | .unset => .error (errKeyNotSet S)
  | .keyed key => .ok (blockTransform S key x)

/-- `CBC_Enc(S, iv, p)` for an encryption sub-context (R167). -/
def cbcEnc (c : Context) (S : SubId) (iv : Block) (p : List Byte) : Except CmdError (List Byte) :=
  match c.sub S with
  | .unset => .error (errKeyNotSet S)
  | .keyed key => .ok (bytesOfBlocks (chainEncrypt (blockTransform S key) iv (blocksOf (p.length / 16) p)))

/-- `CBC_Dec(S, iv, c)` for a decryption sub-context (R168). -/
def cbcDec (c : Context) (S : SubId) (iv : Block) (x : List Byte) : Except CmdError (List Byte) :=
  match c.sub S with
  | .unset => .error (errKeyNotSet S)
  | .keyed key => .ok (bytesOfBlocks (chainDecrypt (blockTransform S key) iv (blocksOf (x.length / 16) x)))

end Sys2Proof.Machine
end

