-- ==== Sys2Proof/Machine/Reset.lean ====
section
/-! DEFINITION. Power-on reset, soft reset, and what an abandoned command leaves (`70_reset_and_hazards.md` R380,
R382). -/

namespace Sys2Proof.Machine

/-- `n`, for a command whose checks pass; a command that fails a check writes no byte. -/
def writtenAfter {α : Type} (checks : Except CmdError α) (n : Nat) : Nat :=
  match checks with
  | .ok _ => n
  | .error _ => 0

/-- How many bytes of OBUF an abandoned command would have written, from offset 0 (R100, R382): none where it would have
failed a check, since OBUF is then unchanged (R346). A command whose input has an Unknown byte or whose sub-context is
Unset counts as one that writes (DEDUCED, log entry 10, safe). -/
def obufBytes (cfg : Params) (snap : Snapshot) : Instr → Nat
  | .init _ => 0
  | .free => 0
  | .setkeys => 0
  | .crypt mode => writtenAfter (cryptChecks cfg.bufBytes mode snap) snap.length.toNat
  | .ecb mode _ => writtenAfter (ecbChecks mode snap) 16
  | .cbc mode _ => writtenAfter (cbcChecks cfg.bufBytes mode snap) snap.length.toNat
  | .diffa mode => writtenAfter (diffuserChecks cfg.bufBytes mode snap) snap.length.toNat
  | .diffb mode => writtenAfter (diffuserChecks cfg.bufBytes mode snap) snap.length.toNat
  | .hash8 => 0
  | .hash16 => 0
  | .calckey => 0

/-- The buffers after the running command, if any, is abandoned: what it writes of OBUF becomes Unknown (R382). -/
def State.abandon (s : State) : Memory :=
  match s.engine with
  | .idle => s.mem
  | .busy cw snap _ =>
    match decode cw with
    | .ok i => s.mem.forget obufBase (obufBytes s.cfg snap i)
    | .error _ => s.mem

/-- Soft reset: CTRL.SRST (R382). -/
def State.softReset (s : State) : State := State.fresh s.cfg s.abandon s.host s.draws

/-- Power-on reset of a running machine (R380, R366): every byte of IBUF and OBUF becomes Unknown. -/
def State.powerOn (s : State) : State := State.fresh s.cfg [] s.host s.draws

end Sys2Proof.Machine
end

