-- ==== Sys2Proof/WellFormed.lean ====
section
/-! DEFINITION. The checks on syntax: which commands are not reserved encodings, and which host accesses the bus allows. -/

namespace Sys2Proof

/-- MODE 0 and 1 are the defined directions; 2 and 3 are reserved (`30_encoding.md` R124, R130). -/
def Mode.defined : Mode → Bool
  | .decrypt => true
  | .encrypt => true
  | .reserved2 => false
  | .reserved3 => false

/-- A command is well formed when it is no reserved encoding (R130), that is, when one of R140's mnemonics assembles to
it. INIT takes every 16-bit method code (R126). A command with a reserved MODE still decodes and has the meaning R124
gives it. -/
def Instr.wellFormed : Instr → Bool
  | .init _ => true
  | .free => true
  | .setkeys => true
  | .crypt m => m.defined
  | .ecb m _ => m.defined
  | .cbc m _ => m.defined
  | .diffa m => m.defined
  | .diffb m => m.defined
  | .hash8 => true
  | .hash16 => true
  | .calckey => true

/-- "Every host access is a 32-bit access to an offset that is a multiple of 4" (`20_memory.md` R93). The base is
aligned (R10), so the address is a multiple of 4 exactly when the offset is. -/
def HostOp.wellFormed : HostOp → Bool
  | .write w a _ => decide (w = .w32) && decide (a % 4 = 0)
  | .writeLast a => decide (a % 4 = 0)
  | .read w a => decide (w = .w32) && decide (a % 4 = 0)
  | .bnz a _ _ => decide (a % 4 = 0)
  | .powerOnReset => true

end Sys2Proof
end

