-- ==== Sys2Proof/Machine/Bus.lean ====
section
/-! DEFINITION. The host's accesses to the register window (`20_memory.md` R90 to R98), the hazards
(`70_reset_and_hazards.md` R390), and one turn of the host's program (`30_encoding.md` R140, R141). -/

namespace Sys2Proof.Machine

/-! ## The register map (`10_state.md` section 3) -/

/-- What an aligned offset names. `j` counts the 32-bit words of a register group; `off` is the window offset of a
buffer word. -/
inductive Target where
  | id
  | version
  | ctrl
  | status
  | error
  | method
  | sectorSize
  | length
  | blkidxLo
  | blkidxHi
  | cmd
  | fvekStage (j : Nat)
  | tweakStage (j : Nat)
  | iv (j : Nat)
  | salt (j : Nat)
  | pwhash (j : Nat)
  | dkey (j : Nat)
  | ibuf (off : Nat)
  | obuf (off : Nat)
  | reserved
deriving DecidableEq, Repr

/-- The register map. Offsets with no register, and buffer offsets at or above P_BUF_BYTES, are reserved (R50, R92). -/
def targetOf (bufBytes off : Nat) : Target :=
  if off = 0x0000 then .id
  else if off = 0x0004 then .version
  else if off = 0x0008 then .ctrl
  else if off = 0x000C then .status
  else if off = 0x0010 then .error
  else if off = 0x0014 then .method
  else if off = 0x0018 then .sectorSize
  else if off = 0x001C then .length
  else if off = 0x0020 then .blkidxLo
  else if off = 0x0024 then .blkidxHi
  else if off = 0x0028 then .cmd
  else if off < 0x0040 then .reserved
  else if off < 0x0060 then .fvekStage ((off - 0x0040) / 4)
  else if off < 0x0080 then .tweakStage ((off - 0x0060) / 4)
  else if off < 0x0090 then .iv ((off - 0x0080) / 4)
  else if off < 0x00A0 then .salt ((off - 0x0090) / 4)
  else if off < 0x00C0 then .pwhash ((off - 0x00A0) / 4)
  else if off < 0x00E0 then .dkey ((off - 0x00C0) / 4)
  else if off < ibufBase then .reserved
  else if off < ibufBase + bufBytes then .ibuf off
  else if off < obufBase then .reserved
  else if off < obufBase + bufBytes then .obuf off
  else .reserved

/-- The offset of a bus access: outside the window there is no BDE-CORE (R90); an access that is not 32 bits wide or
not aligned is a bus error, which a model treats as a fault (R93, R94; log entries 4 and 9). -/
def locate (cfg : Params) (width : Width) (addr : Nat) : Except Fault Nat :=
  if addr < cfg.base ∨ cfg.base + 0x4000 ≤ addr then .error .outsideWindow
  else if width = .w32 ∧ (addr - cfg.base) % 4 = 0 then .ok (addr - cfg.base)
  else .error .busError

/-! ## Hazards (R390) -/

/-- The reads that are hazards while BUSY. -/
def readHazard : Target → Bool
  | .id => false
  | .version => false
  | .ctrl => false
  | .status => false
  | .error => false
  | .method => false
  | .sectorSize => true
  | .length => true
  | .blkidxLo => true
  | .blkidxHi => true
  | .cmd => false
  | .fvekStage _ => false
  | .tweakStage _ => false
  | .iv _ => true
  | .salt _ => true
  | .pwhash _ => true
  | .dkey _ => true
  | .ibuf _ => true
  | .obuf _ => true
  | .reserved => false

/-- The writes that are hazards while BUSY: those of the same registers, and of the staging groups. -/
def writeHazard : Target → Bool
  | .id => false
  | .version => false
  | .ctrl => false
  | .status => false
  | .error => false
  | .method => false
  | .sectorSize => true
  | .length => true
  | .blkidxLo => true
  | .blkidxHi => true
  | .cmd => false
  | .fvekStage _ => true
  | .tweakStage _ => true
  | .iv _ => true
  | .salt _ => true
  | .pwhash _ => true
  | .dkey _ => true
  | .ibuf _ => true
  | .obuf _ => true
  | .reserved => false

/-! ## Reads (R96, R98) -/

/-- Byte lane `k` of a buffer word: the byte, or a draw where it is Unknown (R54). -/
def bufferLane (s : State) (off k : Nat) : Byte :=
  match s.mem.read (off + k) with
  | some b => b
  | none => Config.freeByte (s.draws + k)

/-- A buffer word, little-endian (R95). -/
def bufferWord (s : State) (off : Nat) : Word :=
  le32 (bufferLane s off 0) (bufferLane s off 1) (bufferLane s off 2) (bufferLane s off 3)

/-- What a 32-bit read returns (R32 to R53). The staging groups, CMD and reserved offsets read 0. -/
def readTarget (s : State) : Target → Word
  | .id => 0x4C424445
  | .version => 0x00000007
  | .ctrl => s.ctrlWord
  | .status => s.statusWord
  | .error => s.error
  | .method => s.methodWord
  | .sectorSize => (0 : BitVec 16) ++ s.sectorSize
  | .length => (0 : BitVec 16) ++ s.length
  | .blkidxLo => s.blkidxLo
  | .blkidxHi => s.blkidxHi
  | .cmd => 0
  | .fvekStage _ => 0
  | .tweakStage _ => 0
  | .iv j => regWord s.iv j
  | .salt j => regWord s.salt j
  | .pwhash j => regWord s.pwhash j
  | .dkey j => regWord s.dkey j
  | .ibuf off => bufferWord s off
  | .obuf off => bufferWord s off
  | .reserved => 0

/-- How many free values a read draws. -/
def readDraws : Target → Nat
  | .ibuf _ => 4
  | .obuf _ => 4
  | .id => 0
  | .version => 0
  | .ctrl => 0
  | .status => 0
  | .error => 0
  | .method => 0
  | .sectorSize => 0
  | .length => 0
  | .blkidxLo => 0
  | .blkidxHi => 0
  | .cmd => 0
  | .fvekStage _ => 0
  | .tweakStage _ => 0
  | .iv _ => 0
  | .salt _ => 0
  | .pwhash _ => 0
  | .dkey _ => 0
  | .reserved => 0

/-- `MemRead` (R96): the value, and the state, in which only the model's count of draws has moved (R98). -/
def hostRead (s : State) (width : Width) (addr : Nat) : Except Fault (Word × State) :=
  match locate s.cfg width addr with
  | .error f => .error f
  | .ok off =>
    let t := targetOf s.cfg.bufBytes off
    if s.isBusy && readHazard t then .error .hazard
    else .ok (readTarget s t, { s with draws := s.draws + readDraws t })

/-! ## Writes (R96) -/

/-- A write of CTRL: SRST resets and the other bits of the write are ignored; else the enables are stored (R34, R382). -/
def writeCtrl (s : State) (v : Word) : State :=
  if v.getLsbD 31 then s.softReset
  else { s with ieDone := v.getLsbD 0, ieErr := v.getLsbD 1, ieOvr := v.getLsbD 2 }

/-- A write of CMD: acceptance while Idle, overrun while Busy (R121, R122). -/
def writeCmd (s : State) (v : Word) : State := if s.isBusy then s.overrun else s.accept v

/-- The effect of a 32-bit write (R32 to R53). Read-only registers and reserved offsets ignore it, while Busy too (DEDUCED,
log entry 8, unsafe). -/
def writeTarget (s : State) (t : Target) (v : Word) : State :=
  match t with
  | .id => s
  | .version => s
  | .ctrl => writeCtrl s v
  | .status => s.acknowledge v
  | .error => s
  | .method => s
  | .sectorSize => { s with sectorSize := v.setWidth 16 }
  | .length => { s with length := v.setWidth 16 }
  | .blkidxLo => { s with blkidxLo := v }
  | .blkidxHi => { s with blkidxHi := v }
  | .cmd => writeCmd s v
  | .fvekStage j => { s with fvekStage := regSetWord s.fvekStage j v }
  | .tweakStage j => { s with tweakStage := regSetWord s.tweakStage j v }
  | .iv j => { s with iv := regSetWord s.iv j v }
  | .salt j => { s with salt := regSetWord s.salt j v }
  | .pwhash j => { s with pwhash := regSetWord s.pwhash j v }
  | .dkey _ => s
  | .ibuf off => { s with mem := s.mem.writeBytes off (encLE32 v) }
  | .obuf off => { s with mem := s.mem.writeBytes off (encLE32 v) }
  | .reserved => s

/-- `MemWrite` (R96). -/
def hostWrite (s : State) (width : Width) (addr : Nat) (v : Word) : Except Fault State :=
  match locate s.cfg width addr with
  | .error f => .error f
  | .ok off =>
    let t := targetOf s.cfg.bufBytes off
    if s.isBusy && writeHazard t then .error .hazard
    else .ok (writeTarget s t v)

/-! ## One turn of the host -/

/-- The host goes on to operation `n` of its program. -/
def State.hostAt (s : State) (n : Nat) : State := { s with host := { s.host with pc := n } }

/-- The host notes the value a read returned and goes on to operation `n`. -/
def State.hostGot (s : State) (v : Word) (n : Nat) : State :=
  { s with host := { s.host with reads := v :: s.host.reads, pc := n } }

/-- One operation of the host's program (R140, R141), at position `s.host.pc` (DESIGN CHOICE, log entries 14 to 16,
safe). -/
def hostOp (s : State) (op : HostOp) : Host.Outcome State Fault Refusal :=
  let nextPc := s.host.pc + 1
  match op with
  | .write width addr v =>
    match hostWrite s width addr v with
    | .error f => .fault f
    | .ok t => .next (t.hostAt nextPc)
  | .writeLast addr =>
    match s.host.reads with
    | [] => .fault .noValueRead
    | v :: _ =>
      match hostWrite s .w32 addr v with
      | .error f => .fault f
      | .ok t => .next (t.hostAt nextPc)
  | .read width addr =>
    match hostRead s width addr with
    | .error f => .fault f
    | .ok (v, t) => .next (t.hostGot v nextPc)
  | .bnz addr mask target =>
    match hostRead s .w32 addr with
    | .error f => .fault f
    | .ok (v, t) => .next (t.hostGot v (if v &&& mask ≠ 0 then target else nextPc))
  | .powerOnReset => .next (s.powerOn.hostAt nextPc)

/-- The host's turn: its next operation, or nothing when its program has ended (Idle keeps all state, R366). -/
def hostTurn (s : State) : Host.Outcome State Fault Refusal :=
  match s.host.prog[s.host.pc]? with
  | none => .next s
  | some op => hostOp s op

end Sys2Proof.Machine
end

