-- ==== Sys2Proof/Machine/CipherCommands.lean ====
section
/-! DEFINITION. ECB and CBC (`40_aes.md` R170, R171). -/

namespace Sys2Proof.Machine

/-- The transform of ECB on its 16 input bytes (R170). -/
def ecbBytes (c : Context) (S : SubId) (x : List Byte) : Except CmdError (List Byte) :=
  match ecb c S (regOfBytes 16 x) with
  | .ok y => .ok y.toList
  | .error e => .error e

/-- The transform of CBC: `CBC_Enc` or `CBC_Dec` with the sub-context of R125 (R171). -/
def cbcBytes (c : Context) (ksel : KeySel) (d : Direction) (iv : Block) (x : List Byte) :
    Except CmdError (List Byte) :=
  match d with
  | .encrypt => cbcEnc c (selectSub ksel d) iv x
  | .decrypt => cbcDec c (selectSub ksel d) iv x

/-- ECB (R170). LENGTH is not read. -/
def execEcb (mode : Mode) (ksel : KeySel) (s : State) : Host.Outcome State Fault Refusal :=
  match ecbChecks mode s.operands with
  | .error e => reject s (.ecb mode ksel) e
  | .ok d => transformBuffer s (.ecb mode ksel) 16 (ecbBytes s.operands.ctx (selectSub ksel d))

/-- CBC (R171). The IV register is read and keeps its value. -/
def execCbc (mode : Mode) (ksel : KeySel) (s : State) : Host.Outcome State Fault Refusal :=
  match cbcChecks s.cfg.bufBytes mode s.operands with
  | .error e => reject s (.cbc mode ksel) e
  | .ok d =>
    transformBuffer s (.cbc mode ksel) s.operands.length.toNat (cbcBytes s.operands.ctx ksel d s.operands.iv)

end Sys2Proof.Machine
end

