-- ==== Sys2Proof/Machine/ContextCommands.lean ====
section
/-! DEFINITION. INIT, FREE and SETKEYS (`43_context.md`). -/

namespace Sys2Proof.Machine

/-- INIT (R275). The method is not validated here (R271). -/
def execInit (method : BitVec 16) (s : State) : Host.Outcome State Fault Refusal :=
  if s.operands.ctx.valid then reject s (.init method) errContextAlreadyValid
  else .next (State.succeed { s with ctx := ⟨true, method, .unset, .unset, .unset, .unset⟩ })

/-- FREE (R278). -/
def execFree (s : State) : Host.Outcome State Fault Refusal :=
  if s.operands.ctx.valid then .next (State.succeed { s with ctx := Context.absent })
  else reject s .free errNoContext

/-- The context SETKEYS makes under a supported method, when every SetKey succeeds (R281). The Tweak pair is keyed only
when the method uses the Tweak. -/
def keyedContext (o : Snapshot) (cls : MethodClass) : Option Context :=
  match setKey o.fvekStage cls.keyBitSize with
  | none => none
  | some fvek =>
    if cls.usesTweak then
      match setKey o.tweakStage cls.keyBitSize with
      | none => none
      | some tweak => some { o.ctx with fvekEnc := fvek, fvekDec := fvek, tweakEnc := tweak, tweakDec := tweak }
    else some { o.ctx with fvekEnc := fvek, fvekDec := fvek }

/-- SETKEYS (R281). It installs all its keys or none (R282), and on success clears both staging groups. -/
def execSetkeys (s : State) : Host.Outcome State Fault Refusal :=
  let o := s.operands
  if o.ctx.valid then
    match (classify o.ctx.method).bind (keyedContext o) with
    | none => reject s .setkeys errInvalidKeySize
    | some c => .next (State.succeed { s with ctx := c, fvekStage := zeroReg 32, tweakStage := zeroReg 32 })
  else reject s .setkeys errNoContext

end Sys2Proof.Machine
end

