-- ==== Sys2Proof/Machine/Diffuser.lean ====
section
/-! DEFINITION. Diffuser-A and Diffuser-B (`41_diffuser.md` R201 to R206). -/

namespace Sys2Proof.Machine

/-- `A_CYCLES` (R202). -/
def aCycles : Nat := 5

/-- `B_CYCLES` (R202). -/
def bCycles : Nat := 3

/-- `RA[i mod 4]` (R202). -/
def rotA (i : Nat) : Nat := [9, 0, 13, 0].getD (i % 4) 0

/-- `RB[i mod 4]` (R202). -/
def rotB (i : Nat) : Nat := [0, 10, 0, 25].getD (i % 4) 0

/-- The word a Diffuser-A update of d[i] adds or subtracts: `d[(i-2) mod n] ^ rotl32(d[(i-5) mod n], RA[i mod 4])`
(R203). `i + 2n - k` is `i - k` moved by whole turns of n, so that it is not negative for n >= 4. -/
def termA (n : Nat) (d : List Word) (i : Nat) : Word :=
  d.getD ((i + 2 * n - 2) % n) 0 ^^^ (d.getD ((i + 2 * n - 5) % n) 0).rotateLeft (rotA i)

/-- The word a Diffuser-B update of d[i] adds or subtracts: `d[(i+2) mod n] ^ rotl32(d[(i+5) mod n], RB[i mod 4])`
(R205). -/
def termB (n : Nat) (d : List Word) (i : Nat) : Word :=
  d.getD ((i + 2) % n) 0 ^^^ (d.getD ((i + 5) % n) 0).rotateLeft (rotB i)

/-- The update `d[i] <- d[i] + term`. -/
def addAt (term : List Word → Nat → Word) (d : List Word) (i : Nat) : List Word := d.set i (d.getD i 0 + term d i)

/-- The update `d[i] <- d[i] - term`. -/
def subAt (term : List Word → Nat → Word) (d : List Word) (i : Nat) : List Word := d.set i (d.getD i 0 - term d i)

/-- One pass of a decrypt direction: i increasing, each update reading words already updated (R203, R205). -/
def passUp (term : List Word → Nat → Word) (n : Nat) (d : List Word) : List Word :=
  (List.range n).foldl (addAt term) d

/-- One pass of an encrypt direction: i decreasing (R204, R206). -/
def passDown (term : List Word → Nat → Word) (n : Nat) (d : List Word) : List Word :=
  (List.range n).reverse.foldl (subAt term) d

/-- A transform of a buffer through its word view: n = L/4 words, read and written back little-endian (R201). -/
def onWords (f : Nat → List Word → List Word) (buf : List Byte) : List Byte :=
  (f (buf.length / 4) (leWords (buf.length / 4) buf)).flatMap encLE32

/-- `DiffA_Dec` (R203). -/
def diffADec (buf : List Byte) : List Byte := onWords (fun n => Nat.repeat (passUp (termA n) n) aCycles) buf

/-- `DiffA_Enc` (R204). -/
def diffAEnc (buf : List Byte) : List Byte := onWords (fun n => Nat.repeat (passDown (termA n) n) aCycles) buf

/-- `DiffB_Dec` (R205). -/
def diffBDec (buf : List Byte) : List Byte := onWords (fun n => Nat.repeat (passUp (termB n) n) bCycles) buf

/-- `DiffB_Enc` (R206). -/
def diffBEnc (buf : List Byte) : List Byte := onWords (fun n => Nat.repeat (passDown (termB n) n) bCycles) buf

end Sys2Proof.Machine
end

