-- ==== Sys2Proof/Machine/DiffuserCommands.lean ====
section
/-! DEFINITION. DIFFA and DIFFB (`41_diffuser.md` R210, R211). They need no context. -/

namespace Sys2Proof.Machine

/-- Diffuser-A in a direction (R210). -/
def diffA : Direction → List Byte → List Byte
  | .encrypt, x => diffAEnc x
  | .decrypt, x => diffADec x

/-- Diffuser-B in a direction (R211). -/
def diffB : Direction → List Byte → List Byte
  | .encrypt, x => diffBEnc x
  | .decrypt, x => diffBDec x

/-- The checks and the buffer transform DIFFA and DIFFB share. -/
def diffuserCommand (i : Instr) (mode : Mode) (f : Direction → List Byte → List Byte) (s : State) :
    Host.Outcome State Fault Refusal :=
  match diffuserChecks s.cfg.bufBytes mode s.operands with
  | .error e => reject s i e
  | .ok d => transformBuffer s i s.operands.length.toNat fun x => .ok (f d x)

/-- DIFFA (R210). -/
def execDiffa (mode : Mode) (s : State) : Host.Outcome State Fault Refusal :=
  diffuserCommand (.diffa mode) mode diffA s

/-- DIFFB (R211). -/
def execDiffb (mode : Mode) (s : State) : Host.Outcome State Fault Refusal :=
  diffuserCommand (.diffb mode) mode diffB s

end Sys2Proof.Machine
end

