-- ==== Sys2Proof/Machine/Sha256.lean ====
section
/-! DEFINITION. SHA-256 (`42_kdf.md` R230 to R234). -/

namespace Sys2Proof.Machine

/-- The eight words a to h of the compression, and the hash value H[0..7] (R234). -/
structure HashWords where
  a : Word
  b : Word
  c : Word
  d : Word
  e : Word
  f : Word
  g : Word
  h : Word
deriving DecidableEq, Repr

/-- `Ch` (R232). -/
def shaCh (x y z : Word) : Word := (x &&& y) ^^^ (~~~x &&& z)

/-- `Maj` (R232). -/
def shaMaj (x y z : Word) : Word := (x &&& y) ^^^ (x &&& z) ^^^ (y &&& z)

/-- `Σ0` (R232). -/
def shaBig0 (x : Word) : Word := x.rotateRight 2 ^^^ x.rotateRight 13 ^^^ x.rotateRight 22

/-- `Σ1` (R232). -/
def shaBig1 (x : Word) : Word := x.rotateRight 6 ^^^ x.rotateRight 11 ^^^ x.rotateRight 25

/-- `σ0` (R232). -/
def shaSmall0 (x : Word) : Word := x.rotateRight 7 ^^^ x.rotateRight 18 ^^^ (x >>> 3)

/-- `σ1` (R232). -/
def shaSmall1 (x : Word) : Word := x.rotateRight 17 ^^^ x.rotateRight 19 ^^^ (x >>> 10)

/-- H0[0..7] (R233). -/
def shaInit : HashWords :=
  ⟨0x6a09e667, 0xbb67ae85, 0x3c6ef372, 0xa54ff53a, 0x510e527f, 0x9b05688c, 0x1f83d9ab, 0x5be0cd19⟩

/-- K[0..63] (R233), one line of the spec's table per part. -/
def shaK : List Word :=
  [0x428a2f98, 0x71374491, 0xb5c0fbcf, 0xe9b5dba5, 0x3956c25b, 0x59f111f1, 0x923f82a4, 0xab1c5ed5] ++
  [0xd807aa98, 0x12835b01, 0x243185be, 0x550c7dc3, 0x72be5d74, 0x80deb1fe, 0x9bdc06a7, 0xc19bf174] ++
  [0xe49b69c1, 0xefbe4786, 0x0fc19dc6, 0x240ca1cc, 0x2de92c6f, 0x4a7484aa, 0x5cb0a9dc, 0x76f988da] ++
  [0x983e5152, 0xa831c66d, 0xb00327c8, 0xbf597fc7, 0xc6e00bf3, 0xd5a79147, 0x06ca6351, 0x14292967] ++
  [0x27b70a85, 0x2e1b2138, 0x4d2c6dfc, 0x53380d13, 0x650a7354, 0x766a0abb, 0x81c2c92e, 0x92722c85] ++
  [0xa2bfe8a1, 0xa81a664b, 0xc24b8b70, 0xc76c51a3, 0xd192e819, 0xd6990624, 0xf40e3585, 0x106aa070] ++
  [0x19a4c116, 0x1e376c08, 0x2748774c, 0x34b0bcb5, 0x391c0cb3, 0x4ed8aa4a, 0x5b9cca4f, 0x682e6ff3] ++
  [0x748f82ee, 0x78a5636f, 0x84c87814, 0x8cc70208, 0x90befffa, 0xa4506ceb, 0xbef9a3f7, 0xc67178f2]

/-- k of R231: the least number of zero bytes that makes the padded length a multiple of 64. -/
def shaPadZeros (len : Nat) : Nat := (119 - len % 64) % 64

/-- The padded message m' (R231). -/
def shaPad (m : List Byte) : List Byte :=
  m ++ 0x80#8 :: (List.replicate (shaPadZeros m.length) 0#8 ++ encBE64 (BitVec.ofNat 64 (8 * m.length)))

/-- The message schedule, newest word first: `n` more words W[t] in front of W[t-1], W[t-2], ... (R234). -/
def shaExtend : Nat → List Word → List Word
  | 0, w => w
  | n + 1, w => shaExtend n ((shaSmall1 (w.getD 1 0) + w.getD 6 0 + shaSmall0 (w.getD 14 0) + w.getD 15 0) :: w)

/-- W[0..63] of a 64-byte block (R231, R234). -/
def shaSchedule (block : List Byte) : List Word := (shaExtend 48 (beWords 16 block).reverse).reverse

/-- One round, with K[t] and W[t] (R234). -/
def shaRound (v : HashWords) (kw : Word × Word) : HashWords :=
  let t1 := v.h + shaBig1 v.e + shaCh v.e v.f v.g + kw.1 + kw.2
  let t2 := shaBig0 v.a + shaMaj v.a v.b v.c
  ⟨t1 + t2, v.a, v.b, v.c, v.d + t1, v.e, v.f, v.g⟩

/-- The compression of one block into the hash value (R234). -/
def shaCompress (hv : HashWords) (block : List Byte) : HashWords :=
  let v := (shaK.zip (shaSchedule block)).foldl shaRound hv
  ⟨hv.a + v.a, hv.b + v.b, hv.c + v.c, hv.d + v.d, hv.e + v.e, hv.f + v.f, hv.g + v.g, hv.h + v.h⟩

/-- The compression of `n` 64-byte blocks, in order (R234). -/
def shaBlocks : Nat → HashWords → List Byte → HashWords
  | 0, hv, _ => hv
  | n + 1, hv, m => shaBlocks n (shaCompress hv (m.take 64)) (m.drop 64)

/-- The 32-byte digest of a hash value (R234). -/
def shaDigest (hv : HashWords) : ByteReg 32 :=
  regOfBytes 32 (encBE32 hv.a ++ encBE32 hv.b ++ encBE32 hv.c ++ encBE32 hv.d ++
    encBE32 hv.e ++ encBE32 hv.f ++ encBE32 hv.g ++ encBE32 hv.h)

/-- `SHA256(m)` (R230, R234). -/
def sha256 (m : List Byte) : ByteReg 32 :=
  shaDigest (shaBlocks ((shaPad m).length / 64) shaInit (shaPad m))

end Sys2Proof.Machine
end

