-- ==== Sys2Proof/Machine/Password.lean ====
section
/-! DEFINITION. The password hash and the key stretch (`42_kdf.md` R235 to R239, R243, R246). -/

namespace Sys2Proof.Machine

/-! ## UTF-8 to UTF-16LE (R237) -/

/-- A continuation byte is in 0x80-0xBF. -/
def utf8Cont (b : Byte) : Bool := decide (0x80 ≤ b.toNat ∧ b.toNat ≤ 0xBF)

/-- The scalar value of a three-byte sequence is well formed: neither overlong nor a surrogate. -/
def utf8Ok3 (cp : Nat) : Bool := decide (0x800 ≤ cp ∧ ¬ (0xD800 ≤ cp ∧ cp ≤ 0xDFFF))

/-- The scalar value of a four-byte sequence is well formed: neither overlong nor above U+10FFFF. -/
def utf8Ok4 (cp : Nat) : Bool := decide (0x10000 ≤ cp ∧ cp ≤ 0x10FFFF)

/-- The payload of a lead or continuation byte: its low `k` bits. -/
def utf8Bits (b : Byte) (k : Nat) : Nat := b.toNat % 2 ^ k

/-- The UTF-16LE code units of a scalar value (R237). -/
def utf16 (cp : Nat) : List Byte :=
  if cp < 0x10000 then encLE16 cp
  else encLE16 (0xD800 + (cp - 0x10000) / 1024) ++ encLE16 (0xDC00 + (cp - 0x10000) % 1024)

/-- `U8to16(b)`: the UTF-16LE form of well-formed UTF-8; `none` is the failure BAD_UTF8 (R237). -/
def u8to16 : List Byte → Option (List Byte)
  | [] => some []
  | b0 :: r0 =>
    if b0.toNat ≤ 0x7F then (u8to16 r0).map (utf16 b0.toNat ++ ·)
    else match r0 with
    | [] => none
    | b1 :: r1 =>
      if utf8Cont b1 = false then none
      else if 0xC2 ≤ b0.toNat ∧ b0.toNat ≤ 0xDF then
        (u8to16 r1).map (utf16 (utf8Bits b0 5 * 64 + utf8Bits b1 6) ++ ·)
      else match r1 with
      | [] => none
      | b2 :: r2 =>
        if utf8Cont b2 = false then none
        else if 0xE0 ≤ b0.toNat ∧ b0.toNat ≤ 0xEF then
          let cp := utf8Bits b0 4 * 4096 + utf8Bits b1 6 * 64 + utf8Bits b2 6
          if utf8Ok3 cp then (u8to16 r2).map (utf16 cp ++ ·) else none
        else match r2 with
        | [] => none
        | b3 :: r3 =>
          if utf8Cont b3 = false then none
          else if 0xF0 ≤ b0.toNat ∧ b0.toNat ≤ 0xF4 then
            let cp := utf8Bits b0 3 * 262144 + utf8Bits b1 6 * 4096 + utf8Bits b2 6 * 64 + utf8Bits b3 6
            if utf8Ok4 cp then (u8to16 r3).map (utf16 cp ++ ·) else none
          else none

/-- `PwHash(u)`: SHA-256 applied twice (R236). -/
def pwHash (u : List Byte) : ByteReg 32 := sha256 (sha256 u).toList

/-! ## Key stretching -/

/-- The message hashed in a round (R239, R246). -/
def kdfMessage (layout : KdfLayout) (r : KdfRecord) : List Byte :=
  match layout with
  | .bde88 => r.last.toList ++ r.pwh.toList ++ r.salt.toList ++ encLE64 r.counter
  | .doc56 => r.last.toList ++ r.salt.toList ++ encLE64 r.counter

/-- The running record before round 0 (R239). -/
def kdfStart (layout : KdfLayout) (pwh : ByteReg 32) (salt : ByteReg 16) : KdfRecord where
  last := match layout with
    | .bde88 => zeroReg 32
    | .doc56 => pwh
  pwh := pwh
  salt := salt
  counter := 0

/-- One round: the running hash becomes the hash of the round's message, and the counter rises by 1 (R239, R243). -/
def kdfRound (layout : KdfLayout) (r : KdfRecord) : KdfRecord :=
  { r with last := sha256 (kdfMessage layout r), counter := r.counter + 1 }

/-- `StretchKey(pwh, salt)` (R243). -/
def stretchKey (cfg : Params) (pwh : ByteReg 32) (salt : ByteReg 16) : ByteReg 32 :=
  (Nat.repeat (kdfRound cfg.kdfLayout) cfg.kdfIterations (kdfStart cfg.kdfLayout pwh salt)).last

end Sys2Proof.Machine
end

