-- ==== Sys2Proof/Machine/HashCommands.lean ====
section
/-! DEFINITION. HASH8, HASH16 and CALCKEY (`42_kdf.md` R240, R242, R245). They need no context. -/

namespace Sys2Proof.Machine

/-- HASH8 (R240). -/
def execHash8 (s : State) : Host.Outcome State Fault Refusal :=
  match lengthCheck s.cfg.bufBytes s.operands.length.toNat true 1 none with
  | some e => reject s .hash8 e
  | none =>
    withInput s s.operands.length.toNat fun b =>
      match u8to16 b with
      | none => reject s .hash8 errBadUtf8
      | some u => .next (State.succeed { s with pwhash := pwHash u })

/-- HASH16 (R242). The code units are hashed as given. -/
def execHash16 (s : State) : Host.Outcome State Fault Refusal :=
  match lengthCheck s.cfg.bufBytes s.operands.length.toNat true 2 none with
  | some e => reject s .hash16 e
  | none => withInput s s.operands.length.toNat fun u => .next (State.succeed { s with pwhash := pwHash u })

/-- CALCKEY (R245). It cannot fail. Its running record is zero again at the end (DESIGN CHOICE, log entry 11, safe). -/
def execCalckey (s : State) : Host.Outcome State Fault Refusal :=
  .next (State.succeed
    { s with dkey := stretchKey s.cfg s.operands.pwhash s.operands.salt, hidden := s.hidden.clearKdf })

end Sys2Proof.Machine
end

