-- ==== Sys2Proof/Machine/SectorCommands.lean ====
section
/-! DEFINITION. CRYPT (`44_sector_crypt.md`). -/

namespace Sys2Proof.Machine

/-- `XorMask(z)`: byte i is XORed with MASK[i mod 32] (R307). -/
def xorMask (mask : ByteReg 32) (z : List Byte) : List Byte :=
  z.zipIdx.map fun p => p.1 ^^^ mask.toList.getD (p.2 % 32) 0#8

/-- Step 2: the block key, the IV and the mask, from zeroed buffers (R303 to R306). The second half of the mask is the
encryption of the block key with its last byte 0x80. -/
def sectorHidden (c : Context) (idx : BitVec 64) : Except CmdError Hidden := do
  let bk := blockKey idx
  let ivw ← ecb c .fvekEnc bk
  let mask0 ← ecb c .tweakEnc bk
  let bk' := bk.set 15 0x80#8
  let mask1 ← ecb c .tweakEnc bk'
  .ok { Hidden.zero with bk := bk', ivw := ivw, mask := regOfBytes 32 (mask0.toList ++ mask1.toList) }

/-- Step 3 (R308). -/
def encPipeline (c : Context) (h : Hidden) (x : List Byte) : Except CmdError (List Byte) :=
  cbcEnc c .fvekEnc h.ivw (diffBEnc (diffAEnc (xorMask h.mask x)))

/-- Step 4 (R309). -/
def decPipeline (c : Context) (h : Hidden) (x : List Byte) : Except CmdError (List Byte) :=
  match cbcDec c .fvekDec h.ivw x with
  | .error e => .error e
  | .ok z => .ok (xorMask h.mask (diffADec (diffBDec z)))

/-- The IV of step 5 (R310, P_NONDIFF_IV). -/
def nonDiffuserIv (policy : NonDiffIv) (c : Context) (idx : BitVec 64) : Except CmdError Block :=
  match policy with
  | .zero => .ok (zeroReg 16)
  | .derived => ecb c .fvekEnc (blockKey idx)

/-- Step 5 (R310). -/
def nonDiffuser (policy : NonDiffIv) (c : Context) (d : Direction) (idx : BitVec 64) (x : List Byte) :
    Except CmdError (List Byte) :=
  match nonDiffuserIv policy c idx with
  | .error e => .error e
  | .ok iv =>
    match d with
    | .encrypt => cbcEnc c .fvekEnc iv x
    | .decrypt => cbcDec c .fvekDec iv x

/-- `SectorCrypt(cls, mode, idx, x)` (R302). -/
def sectorCrypt (policy : NonDiffIv) (cls : MethodClass) (c : Context) (d : Direction) (idx : BitVec 64)
    (x : List Byte) : Except CmdError (List Byte) :=
  if cls.usesDiffuser then
    match sectorHidden c idx with
    | .error e => .error e
    | .ok h =>
      match d with
      | .encrypt => encPipeline c h x
      | .decrypt => decPipeline c h x
  else nonDiffuser policy c d idx x

/-- CRYPT (R300). BK, IVW and MASK are zeroed at its start, and they are zero at its end whether it succeeds or fails
(R303): between the two their values are those `sectorHidden` computes, and no state shows them (R16, R64). -/
def execCrypt (mode : Mode) (s : State) : Host.Outcome State Fault Refusal :=
  let o := s.operands
  match cryptChecks s.cfg.bufBytes mode o with
  | .error e => reject s.clearSector (.crypt mode) e
  | .ok (d, cls) =>
    transformBuffer s.clearSector (.crypt mode) o.length.toNat
      (sectorCrypt s.cfg.nonDiffIv cls o.ctx d (blockIndex o))

end Sys2Proof.Machine
end

