-- ==== Sys2Proof/Machine/Dispatch.lean ====
section
/-! DEFINITION. `exec`: the meaning of each command, as the engine applies it at completion (R121). -/

namespace Sys2Proof.Machine

def exec (i : Instr) (s : State) : Host.Outcome State Fault Refusal :=
  match i with
  | .init method => Sys2Proof.Machine.execInit method s
  | .free => Sys2Proof.Machine.execFree s
  | .setkeys => Sys2Proof.Machine.execSetkeys s
  | .crypt mode => Sys2Proof.Machine.execCrypt mode s
  | .ecb mode ksel => Sys2Proof.Machine.execEcb mode ksel s
  | .cbc mode ksel => Sys2Proof.Machine.execCbc mode ksel s
  | .diffa mode => Sys2Proof.Machine.execDiffa mode s
  | .diffb mode => Sys2Proof.Machine.execDiffb mode s
  | .hash8 => Sys2Proof.Machine.execHash8 s
  | .hash16 => Sys2Proof.Machine.execHash16 s
  | .calckey => Sys2Proof.Machine.execCalckey s

end Sys2Proof.Machine
end

