-- ==== Sys2Proof/Machine/Engine.lean ====
section
/-! DEFINITION. The engine's completion step (`30_encoding.md` R121). -/

namespace Sys2Proof.Machine

/-- Completion with ILLEGAL_COMMAND of a word that does not decode (R123, R345). A word of CRYPT's opcode with a non-zero
unused field is a CRYPT that fails, so it zeroes CRYPT's hidden buffers (R303). -/
def rejectWord (s : State) (cw : Word) (e : DecodeError) : Host.Outcome State Fault Refusal :=
  .next ((if cwOpc cw = 0x04#8 then s.clearSector else s).failWith (cwOpc cw) (decodeReport e))

/-- Completion of an accepted command word: the command's rule, or ILLEGAL_COMMAND for a word that does not decode
(R121, R123, R345). -/
def runCommand (cw : Word) (s : State) : Host.Outcome State Fault Refusal :=
  match decode cw with
  | .ok i => exec i s
  | .error e => rejectWord s cw e

/-- One cycle of the command's latency passes. -/
def State.tick (s : State) (cw : Word) (snap : Snapshot) (left : Nat) : State := { s with engine := .busy cw snap left }

/-- The command word of `spec/opcode_table.json` numbering: `nbits` bits of `w`, every higher bit 0. -/
def tableWord (nbits w : Nat) : Word := BitVec.ofNat 32 (w % 2 ^ nbits)

end Sys2Proof.Machine
end

