-- ==== Sys2Proof/Machine/Step.lean ====
section
/-! DEFINITION. One step of the machine: the engine completes its command, or the host takes its turn. -/

namespace Sys2Proof.Machine

/-- One step. Host accesses and engine steps are totally ordered (`20_memory.md` R97, R105). A Busy engine completes
when its latency has run out; until then the host takes one turn per cycle, so completion comes after finitely many
host accesses (R395). An Idle engine leaves the turn to the host
(DESIGN CHOICE, log entry 2, safe). -/
def step (s : State) : Host.Outcome State Fault Refusal :=
  match s.engine with
  | .busy cw _ 0 => runCommand cw s
  | .busy cw snap (left + 1) => hostTurn (s.tick cw snap left)
  | .idle => hostTurn s

/-- `s` with a command word accepted and its latency run out, so that the very next step completes it. BDE-CORE fetches
nothing (R31): a command word comes from the host's CMD write, and this is the state that write leads to. -/
def State.withFetchWord (s : State) (nbits w : Nat) : State := s.acceptWithin (tableWord nbits w) 0

end Sys2Proof.Machine
end

