-- ==== Sys2Proof/Safety.lean ====
section
/-! DEFINITION. The terms claims are stated in: what a command leaves unchanged, what its completion looks like, and the
invariant of the machine. -/

namespace Sys2Proof.Machine

/-! ## Frames -/

/-- The registers no command writes (`10_state.md` R51), OVR, the parameters, the host and the count of draws. -/
def sameHostRegisters (s t : State) : Prop :=
  t.cfg = s.cfg ∧ t.ieDone = s.ieDone ∧ t.ieErr = s.ieErr ∧ t.ieOvr = s.ieOvr ∧ t.ovr = s.ovr ∧
  t.sectorSize = s.sectorSize ∧ t.length = s.length ∧ t.blkidxLo = s.blkidxLo ∧ t.blkidxHi = s.blkidxHi ∧
  t.iv = s.iv ∧ t.salt = s.salt ∧ t.host = s.host ∧ t.draws = s.draws

/-- The staging groups are unchanged. -/
def sameStaging (s t : State) : Prop := t.fvekStage = s.fvekStage ∧ t.tweakStage = s.tweakStage

/-- Every byte of IBUF and OBUF, known or Unknown, is unchanged. -/
def sameBytes (s t : State) : Prop := ∀ a, t.mem.read a = s.mem.read a

/-- Every byte outside OBUF[0:n] is unchanged. -/
def sameBytesOutsideObuf (n : Nat) (s t : State) : Prop :=
  ∀ a, a < obufBase ∨ obufBase + n ≤ a → t.mem.read a = s.mem.read a

/-- OBUF begins with the string `y`. -/
def obufHolds (t : State) (y : List Byte) : Prop := ∀ k, k < y.length → t.mem.read (obufBase + k) = y[k]?

/-- Every byte of OBUF[0:n] is Unknown. -/
def obufUnknown (n : Nat) (t : State) : Prop := ∀ k, k < n → t.mem.read (obufBase + k) = none

/-- The context, the staging groups, PWHASH and DKEY are unchanged: what a failing command leaves (R345). -/
def sameSecrets (s t : State) : Prop :=
  t.ctx = s.ctx ∧ sameStaging s t ∧ t.pwhash = s.pwhash ∧ t.dkey = s.dkey

/-! ## Completion -/

/-- Completion without error: Idle, DONE set, ERR and ERROR as acceptance left them (R121, R345). -/
def finished (s t : State) : Prop := t.engine = .idle ∧ t.done = true ∧ t.err = s.err ∧ t.error = s.error

/-- Completion with the error report of value `w`: Idle, DONE and ERR set (R345). -/
def reported (w : Word) (t : State) : Prop := t.engine = .idle ∧ t.done = true ∧ t.err = true ∧ t.error = w

/-- What a command leaves of the hidden buffers when it completes, whether it succeeds or fails: CRYPT zeroes BK, IVW and
MASK (R303, R345), CALCKEY its running record (log entry 11), and every other command keeps them. -/
def hiddenAfter (i : Instr) (h : Hidden) : Hidden :=
  match i with
  | .init _ => h
  | .free => h
  | .setkeys => h
  | .crypt _ => h.clearSector
  | .ecb _ _ => h
  | .cbc _ _ => h
  | .diffa _ => h
  | .diffb _ => h
  | .hash8 => h
  | .hash16 => h
  | .calckey => h.clearKdf

/-- Nothing changes but the report `w`, no register, no context, no key, not a byte of a buffer, and the hidden buffers,
which become `h` (R345). -/
def leavesOnlyReport (w : Word) (h : Hidden) (s t : State) : Prop :=
  reported w t ∧ sameHostRegisters s t ∧ sameSecrets s t ∧ t.hidden = h ∧ sameBytes s t

/-- The command completes with the report `w` and changes nothing else, but for CRYPT's hidden buffers. -/
def onlyReports (i : Instr) (s : State) (w : Word) : Prop :=
  ∃ t, exec i s = .next t ∧ leavesOnlyReport w (hiddenAfter i s.hidden) s t

/-- The command succeeds and writes the string `y` to OBUF from offset 0; nothing else changes, but for the hidden
buffers, which become `h`. -/
def onlyWritesObuf (i : Instr) (s : State) (y : List Byte) (h : Hidden) : Prop :=
  ∃ t, exec i s = .next t ∧ finished s t ∧ sameHostRegisters s t ∧ sameSecrets s t ∧ t.hidden = h ∧
    obufHolds t y ∧ sameBytesOutsideObuf y.length s t

/-- The command ends with the report `w` and leaves OBUF[0:n] Unknown; nothing else changes, but for the hidden
buffers, which become `h` (R345, R346). -/
def onlyReportsAndForgets (i : Instr) (s : State) (w : Word) (n : Nat) (h : Hidden) : Prop :=
  ∃ t, exec i s = .next t ∧ reported w t ∧ sameHostRegisters s t ∧ sameSecrets s t ∧ t.hidden = h ∧
    obufUnknown n t ∧ sameBytesOutsideObuf n s t

/-! ## Input -/

/-- IBUF begins with the string `x`. -/
def ibufHolds (o : Snapshot) (x : List Byte) : Prop := ∀ k, k < x.length → o.mem.read (ibufBase + k) = x[k]?

/-- Block `j` of a string: bytes 16j to 16j+15. -/
def blockAt (x : List Byte) (j : Nat) : Block := regOfBytes 16 ((x.drop (16 * j)).take 16)

/-- Where a command that can meet an Unset sub-context puts its output: OBUF[0:n] (R346). -/
def outputBytes (o : Snapshot) : Instr → Nat
  | .init _ => 0
  | .free => 0
  | .setkeys => 0
  | .crypt _ => o.length.toNat
  | .ecb _ _ => 16
  | .cbc _ _ => o.length.toNat
  | .diffa _ => o.length.toNat
  | .diffb _ => o.length.toNat
  | .hash8 => 0
  | .hash16 => 0
  | .calckey => 0

/-- How many bytes of IBUF a command reads, from offset 0 (R100). -/
def inputBytes (o : Snapshot) : Instr → Nat
  | .init _ => 0
  | .free => 0
  | .setkeys => 0
  | .crypt _ => o.length.toNat
  | .ecb _ _ => 16
  | .cbc _ _ => o.length.toNat
  | .diffa _ => o.length.toNat
  | .diffb _ => o.length.toNat
  | .hash8 => o.length.toNat
  | .hash16 => o.length.toNat
  | .calckey => 0

/-! ## What a cipher output is, said of its blocks and bytes -/

/-- `c` is the CBC encryption of `p` under the block transform `e`: c_j = E(p_j ^ c_(j-1)), with the IV as c_(-1)
(`40_aes.md` R167). -/
def isCbcEncryption (e : Block → Block) (iv : Block) (p c : List Byte) : Prop :=
  c.length = p.length ∧
  ∀ j, j < p.length / 16 → blockAt c j = e (xorReg (blockAt p j) (if j = 0 then iv else blockAt c (j - 1)))

/-- `p` is the CBC decryption of `c` under the block transform `d`: p_j = D(c_j) ^ c_(j-1) (R168). -/
def isCbcDecryption (d : Block → Block) (iv : Block) (c p : List Byte) : Prop :=
  p.length = c.length ∧
  ∀ j, j < c.length / 16 → blockAt p j = xorReg (d (blockAt c j)) (if j = 0 then iv else blockAt c (j - 1))

/-- `z` is `x` with byte i XORed with byte i mod 32 of the mask `lo || hi` (`44_sector_crypt.md` R307). -/
def isMasked (lo hi : Block) (x z : List Byte) : Prop :=
  z.length = x.length ∧
  ∀ i, i < x.length → z.getD i 0#8 = x.getD i 0#8 ^^^ (lo.toList ++ hi.toList).getD (i % 32) 0#8

/-- `b` is the block key of `idx` with last byte `last`: b[k] = (idx >> 8k) & 0xFF for k < 8, zeros up to byte 14
(R304, R306). -/
def isBlockKey (idx : BitVec 64) (last : Byte) (b : Block) : Prop :=
  (∀ (k : Nat) (h : k < 8), b[k] = (idx >>> (8 * k)).setWidth 8) ∧
  (∀ (k : Nat) (h : k < 15), 8 ≤ k → b[k] = 0#8) ∧ b[15] = last

/-- The message hashed in round `c` of CALCKEY (`42_kdf.md` R239). -/
def roundMessage (layout : KdfLayout) (last pwh : ByteReg 32) (salt : ByteReg 16) (c : Nat) : List Byte :=
  match layout with
  | .bde88 => last.toList ++ pwh.toList ++ salt.toList ++ encLE64 (BitVec.ofNat 64 c)
  | .doc56 => last.toList ++ salt.toList ++ encLE64 (BitVec.ofNat 64 c)

/-- `d` is the word view of the string `x`: byte k of `x` is byte k mod 4 of word k / 4, least significant first
(`41_diffuser.md` R201). -/
def isWordsOf (x : List Byte) (d : List Word) : Prop :=
  x.length = 4 * d.length ∧ ∀ k, k < x.length → x.getD k 0#8 = ((d.getD (k / 4) 0) >>> (8 * (k % 4))).setWidth 8

/-- `w` is the message schedule of the 64-byte block that begins at byte `o` of `m`: W[0..15] big-endian, then the
recurrence (`42_kdf.md` R231, R232, R234). -/
def isShaSchedule (m : List Byte) (o : Nat) (w : Nat → Word) : Prop :=
  (∀ t k, t < 16 → k < 4 → ((w t) >>> (24 - 8 * k)).setWidth 8 = m.getD (o + 4 * t + k) 0#8) ∧
  ∀ t, 16 ≤ t → t < 64 → w t =
    ((w (t - 2)).rotateRight 17 ^^^ (w (t - 2)).rotateRight 19 ^^^ (w (t - 2) >>> 10)) + w (t - 7) +
    ((w (t - 15)).rotateRight 7 ^^^ (w (t - 15)).rotateRight 18 ^^^ (w (t - 15) >>> 3)) + w (t - 16)

/-- `v` is the run of the 64 rounds over the schedule `w`: `v t` holds a to h, numbered 0 to 7, before round t (R232,
R234). -/
def isShaRounds (w : Nat → Word) (v : Nat → Nat → Word) : Prop :=
  ∀ t, t < 64 →
    let t1 := v t 7 + ((v t 4).rotateRight 6 ^^^ (v t 4).rotateRight 11 ^^^ (v t 4).rotateRight 25) +
      ((v t 4 &&& v t 5) ^^^ (~~~(v t 4) &&& v t 6)) + shaK.getD t 0 + w t
    let t2 := ((v t 0).rotateRight 2 ^^^ (v t 0).rotateRight 13 ^^^ (v t 0).rotateRight 22) +
      ((v t 0 &&& v t 1) ^^^ (v t 0 &&& v t 2) ^^^ (v t 1 &&& v t 2))
    v (t + 1) 0 = t1 + t2 ∧ v (t + 1) 4 = v t 3 + t1 ∧ ∀ i, i < 7 → i ≠ 3 → v (t + 1) (i + 1) = v t i

/-- `c` is the first 32 bits of the fractional part of the `e`-th root of `p`: the root is the integer part `q` and the
fraction c / 2^32, rounded down (`42_kdf.md` R233). -/
def isRootFraction (e p : Nat) (c : Word) : Prop :=
  ∃ q, (q * 2 ^ 32 + c.toNat) ^ e ≤ p * 2 ^ (32 * e) ∧ p * 2 ^ (32 * e) < (q * 2 ^ 32 + c.toNat + 1) ^ e

/-- Twice a byte in GF(2^8) (`40_aes.md` R153). -/
def twice (b : Byte) : Byte := if b.toNat < 128 then BitVec.ofNat 8 (2 * b.toNat) else BitVec.ofNat 8 (2 * b.toNat) ^^^ 0x1B

/-- The round constant Rcon[j] (`40_aes.md` R156). -/
def rconOf (j : Nat) : Byte := ([0x01, 0x02, 0x04, 0x08, 0x10, 0x20, 0x40, 0x80, 0x1b, 0x36] : List Byte).getD (j - 1) 0

/-- `w` is the key schedule of `key`: w[i][j] is `w i j`. The key's own words, then each the XOR of w[i-Nk] and of w[i-1],
which is rotated, substituted and given a round constant where i is a multiple of Nk, and substituted where Nk = 8 and
i mod 8 = 4 (R156). -/
def isKeySchedule (key : AesKey) (w : Nat → Nat → Byte) : Prop :=
  (∀ i j, i < key.nk → j < 4 → w i j = key.bytes.getD (4 * i + j) 0#8) ∧
  ∀ i j, key.nk ≤ i → i < 4 * (key.nr + 1) → j < 4 →
    w i j = w (i - key.nk) j ^^^
      (if i % key.nk = 0 then sbox (w (i - 1) ((j + 1) % 4)) ^^^ (if j = 0 then rconOf (i / key.nk) else 0)
      else if key.nk = 8 ∧ i % 8 = 4 then sbox (w (i - 1) j)
      else w (i - 1) j)

/-- `st` is the run of the rounds of Cipher over the schedule `w`: `st n r c` is s[r][c] after round n. Round 0 adds round key
0; each further round substitutes, shifts row r by r, mixes the columns but in round Nr, and adds its round key
(`40_aes.md` R152, R157, R158). -/
def isCipherRun (nr : Nat) (w : Nat → Nat → Byte) (x : Block) (st : Nat → Nat → Nat → Byte) : Prop :=
  (∀ r c, r < 4 → c < 4 → st 0 r c = x.toList.getD (r + 4 * c) 0#8 ^^^ w c r) ∧
  ∀ n r c, n < nr → r < 4 → c < 4 →
    let b (k : Nat) : Byte := sbox (st n ((r + k) % 4) ((c + (r + k) % 4) % 4))
    st (n + 1) r c = (if n + 1 = nr then b 0 else twice (b 0) ^^^ (twice (b 1) ^^^ b 1) ^^^ b 2 ^^^ b 3) ^^^
      w (4 * (n + 1) + c) r

/-! ## UTF-8 (`42_kdf.md` R237) -/

/-- A Unicode scalar value: at most U+10FFFF and no surrogate. -/
def isScalar (cp : Nat) : Prop := cp ≤ 0x10FFFF ∧ ¬ (0xD800 ≤ cp ∧ cp ≤ 0xDFFF)

/-- The well-formed UTF-8 sequence of a scalar value. -/
def utf8Encode (cp : Nat) : List Byte :=
  if cp < 0x80 then [BitVec.ofNat 8 cp]
  else if cp < 0x800 then [BitVec.ofNat 8 (0xC0 + cp / 64), BitVec.ofNat 8 (0x80 + cp % 64)]
  else if cp < 0x10000 then
    [BitVec.ofNat 8 (0xE0 + cp / 4096), BitVec.ofNat 8 (0x80 + cp / 64 % 64), BitVec.ofNat 8 (0x80 + cp % 64)]
  else
    [BitVec.ofNat 8 (0xF0 + cp / 262144), BitVec.ofNat 8 (0x80 + cp / 4096 % 64), BitVec.ofNat 8 (0x80 + cp / 64 % 64),
      BitVec.ofNat 8 (0x80 + cp % 64)]

/-- The UTF-16LE bytes of a scalar value: one code unit, or a surrogate pair (R237). -/
def utf16Encode (cp : Nat) : List Byte :=
  if cp < 0x10000 then [BitVec.ofNat 8 cp, BitVec.ofNat 8 (cp / 256)]
  else
    let hi := 0xD800 + (cp - 0x10000) / 1024
    let lo := 0xDC00 + (cp - 0x10000) % 1024
    [BitVec.ofNat 8 hi, BitVec.ofNat 8 (hi / 256), BitVec.ofNat 8 lo, BitVec.ofNat 8 (lo / 256)]

/-! ## States that differ in secrets only -/

/-- The contexts show the host the same: validity, method, and which sub-contexts are Keyed (`10_state.md` R62). -/
def Context.looksLike (c d : Context) : Prop :=
  c.valid = d.valid ∧ c.method = d.method ∧ c.fvekEnc.isKeyed = d.fvekEnc.isKeyed ∧
  c.fvekDec.isKeyed = d.fvekDec.isKeyed ∧ c.tweakEnc.isKeyed = d.tweakEnc.isKeyed ∧
  c.tweakDec.isKeyed = d.tweakDec.isKeyed

/-- `t` is `s` with other key bytes: in the staging groups, in the sub-contexts, in hidden state, and in the word and
snapshot of the command in progress. -/
def sameButKeys (s t : State) : Prop :=
  ∃ f w c h e, t = { s with fvekStage := f, tweakStage := w, ctx := c, hidden := h, engine := e } ∧
    s.ctx.looksLike c ∧ (e = .idle ↔ s.engine = .idle)

/-! ## Reset -/

/-- Every register has its reset value, there is no context, nothing is Keyed, and the engine is Idle: the columns of
`10_state.md` R68 but for IBUF and OBUF. -/
def registersReset (r : State) : Prop :=
  (r.ieDone = false ∧ r.ieErr = false ∧ r.ieOvr = false ∧ r.done = false ∧ r.err = false ∧ r.ovr = false) ∧
  (r.error = 0 ∧ r.sectorSize = 0x0200 ∧ r.length = 0 ∧ r.blkidxLo = 0 ∧ r.blkidxHi = 0) ∧
  (r.fvekStage = zeroReg 32 ∧ r.tweakStage = zeroReg 32 ∧ r.iv = zeroReg 16 ∧ r.salt = zeroReg 16 ∧
    r.pwhash = zeroReg 32 ∧ r.dkey = zeroReg 32) ∧
  (r.ctx.valid = false ∧ r.ctx.method = 0 ∧ r.methodWord = 0 ∧ ∀ S, r.ctx.sub S = .unset) ∧
  (r.engine = .idle ∧ r.irq = false ∧ r.statusWord = 0 ∧ r.ctrlWord = 0 ∧ r.hidden = Hidden.zero)

/-! ## The host's next write -/

/-- The address and value the host's next operation writes, if it writes. -/
def nextWrite (s : State) : Option (Nat × Word) :=
  match s.host.prog[s.host.pc]? with
  | some (.write _ a v) => some (a, v)
  | some (.writeLast a) => s.host.reads.head?.map fun v => (a, v)
  | some (.read _ _) => none
  | some (.bnz _ _ _) => none
  | some .powerOnReset => none
  | none => none

/-- The host's next operation writes a value with bit `k` set at window offset `off`. -/
def writesBit (s : State) (off k : Nat) : Prop := ∃ v, nextWrite s = some (s.cfg.base + off, v) ∧ v.getLsbD k = true

/-- The host's next operation is a reset: the platform's, or CTRL.SRST. -/
def resetsNext (s : State) : Prop := s.host.prog[s.host.pc]? = some .powerOnReset ∨ writesBit s 0x0008 31

/-- The step that comes next completes the command `i`. -/
def completesNext (s : State) (i : Instr) : Prop := ∃ cw snap, s.engine = .busy cw snap 0 ∧ decode cw = .ok i

/-! ## The invariant -/

/-- The keys fit the method (R274, R281): no Tweak without an FVEK; an FVEK only under a supported method, of its key
size; and a Tweak exactly when the method uses it. -/
def Context.keysFit (c : Context) : Bool :=
  match c.fvekEnc with
  | .unset => decide (c.tweakEnc = .unset)
  | .keyed k =>
    match classify c.method with
    | none => false
    | some cls =>
      decide (k.bits = cls.keyBitSize) &&
        match c.tweakEnc with
        | .unset => !cls.usesTweak
        | .keyed t => cls.usesTweak && decide (t.bits = cls.keyBitSize)

/-- The context is in one of the lifecycle states of R274: each pair is Keyed alike or Unset together (R61), and
without a context everything is Unset and the method is 0 (R37, R56). -/
abbrev Context.wf (c : Context) : Prop :=
  c.fvekEnc = c.fvekDec ∧ c.tweakEnc = c.tweakDec ∧ (c.valid = false → c = Context.absent) ∧ c.keysFit = true

/-- The offset is one of the P_BUF_BYTES bytes of IBUF or of OBUF (R92). -/
abbrev backed (cfg : Params) (a : Nat) : Prop :=
  (ibufBase ≤ a ∧ a < ibufBase + cfg.bufBytes) ∨ (obufBase ≤ a ∧ a < obufBase + cfg.bufBytes)

/-- The triples of R343 that a command of each opcode can report. -/
def listedReports (opc : Byte) : List CmdError :=
  let bits : CmdError := ⟨.illegalCommand, .reservedBits, .decoder⟩
  let key : List CmdError := [errKeyNotSet .fvekEnc, errKeyNotSet .fvekDec, errKeyNotSet .tweakEnc, errKeyNotSet .tweakDec]
  match opc.toNat with
  | 0x01 => [bits, errContextAlreadyValid]
  | 0x02 => [bits, errNoContext]
  | 0x03 => [bits, errNoContext, errInvalidKeySize]
  | 0x04 => [bits, errUnsupportedMode, errNoContext, errUnsupportedMethod, errLength .lengthTooLarge,
      errLength .lengthZero, errLength .lengthNotMultiple, errLength .lengthNotSector, errKeyNotSet .fvekEnc,
      errKeyNotSet .fvekDec]
  | 0x05 => bits :: errUnsupportedMode :: errNoContext :: key
  | 0x06 => bits :: errUnsupportedMode :: errNoContext :: errLength .lengthTooLarge :: errLength .lengthNotMultiple :: key
  | 0x07 => [bits, errUnsupportedMode, errLength .lengthTooLarge, errLength .lengthZero, errLength .lengthNotMultiple]
  | 0x08 => [bits, errUnsupportedMode, errLength .lengthTooLarge, errLength .lengthZero, errLength .lengthNotMultiple]
  | 0x09 => [bits, errLength .lengthTooLarge, errLength .lengthZero, errBadUtf8]
  | 0x0A => [bits, errLength .lengthTooLarge, errLength .lengthZero, errLength .lengthNotMultiple]
  | 0x0B => [bits]
  | _ => [⟨.illegalCommand, .reservedOpcode, .decoder⟩]

/-- ERROR is 0, or a report of R343 with the OPC of a command that can make it: "Any other triple is never written". -/
abbrev errorListed (w : Word) : Prop :=
  w = 0 ∨ ∃ e ∈ listedReports (w.extractLsb' 24 8), w = errorWord (w.extractLsb' 24 8) e

/-- What holds at reset and after every step: legal parameters (R10); the buffers in canonical form and only where
there is storage; a lifecycle state of R274; hidden buffers zero (R303); while BUSY, operands as they were at acceptance
(R107) and DONE, ERR and ERROR clear (R390); a listed ERROR (R343), and one that is not 0 while ERR is set (R345). -/
structure State.Inv (s : State) : Prop where
  cfg_legal : s.cfg.legal
  mem_wf : s.mem.wf
  mem_backed : ∀ c ∈ s.mem, backed s.cfg c.1
  ctx_wf : s.ctx.wf
  hidden_zero : s.hidden = Hidden.zero
  operands_current : s.operands = s.takeSnapshot
  busy_clear : s.isBusy = true → s.done = false ∧ s.err = false ∧ s.error = 0
  error_listed : errorListed s.error
  err_reported : s.err = true → s.error ≠ 0

end Sys2Proof.Machine
end

