-- ==== Sys2Proof/Certificates/Slice0/Obligations.lean ====
section
/-! DEFINITION. The statements for the provers. -/

open Sys2Proof Sys2Proof.Machine

/-! ## Command words -/

/-- R120, R127, R140: the encoder's word of a command decodes to that command, with every operand at every value. -/
def Obligations.DecodeEncodeRoundTrip : Prop := ∀ i : Instr, decode (encode i) = .ok i

/-- R127: a command has one word only; no bit of a word that decodes is dropped. -/
def Obligations.DecodedWordIsTheEncodersWord : Prop := ∀ (cw : Word) (i : Instr), decode cw = .ok i → encode i = cw

/-- R127: a word decodes exactly when it matches a row of the match and mask table, and then to that row's command;
at most one row matches. -/
def Obligations.DecoderAgreesWithMatchTable : Prop :=
  (∀ (cw : Word) (i : Instr), decode cw = .ok i → cw &&& rowMask i = rowMatch i) ∧
  (∀ (cw : Word) (i : Instr), cw &&& rowMask i = rowMatch i → ∃ j, decode cw = .ok j ∧ j.opc = i.opc) ∧
  (∀ (cw : Word) (i j : Instr), cw &&& rowMask i = rowMatch i → cw &&& rowMask j = rowMatch j → i.opc = j.opc)

/-- R123: an unlisted OPC fails with RESERVED_OPCODE, a listed one with a non-zero unused field with RESERVED_BITS, in
every state, whatever else the command would check; and nothing but the report changes (R130, R345), except that a word
of CRYPT's opcode zeroes CRYPT's hidden buffers (R303, R345). -/
def Obligations.UndecodableWordReportsIllegalCommand : Prop :=
  ∀ (s : State) (cw : Word) (snap : Snapshot), s.engine = .busy cw snap 0 →
    ((cw.setWidth 8 = 0#8 ∨ 0x0C#8 ≤ cw.setWidth 8) →
      ∃ t, step s = .next t ∧ leavesOnlyReport (cw.setWidth 8 ++ 0x080B08#24) s.hidden s t) ∧
    ((0x01#8 ≤ cw.setWidth 8 ∧ cw.setWidth 8 ≤ 0x0B#8 ∧ ∀ i : Instr, cw &&& rowMask i ≠ rowMatch i) →
      ∃ t, step s = .next t ∧ leavesOnlyReport (cw.setWidth 8 ++ 0x080C08#24)
        (if cw.setWidth 8 = 0x04#8 then s.hidden.clearSector else s.hidden) s t)

/-- R140: the words the assembler syntax gives for one command of every family. -/
def Obligations.SampleCommandWords : Prop :=
  decode 0x80000001 = .ok (.init 0x8000) ∧ decode 0x00000002 = .ok .free ∧ decode 0x00000003 = .ok .setkeys ∧
  decode 0x00000104 = .ok (.crypt .encrypt) ∧ decode 0x00000505 = .ok (.ecb .encrypt .tweak) ∧
  decode 0x00000006 = .ok (.cbc .decrypt .fvek) ∧ decode 0x00000107 = .ok (.diffa .encrypt) ∧
  decode 0x00000008 = .ok (.diffb .decrypt) ∧ decode 0x0000000B = .ok .calckey

/-! ## The step, acceptance and completion -/

/-- R121, R395: when the latency has run out, the step is the decoded command's meaning; until then, and while Idle,
it is the host's turn, and a host whose program has ended changes nothing. That the latency counts host turns is the
model's choice (log entry 2). -/
def Obligations.StepRunsTheDecodedCommand : Prop :=
  (∀ (s : State) (cw : Word) (snap : Snapshot) (i : Instr),
    s.engine = .busy cw snap 0 → decode cw = .ok i → step s = exec i s) ∧
  (∀ (s : State) (cw : Word) (snap : Snapshot) (n : Nat),
    s.engine = .busy cw snap (n + 1) → step s = hostTurn { s with engine := .busy cw snap n }) ∧
  (∀ s : State, s.engine = .idle → step s = hostTurn s) ∧
  (∀ s : State, s.host.prog[s.host.pc]? = none → hostTurn s = .next s)

/-- R395, R122, R382: while a command is BUSY, every step brings its completion one host access nearer and keeps its
word and its snapshot, unless the host resets the machine. The latency counts host accesses (log entry 2). -/
def Obligations.EachStepBringsCompletionNearer : Prop :=
  ∀ (s t : State) (cw : Word) (snap : Snapshot) (n : Nat),
    s.engine = .busy cw snap (n + 1) → step s = .next t →
      t.engine = .busy cw snap n ∨ (t.engine = .idle ∧ resetsNext s)

/-- R395: a host that waits sees every command complete: the latency runs out and the next step is the completion.
The latency counts host accesses (log entry 2). -/
def Obligations.WaitingHostSeesCompletion : Prop :=
  ∀ (s : State) (cw : Word) (snap : Snapshot) (n : Nat),
    s.engine = .busy cw snap n → s.host.prog[s.host.pc]? = none →
      core.run n s = .next { s with engine := .busy cw snap 0 } ∧
      core.run (n + 1) s = runCommand cw { s with engine := .busy cw snap 0 }

/-- R121: a CMD write while Idle accepts the word, whatever it is: DONE, ERR and ERROR clear, BUSY reads 1, the
snapshot is the state before the write, and nothing else changes. The latency is a free value (log entry 2). -/
def Obligations.CmdWriteWhileIdleAccepts : Prop :=
  ∀ (s : State) (cw : Word), s.engine = .idle →
    ∃ (n d : Nat), hostWrite s .w32 (s.cfg.base + 0x0028) cw =
      .ok { s with done := false, err := false, error := 0, engine := .busy cw s.takeSnapshot n, draws := d }

/-- R122: a CMD write while Busy drops the word and sets OVR and changes nothing else; OVR falls only at a host write
of 1 to STATUS bit 3 or at a reset. -/
def Obligations.CmdWriteWhileBusyIsDropped : Prop :=
  (∀ (s : State) (cw : Word), s.isBusy = true →
    hostWrite s .w32 (s.cfg.base + 0x0028) cw = .ok { s with ovr := true }) ∧
  (∀ s t : State, step s = .next t → s.ovr = true → t.ovr = false → writesBit s 0x000C 3 ∨ resetsNext s)

/-! ## Reset -/

/-- R380, R68: the state when the reset input is released, after `State.reset` and after a reset of a running machine. -/
def Obligations.ResetRegisterValues : Prop :=
  ∀ r : State, (r = State.reset ∨ ∃ s : State, r = s.powerOn) → registersReset r ∧ ∀ a, r.mem.read a = none

/-- R382, R346: a CTRL write with SRST = 1, Busy or Idle, gives every register its reset value, whatever the other bits; a
running command is abandoned. The bytes of OBUF it would have written become Unknown; no byte changes where it would have
failed a check, or would have changed nothing but its report; and no other byte changes. That a command that would have
met an Unset sub-context or an Unknown input byte counts as one that writes is log entry 10's reading. -/
def Obligations.SoftResetEffect : Prop :=
  ∀ (s : State) (v : Word), v.getLsbD 31 = true →
    ∃ t, hostWrite s .w32 (s.cfg.base + 0x0008) v = .ok t ∧
      registersReset t ∧ t.cfg = s.cfg ∧ t.host = s.host ∧
      (s.engine = .idle → sameBytes s t) ∧
      (∀ cw snap n, s.engine = .busy cw snap n →
        (∀ i, decode cw = .ok i →
          (s.err = false → (∃ w, onlyReports i s w) → sameBytes s t) ∧
          ((¬ ∃ w, onlyReports i s w) →
            obufUnknown (outputBytes snap i) t ∧ sameBytesOutsideObuf (outputBytes snap i) s t)) ∧
        (∀ e, decode cw = .error e → sameBytes s t))

/-! ## The register window -/

/-- R32, R33: the identification registers read as their constants and ignore writes, Busy or Idle. R390 lists their reads
while Busy and not their writes: that these are ignored while Busy too is log entry 8's reading. -/
def Obligations.IdentificationRegisters : Prop :=
  ∀ (s : State) (v : Word),
    hostRead s .w32 (s.cfg.base + 0x0000) = .ok (0x4C424445, s) ∧
    hostRead s .w32 (s.cfg.base + 0x0004) = .ok (0x00000007, s) ∧
    hostWrite s .w32 (s.cfg.base + 0x0000) v = .ok s ∧ hostWrite s .w32 (s.cfg.base + 0x0004) v = .ok s

/-- R36, R37, R47, R50, R92, R95: reserved offsets, among them those of the buffer windows at or above P_BUF_BYTES, read 0
and ignore writes; ERROR, METHOD and, while Idle, DKEY ignore writes. ERROR and METHOD read as the last report and the
context's method code; while Idle, a word of DKEY reads as its four bytes, least significant first. That ERROR and METHOD
ignore writes while Busy is log entry 8's reading. -/
def Obligations.ReservedAndReadOnlyOffsets : Prop :=
  ∀ (s : State) (v : Word) (off : Nat), s.cfg.bufBytes ≤ 4096 → off % 4 = 0 →
    ((0x2C ≤ off ∧ off < 0x40) ∨ (0xE0 ≤ off ∧ off < 0x1000) ∨ (0x1000 + s.cfg.bufBytes ≤ off ∧ off < 0x2000) ∨
        (0x2000 + s.cfg.bufBytes ≤ off ∧ off < 0x4000) →
      hostRead s .w32 (s.cfg.base + off) = .ok (0, s) ∧ hostWrite s .w32 (s.cfg.base + off) v = .ok s) ∧
    (off = 0x10 ∨ off = 0x14 ∨ (0xC0 ≤ off ∧ off < 0xE0 ∧ s.engine = .idle) →
      hostWrite s .w32 (s.cfg.base + off) v = .ok s) ∧
    (off = 0x10 → hostRead s .w32 (s.cfg.base + off) = .ok (s.error, s)) ∧
    (off = 0x14 → hostRead s .w32 (s.cfg.base + off) =
      .ok (if s.ctx.valid = true then s.ctx.method.setWidth 32 else 0, s)) ∧
    (0xC0 ≤ off ∧ off < 0xE0 ∧ s.engine = .idle →
      ∃ w, hostRead s .w32 (s.cfg.base + off) = .ok (w, s) ∧
        ∀ (k : Nat) (h : k < 32), k / 4 = (off - 0xC0) / 4 → (w >>> (8 * (k % 4))).setWidth 8 = s.dkey[k])

/-- R34, R38 to R40, R44 to R46, R95: what a host write of each writable register changes, and what a read then returns;
bits a register does not have are ignored and read 0. A word of IV, SALT or PWHASH is four bytes, least significant first.
The enables of CTRL take effect at once, Busy or Idle (R390); the other registers are written while Idle. -/
def Obligations.WritableRegistersReadBack : Prop :=
  ∀ (s : State) (v : Word),
    (v.getLsbD 31 = false → ∃ t, hostWrite s .w32 (s.cfg.base + 0x0008) v = .ok t ∧
      t = { s with ieDone := v.getLsbD 0, ieErr := v.getLsbD 1, ieOvr := v.getLsbD 2 } ∧
      hostRead t .w32 (s.cfg.base + 0x0008) = .ok (v &&& 0x7, t)) ∧
    (s.engine = .idle →
    (∃ t, hostWrite s .w32 (s.cfg.base + 0x0018) v = .ok t ∧ t = { s with sectorSize := v.setWidth 16 } ∧
      hostRead t .w32 (s.cfg.base + 0x0018) = .ok (v &&& 0xFFFF, t)) ∧
    (∃ t, hostWrite s .w32 (s.cfg.base + 0x001C) v = .ok t ∧ t = { s with length := v.setWidth 16 } ∧
      hostRead t .w32 (s.cfg.base + 0x001C) = .ok (v &&& 0xFFFF, t)) ∧
    (∃ t, hostWrite s .w32 (s.cfg.base + 0x0020) v = .ok t ∧ t = { s with blkidxLo := v } ∧
      hostRead t .w32 (s.cfg.base + 0x0020) = .ok (v, t)) ∧
    (∃ t, hostWrite s .w32 (s.cfg.base + 0x0024) v = .ok t ∧ t = { s with blkidxHi := v } ∧
      hostRead t .w32 (s.cfg.base + 0x0024) = .ok (v, t)) ∧
    (∀ j, j < 4 → ∃ r t, hostWrite s .w32 (s.cfg.base + (0x0080 + 4 * j)) v = .ok t ∧ t = { s with iv := r } ∧
      hostRead t .w32 (s.cfg.base + (0x0080 + 4 * j)) = .ok (v, t) ∧
      ∀ (k : Nat) (h : k < 16), r[k] = if k / 4 = j then (v >>> (8 * (k % 4))).setWidth 8 else s.iv[k]) ∧
    (∀ j, j < 4 → ∃ r t, hostWrite s .w32 (s.cfg.base + (0x0090 + 4 * j)) v = .ok t ∧ t = { s with salt := r } ∧
      hostRead t .w32 (s.cfg.base + (0x0090 + 4 * j)) = .ok (v, t) ∧
      ∀ (k : Nat) (h : k < 16), r[k] = if k / 4 = j then (v >>> (8 * (k % 4))).setWidth 8 else s.salt[k]) ∧
    (∀ j, j < 8 → ∃ r t, hostWrite s .w32 (s.cfg.base + (0x00A0 + 4 * j)) v = .ok t ∧ t = { s with pwhash := r } ∧
      hostRead t .w32 (s.cfg.base + (0x00A0 + 4 * j)) = .ok (v, t) ∧
      ∀ (k : Nat) (h : k < 32), r[k] = if k / 4 = j then (v >>> (8 * (k % 4))).setWidth 8 else s.pwhash[k]))

/-- R42, R43, R95: a write of a staging word sets its four bytes, least significant first, and nothing else; a read of
it returns 0. -/
def Obligations.StagingWritesAreLittleEndian : Prop :=
  ∀ (s : State) (v : Word) (j : Nat), s.engine = .idle → j < 8 →
    (∃ r, hostWrite s .w32 (s.cfg.base + (0x0040 + 4 * j)) v = .ok { s with fvekStage := r } ∧
      (∀ (k : Nat) (h : k < 32), r[k] = if k / 4 = j then (v >>> (8 * (k % 4))).setWidth 8 else s.fvekStage[k]) ∧
      hostRead s .w32 (s.cfg.base + (0x0040 + 4 * j)) = .ok (0, s)) ∧
    (∃ r, hostWrite s .w32 (s.cfg.base + (0x0060 + 4 * j)) v = .ok { s with tweakStage := r } ∧
      (∀ (k : Nat) (h : k < 32), r[k] = if k / 4 = j then (v >>> (8 * (k % 4))).setWidth 8 else s.tweakStage[k]) ∧
      hostRead s .w32 (s.cfg.base + (0x0060 + 4 * j)) = .ok (0, s))

/-- R52, R53, R54, R95: a word access of IBUF or OBUF moves four bytes, least significant first; a write makes exactly
these four known, and a read returns every known byte in its lane. What a read returns for an Unknown byte is free. -/
def Obligations.BuffersAreLittleEndian : Prop :=
  ∀ (s : State) (v : Word) (off : Nat), s.engine = .idle → s.cfg.bufBytes ≤ 4096 → off % 4 = 0 →
    (0x1000 ≤ off ∧ off + 4 ≤ 0x1000 + s.cfg.bufBytes) ∨ (0x2000 ≤ off ∧ off + 4 ≤ 0x2000 + s.cfg.bufBytes) →
      (∃ m, hostWrite s .w32 (s.cfg.base + off) v = .ok { s with mem := m } ∧
        (∀ k, k < 4 → m.read (off + k) = some ((v >>> (8 * k)).setWidth 8)) ∧
        (∀ a, a < off ∨ off + 4 ≤ a → m.read a = s.mem.read a)) ∧
      (∃ w d, hostRead s .w32 (s.cfg.base + off) = .ok (w, { s with draws := d }) ∧
        ∀ k b, k < 4 → s.mem.read (off + k) = some b → (w >>> (8 * k)).setWidth 8 = b)

/-- R35, R353: STATUS reads its seven fields; a write clears exactly the W1C bits it writes 1 to and changes nothing
else, Busy or Idle. -/
def Obligations.StatusReadAndAcknowledge : Prop :=
  ∀ (s : State) (v : Word),
    (∃ w, hostRead s .w32 (s.cfg.base + 0x000C) = .ok (w, s) ∧
      w.getLsbD 0 = s.isBusy ∧ w.getLsbD 1 = s.done ∧ w.getLsbD 2 = s.err ∧ w.getLsbD 3 = s.ovr ∧
      w.getLsbD 4 = s.ctx.valid ∧
      (w.getLsbD 5 = true ↔ s.ctx.fvekEnc ≠ .unset ∧ s.ctx.fvekDec ≠ .unset) ∧
      (w.getLsbD 6 = true ↔ s.ctx.tweakEnc ≠ .unset ∧ s.ctx.tweakDec ≠ .unset) ∧
      ∀ k, 7 ≤ k → w.getLsbD k = false) ∧
    (∃ d e o, hostWrite s .w32 (s.cfg.base + 0x000C) v = .ok { s with done := d, err := e, ovr := o } ∧
      d = (s.done && !v.getLsbD 1) ∧ e = (s.err && !v.getLsbD 2) ∧ o = (s.ovr && !v.getLsbD 3))

/-- R67: the IRQ output is the level `(IE_DONE & DONE) | (IE_ERR & ERR) | (IE_OVR & OVR)`. -/
def Obligations.IrqIsALevelOfTheState : Prop :=
  ∀ s : State, s.irq = true ↔
    (s.ieDone = true ∧ s.done = true) ∨ (s.ieErr = true ∧ s.err = true) ∨ (s.ieOvr = true ∧ s.ovr = true)

/-- R42, R43, R62, R64: no host read, and not the IRQ line, tells two states apart that differ only in key bytes:
in the staging groups, in the sub-contexts' keys, or in hidden state. -/
def Obligations.KeyBytesAreNeverReadable : Prop :=
  ∀ s t : State, sameButKeys s t →
    s.irq = t.irq ∧ ∀ (w : Width) (a : Nat), (hostRead s w a).map Prod.fst = (hostRead t w a).map Prod.fst

/-- R93, R94, R348: an access to the window that is not 32 bits wide, or not aligned, is a fault, and changes nothing;
the address decides only through the window (R90). -/
def Obligations.NarrowOrMisalignedAccessFaults : Prop :=
  ∀ (s : State) (w : Width) (off : Nat) (v : Word), off < 0x4000 → (w ≠ .w32 ∨ off % 4 ≠ 0) →
    hostRead s w (s.cfg.base + off) = .error .busError ∧ hostWrite s w (s.cfg.base + off) v = .error .busError

/-- R390: while BUSY, the hazards are exactly the listed accesses, whichever command is running; every other aligned
32-bit access of the window goes through. Among those, R390 lists writes of ID, VERSION, ERROR and METHOD neither as
defined nor as hazards: that they go through is log entry 8's reading. -/
def Obligations.HazardsAreExactlyTheListedAccesses : Prop :=
  ∀ (s : State) (off : Nat) (v : Word), s.isBusy = true → s.cfg.bufBytes ≤ 4096 → off < 0x4000 → off % 4 = 0 →
    let operand := (0x18 ≤ off ∧ off < 0x28) ∨ (0x80 ≤ off ∧ off < 0xE0) ∨
      (0x1000 ≤ off ∧ off < 0x1000 + s.cfg.bufBytes) ∨ (0x2000 ≤ off ∧ off < 0x2000 + s.cfg.bufBytes)
    let staging := 0x40 ≤ off ∧ off < 0x80
    (operand → hostRead s .w32 (s.cfg.base + off) = .error .hazard) ∧
    (¬ operand → ∃ w, hostRead s .w32 (s.cfg.base + off) = .ok (w, s)) ∧
    (operand ∨ staging → hostWrite s .w32 (s.cfg.base + off) v = .error .hazard) ∧
    (¬ operand → ¬ staging → ∃ t, hostWrite s .w32 (s.cfg.base + off) v = .ok t)

/-- R390: what the defined reads return while BUSY: CTRL the enables as they are now; STATUS with BUSY = 1, DONE = ERR = 0,
the current OVR, and CTX_VALID and the KEYED bits as before acceptance; ERROR = 0; METHOD as before acceptance; and 0 from
CMD and the staging groups. -/
def Obligations.BusyReadsAreDefined : Prop :=
  ∀ (s : State) (cw : Word) (snap : Snapshot) (n : Nat), s.Inv → s.engine = .busy cw snap n →
    (∃ c, hostRead s .w32 (s.cfg.base + 0x0008) = .ok (c, s) ∧ c.getLsbD 0 = s.ieDone ∧ c.getLsbD 1 = s.ieErr ∧
      c.getLsbD 2 = s.ieOvr ∧ ∀ k, 3 ≤ k → c.getLsbD k = false) ∧
    (∃ w, hostRead s .w32 (s.cfg.base + 0x000C) = .ok (w, s) ∧ w.getLsbD 0 = true ∧ w.getLsbD 1 = false ∧
      w.getLsbD 2 = false ∧ w.getLsbD 3 = s.ovr ∧ w.getLsbD 4 = snap.ctx.valid ∧
      (w.getLsbD 5 = true ↔ snap.ctx.fvekEnc ≠ .unset ∧ snap.ctx.fvekDec ≠ .unset) ∧
      (w.getLsbD 6 = true ↔ snap.ctx.tweakEnc ≠ .unset ∧ snap.ctx.tweakDec ≠ .unset) ∧
      ∀ k, 7 ≤ k → w.getLsbD k = false) ∧
    hostRead s .w32 (s.cfg.base + 0x0010) = .ok (0, s) ∧
    hostRead s .w32 (s.cfg.base + 0x0014) = .ok (snap.ctx.method.setWidth 32, s) ∧
    hostRead s .w32 (s.cfg.base + 0x0028) = .ok (0, s) ∧
    (∀ off, 0x40 ≤ off → off < 0x80 → off % 4 = 0 → hostRead s .w32 (s.cfg.base + off) = .ok (0, s))

/-! ## INIT, FREE and SETKEYS -/

/-- R275: INIT without a context creates one with the method code given, validated or not, and all keys Unset; nothing
else changes. -/
def Obligations.InitCreatesContext : Prop :=
  ∀ (m : BitVec 16) (s : State), s.operands.ctx.valid = false →
    ∃ t, exec (.init m) s = .next t ∧ finished s t ∧
      t.ctx.valid = true ∧ t.ctx.method = m ∧ t.methodWord = m.setWidth 32 ∧ (∀ S, t.ctx.sub S = .unset) ∧
      sameHostRegisters s t ∧ sameStaging s t ∧ t.pwhash = s.pwhash ∧ t.dkey = s.dkey ∧ t.hidden = s.hidden ∧
      sameBytes s t

/-- R278: FREE with a context destroys it, keyed or not: METHOD reads 0 and all keys are Unset; nothing else changes. -/
def Obligations.FreeDestroysContext : Prop :=
  ∀ s : State, s.operands.ctx.valid = true →
    ∃ t, exec .free s = .next t ∧ finished s t ∧
      t.ctx.valid = false ∧ t.ctx.method = 0 ∧ t.methodWord = 0 ∧ (∀ S, t.ctx.sub S = .unset) ∧
      sameHostRegisters s t ∧ sameStaging s t ∧ t.pwhash = s.pwhash ∧ t.dkey = s.dkey ∧ t.hidden = s.hidden ∧
      sameBytes s t

/-- R281, R165: under a supported method, SETKEYS keys both FVEK sub-contexts with the first 16 or all 32 bytes of
FVEK_STAGE, under a Diffuser method also both Tweak sub-contexts from TWEAK_STAGE, and clears both staging groups. -/
def Obligations.SetkeysInstallsKeys : Prop :=
  ∀ (s : State) (bits : Nat) (diffuser : Bool), s.operands.ctx.valid = true →
    ((s.operands.ctx.method = 0x8000 ∧ bits = 128 ∧ diffuser = true) ∨
      (s.operands.ctx.method = 0x8001 ∧ bits = 256 ∧ diffuser = true) ∨
      (s.operands.ctx.method = 0x8002 ∧ bits = 128 ∧ diffuser = false) ∨
      (s.operands.ctx.method = 0x8003 ∧ bits = 256 ∧ diffuser = false)) →
    ∃ t kf, exec .setkeys s = .next t ∧ finished s t ∧
      kf.bits = bits ∧ kf.bytes = s.operands.fvekStage.toList.take (bits / 8) ∧
      t.ctx.fvekEnc = .keyed kf ∧ t.ctx.fvekDec = .keyed kf ∧
      (diffuser = true → ∃ kt, kt.bits = bits ∧ kt.bytes = s.operands.tweakStage.toList.take (bits / 8) ∧
        t.ctx.tweakEnc = .keyed kt ∧ t.ctx.tweakDec = .keyed kt) ∧
      (diffuser = false → t.ctx.tweakEnc = s.operands.ctx.tweakEnc ∧ t.ctx.tweakDec = s.operands.ctx.tweakDec) ∧
      t.ctx.valid = true ∧ t.ctx.method = s.operands.ctx.method ∧
      t.fvekStage = zeroReg 32 ∧ t.tweakStage = zeroReg 32 ∧
      sameHostRegisters s t ∧ t.pwhash = s.pwhash ∧ t.dkey = s.dkey ∧ t.hidden = s.hidden ∧ sameBytes s t

/-- R131, R275, R278: INIT while a context exists, and every command that needs a context while there is none, report
that and change nothing else; the length and the keys do not matter. -/
def Obligations.ContextErrorsAreReported : Prop :=
  ∀ (s : State) (m : BitVec 16) (mode : Mode) (k : KeySel), mode.defined = true →
    (s.operands.ctx.valid = true → onlyReports (.init m) s 0x01070201) ∧
    (s.operands.ctx.valid = false →
      onlyReports .free s 0x02070101 ∧ onlyReports .setkeys s 0x03070101 ∧ onlyReports (.crypt mode) s 0x04070101 ∧
      onlyReports (.ecb mode k) s 0x05070101 ∧ onlyReports (.cbc mode k) s 0x06070101)

/-- R271, R281, R300: with a context of an unsupported method, SETKEYS and CRYPT report it, whatever the length, and
change nothing else. -/
def Obligations.UnsupportedMethodIsReported : Prop :=
  ∀ (s : State) (mode : Mode), mode.defined = true → s.operands.ctx.valid = true →
    s.operands.ctx.method ≠ 0x8000 → s.operands.ctx.method ≠ 0x8001 → s.operands.ctx.method ≠ 0x8002 →
    s.operands.ctx.method ≠ 0x8003 →
      onlyReports .setkeys s 0x03010505 ∧ onlyReports (.crypt mode) s 0x04070301

/-! ## Modes and lengths -/

/-- R124, R344: MODE 2 and MODE 3 make the five commands with a direction report UNSUPPORTED_MODE, in every state, and
change nothing else. -/
def Obligations.UnsupportedModeIsReported : Prop :=
  ∀ (s : State) (mode : Mode) (k : KeySel), mode = .reserved2 ∨ mode = .reserved3 →
    onlyReports (.crypt mode) s 0x04080007 ∧ onlyReports (.ecb mode k) s 0x05080007 ∧
    onlyReports (.cbc mode k) s 0x06080007 ∧ onlyReports (.diffa mode) s 0x07080007 ∧
    onlyReports (.diffb mode) s 0x08080007

/-- R131, R344: the length errors, each command's first in the order TOO_LARGE, ZERO, NOT_MULTIPLE, NOT_SECTOR. -/
def Obligations.LengthErrorsInOrder : Prop :=
  ∀ (s : State) (mode : Mode) (k : KeySel), mode.defined = true →
    let n := s.operands.length.toNat
    let cap := s.cfg.bufBytes
    let supported := s.operands.ctx.valid = true ∧ (s.operands.ctx.method = 0x8000 ∨
      s.operands.ctx.method = 0x8001 ∨ s.operands.ctx.method = 0x8002 ∨ s.operands.ctx.method = 0x8003)
    let diffuser := s.operands.ctx.method = 0x8000 ∨ s.operands.ctx.method = 0x8001
    (cap < n → onlyReports (.diffa mode) s 0x07080803 ∧ onlyReports (.diffb mode) s 0x08080803 ∧
      onlyReports .hash8 s 0x09080803 ∧ onlyReports .hash16 s 0x0A080803 ∧
      (s.operands.ctx.valid = true → onlyReports (.cbc mode k) s 0x06080803) ∧
      (supported → onlyReports (.crypt mode) s 0x04080803)) ∧
    (n = 0 → onlyReports (.diffa mode) s 0x07080603 ∧ onlyReports (.diffb mode) s 0x08080603 ∧
      onlyReports .hash8 s 0x09080603 ∧ onlyReports .hash16 s 0x0A080603 ∧
      (supported → onlyReports (.crypt mode) s 0x04080603)) ∧
    (n ≤ cap → n % 16 ≠ 0 → onlyReports (.diffa mode) s 0x07080703 ∧ onlyReports (.diffb mode) s 0x08080703 ∧
      (n % 2 ≠ 0 → onlyReports .hash16 s 0x0A080703) ∧
      (s.operands.ctx.valid = true → onlyReports (.cbc mode k) s 0x06080703) ∧
      (supported → onlyReports (.crypt mode) s 0x04080703)) ∧
    (n ≤ cap → n ≠ 0 → n % 16 = 0 → supported → diffuser → n ≠ s.operands.sectorSize.toNat →
      onlyReports (.crypt mode) s 0x04080903)

/-! ## ECB and CBC -/

/-- R170, R125, R161: with the sub-context that MODE and KSEL select Keyed, ECB writes `Cipher` or `InvCipher` of
IBUF[0:16] to OBUF[0:16] and changes nothing else; LENGTH is not read. -/
def Obligations.EcbTransformsOneBlock : Prop :=
  ∀ (s : State) (key : AesKey) (x : Block), s.operands.ctx.valid = true → ibufHolds s.operands x.toList →
    (s.operands.ctx.fvekEnc = .keyed key →
      onlyWritesObuf (.ecb .encrypt .fvek) s (cipher key x).toList s.hidden) ∧
    (s.operands.ctx.fvekDec = .keyed key →
      onlyWritesObuf (.ecb .decrypt .fvek) s (invCipher key x).toList s.hidden) ∧
    (s.operands.ctx.tweakEnc = .keyed key →
      onlyWritesObuf (.ecb .encrypt .tweak) s (cipher key x).toList s.hidden) ∧
    (s.operands.ctx.tweakDec = .keyed key →
      onlyWritesObuf (.ecb .decrypt .tweak) s (invCipher key x).toList s.hidden)

/-- R171, R167, R168: for every legal length, zero included, CBC writes the chained encryption or decryption of
IBUF[0:L] under the IV register to OBUF[0:L] and changes nothing else, the IV register included. -/
def Obligations.CbcChainsBlocks : Prop :=
  ∀ (s : State) (key : AesKey) (x : List Byte), s.operands.ctx.valid = true → ibufHolds s.operands x →
    s.operands.length.toNat = x.length → x.length ≤ s.cfg.bufBytes → x.length % 16 = 0 →
    (∃ y, isCbcEncryption (cipher key) s.operands.iv x y ∧
      (s.operands.ctx.fvekEnc = .keyed key → onlyWritesObuf (.cbc .encrypt .fvek) s y s.hidden) ∧
      (s.operands.ctx.tweakEnc = .keyed key → onlyWritesObuf (.cbc .encrypt .tweak) s y s.hidden)) ∧
    (∃ y, isCbcDecryption (invCipher key) s.operands.iv x y ∧
      (s.operands.ctx.fvekDec = .keyed key → onlyWritesObuf (.cbc .decrypt .fvek) s y s.hidden) ∧
      (s.operands.ctx.tweakDec = .keyed key → onlyWritesObuf (.cbc .decrypt .tweak) s y s.hidden))

/-- R164, R346: ECB and CBC with the selected sub-context Unset report KEY_NOT_SET with that sub-context's UNIT and
leave OBUF[0:16] or OBUF[0:L] Unknown; an all-zero key is not used in its place. ECB needs IBUF[0:16] only, whatever
LENGTH is. -/
def Obligations.UnsetSubcontextFails : Prop :=
  ∀ (s : State), s.operands.ctx.valid = true →
    (∀ x : List Byte, ibufHolds s.operands x → x.length = 16 →
      (s.operands.ctx.fvekEnc = .unset → onlyReportsAndForgets (.ecb .encrypt .fvek) s 0x05010406 16 s.hidden) ∧
      (s.operands.ctx.fvekDec = .unset → onlyReportsAndForgets (.ecb .decrypt .fvek) s 0x05020406 16 s.hidden) ∧
      (s.operands.ctx.tweakEnc = .unset → onlyReportsAndForgets (.ecb .encrypt .tweak) s 0x05030406 16 s.hidden) ∧
      (s.operands.ctx.tweakDec = .unset → onlyReportsAndForgets (.ecb .decrypt .tweak) s 0x05040406 16 s.hidden)) ∧
    (∀ y : List Byte, ibufHolds s.operands y → s.operands.length.toNat = y.length → y.length ≤ s.cfg.bufBytes →
      y.length % 16 = 0 →
      (s.operands.ctx.fvekEnc = .unset →
        onlyReportsAndForgets (.cbc .encrypt .fvek) s 0x06010406 y.length s.hidden) ∧
      (s.operands.ctx.fvekDec = .unset →
        onlyReportsAndForgets (.cbc .decrypt .fvek) s 0x06020406 y.length s.hidden) ∧
      (s.operands.ctx.tweakEnc = .unset →
        onlyReportsAndForgets (.cbc .encrypt .tweak) s 0x06030406 y.length s.hidden) ∧
      (s.operands.ctx.tweakDec = .unset →
        onlyReportsAndForgets (.cbc .decrypt .tweak) s 0x06040406 y.length s.hidden))

/-! ## DIFFA and DIFFB -/

/-- R210, R211: with or without a context, DIFFA and DIFFB write the transform of IBUF[0:L] to OBUF[0:L] and change
nothing else. -/
def Obligations.DiffuserCommandsTransformBuffer : Prop :=
  ∀ (s : State) (x : List Byte), ibufHolds s.operands x → s.operands.length.toNat = x.length →
    x.length ≤ s.cfg.bufBytes → x.length ≠ 0 → x.length % 16 = 0 →
      onlyWritesObuf (.diffa .encrypt) s (diffAEnc x) s.hidden ∧
      onlyWritesObuf (.diffa .decrypt) s (diffADec x) s.hidden ∧
      onlyWritesObuf (.diffb .encrypt) s (diffBEnc x) s.hidden ∧
      onlyWritesObuf (.diffb .decrypt) s (diffBDec x) s.hidden ∧
      (diffAEnc x).length = x.length ∧ (diffADec x).length = x.length ∧ (diffBEnc x).length = x.length ∧
      (diffBDec x).length = x.length

/-- R201 to R206: one pass over n words, and how many passes a transform is. In a pass each word moves by its two
neighbours' term, which reads a word as it is after this pass where the pass has been there, and as it was before where it
has not. Over the little-endian words of a buffer, Diffuser-A is five such passes and Diffuser-B three. -/
def Obligations.DiffuserWordRecurrence : Prop :=
  (∀ (n : Nat) (d : List Word) (i : Nat), 4 ≤ n → n % 4 = 0 → d.length = n → i < n →
    let up (out : List Word) (k : Nat) : Word := if k < i then out.getD k 0 else d.getD k 0
    let down (out : List Word) (k : Nat) : Word := if i < k then out.getD k 0 else d.getD k 0
    let ra := if i % 4 = 0 then 9 else if i % 4 = 2 then 13 else 0
    let rb := if i % 4 = 1 then 10 else if i % 4 = 3 then 25 else 0
    (passUp (termA n) n d).getD i 0 = d.getD i 0 +
      (up (passUp (termA n) n d) ((i + n - 2) % n) ^^^
        (up (passUp (termA n) n d) ((i + 2 * n - 5) % n)).rotateLeft ra) ∧
    (passDown (termA n) n d).getD i 0 = d.getD i 0 -
      (down (passDown (termA n) n d) ((i + n - 2) % n) ^^^
        (down (passDown (termA n) n d) ((i + 2 * n - 5) % n)).rotateLeft ra) ∧
    (passUp (termB n) n d).getD i 0 = d.getD i 0 +
      (up (passUp (termB n) n d) ((i + 2) % n) ^^^ (up (passUp (termB n) n d) ((i + 5) % n)).rotateLeft rb) ∧
    (passDown (termB n) n d).getD i 0 = d.getD i 0 -
      (down (passDown (termB n) n d) ((i + 2) % n) ^^^
        (down (passDown (termB n) n d) ((i + 5) % n)).rotateLeft rb)) ∧
  (∀ (x : List Byte) (d : List Word), x.length % 16 = 0 → 16 ≤ x.length → isWordsOf x d →
    isWordsOf (diffADec x) (Nat.repeat (passUp (termA d.length) d.length) 5 d) ∧
    isWordsOf (diffAEnc x) (Nat.repeat (passDown (termA d.length) d.length) 5 d) ∧
    isWordsOf (diffBDec x) (Nat.repeat (passUp (termB d.length) d.length) 3 d) ∧
    isWordsOf (diffBEnc x) (Nat.repeat (passDown (termB d.length) d.length) 3 d))

/-- R207, the spec's own inference from R203 to R206: for every buffer length that is a multiple of 16 and at least
16, each Diffuser's two directions undo each other, in both orders. -/
def Obligations.DiffusersInvert : Prop :=
  ∀ x : List Byte, x.length % 16 = 0 → 16 ≤ x.length →
    diffADec (diffAEnc x) = x ∧ diffAEnc (diffADec x) = x ∧ diffBDec (diffBEnc x) = x ∧ diffBEnc (diffBDec x) = x

/-- R208, the spec's own inference: the all-zero and the all-0xFF buffer of every length of at least 16 that is a
multiple of 16 are fixed points of the four transforms. -/
def Obligations.DiffuserFixedBuffers : Prop :=
  ∀ (n : Nat) (b : Byte), 1 ≤ n → b = 0x00 ∨ b = 0xFF →
    let x := List.replicate (16 * n) b
    diffAEnc x = x ∧ diffADec x = x ∧ diffBEnc x = x ∧ diffBDec x = x

/-! ## HASH8, HASH16 and CALCKEY -/

/-- R240, R242, R236: HASH16 sets PWHASH to SHA-256 applied twice to IBUF[0:L], HASH8 to the same of its UTF-16LE form;
ill-formed UTF-8 is reported and PWHASH keeps its value. Nothing else changes. -/
def Obligations.HashCommandsWritePwhash : Prop :=
  ∀ (s : State) (x : List Byte), ibufHolds s.operands x → s.operands.length.toNat = x.length →
    x.length ≤ s.cfg.bufBytes → x.length ≠ 0 →
    (x.length % 2 = 0 → ∃ t, exec .hash16 s = .next t ∧ finished s t ∧ t.pwhash = sha256 (sha256 x).toList ∧
      sameHostRegisters s t ∧ t.ctx = s.ctx ∧ sameStaging s t ∧ t.dkey = s.dkey ∧ t.hidden = s.hidden ∧
      sameBytes s t) ∧
    (∀ u, u8to16 x = some u → ∃ t, exec .hash8 s = .next t ∧ finished s t ∧ t.pwhash = sha256 (sha256 u).toList ∧
      sameHostRegisters s t ∧ t.ctx = s.ctx ∧ sameStaging s t ∧ t.dkey = s.dkey ∧ t.hidden = s.hidden ∧
      sameBytes s t) ∧
    (u8to16 x = none → onlyReports .hash8 s 0x09060A01)

/-- R237: the conversion accepts exactly the well-formed UTF-8 strings, and gives the UTF-16LE form of their scalar
values in order; U+0000 does not end the string. -/
def Obligations.Utf8ConversionIsExact : Prop :=
  ∀ x u : List Byte, u8to16 x = some u ↔
    ∃ cps : List Nat, (∀ cp ∈ cps, isScalar cp) ∧ x = cps.flatMap utf8Encode ∧ u = cps.flatMap utf16Encode

/-- R231 to R234: the padded message is the message, 0x80, the fewest zero bytes that make its length a multiple of 64, and
the bit length as eight big-endian bytes. The hash value starts as the square roots' fractions of the first eight primes;
each 64-byte block adds to it what 64 rounds over the block's schedule make of it, with the cube roots' fractions of the
first 64 primes; and the digest is its eight words, big-endian. -/
def Obligations.Sha256Recurrence : Prop :=
  (∀ m : List Byte, m.length < 2 ^ 61 → ∃ k,
    shaPad m = m ++ [0x80#8] ++ List.replicate k 0x00#8 ++
      (List.range 8).map (fun j => BitVec.ofNat 8 (8 * m.length / 256 ^ (7 - j))) ∧
    (shaPad m).length % 64 = 0 ∧ ∀ j, j < k → (m.length + 1 + j + 8) % 64 ≠ 0) ∧
  (∀ m : List Byte, ∃ h : Nat → Nat → Word,
    (∀ i, i < 8 → isRootFraction 2 (Nat.nth Nat.Prime i) (h 0 i)) ∧
    (∀ j, j < (shaPad m).length / 64 → ∃ (w : Nat → Word) (v : Nat → Nat → Word),
      isShaSchedule (shaPad m) (64 * j) w ∧ isShaRounds w v ∧
      ∀ i, i < 8 → v 0 i = h j i ∧ h (j + 1) i = h j i + v 64 i) ∧
    ∀ (i k : Nat) (hi : i < 8) (hk : k < 4),
      (sha256 m)[4 * i + k] = (h ((shaPad m).length / 64) i >>> (24 - 8 * k)).setWidth 8) ∧
  ∀ t, t < 64 → isRootFraction 3 (Nat.nth Nat.Prime t) (shaK.getD t 0)

/-- R245, R243, R239: in every state CALCKEY sets DKEY to the running hash after P_KDF_ITERATIONS rounds, each hashing
that layout's message with the round's number, and changes nothing else, PWHASH and SALT included. That the hidden
record is zero again is the model's choice (log entry 11). -/
def Obligations.CalckeyStretchesKey : Prop :=
  ∀ s : State, ∃ (t : State) (last : Nat → ByteReg 32),
    (s.cfg.kdfLayout = .bde88 → last 0 = zeroReg 32) ∧
    (s.cfg.kdfLayout = .doc56 → last 0 = s.operands.pwhash) ∧
    (∀ c, c < s.cfg.kdfIterations →
      last (c + 1) = sha256 (roundMessage s.cfg.kdfLayout (last c) s.operands.pwhash s.operands.salt c)) ∧
    exec .calckey s = .next t ∧ finished s t ∧ t.dkey = last s.cfg.kdfIterations ∧
    sameHostRegisters s t ∧ t.ctx = s.ctx ∧ sameStaging s t ∧ t.pwhash = s.pwhash ∧ t.hidden = s.hidden.clearKdf ∧
    sameBytes s t

/-! ## CRYPT -/

/-- R300 to R309: under a Diffuser method with both pairs Keyed and L = SECTOR_SIZE, CRYPT derives the IV under the
FVEK and the mask under the Tweak from the block index. Encrypting, it masks, applies Diffuser-A, Diffuser-B and CBC;
decrypting, it takes the steps back. It writes OBUF[0:L] and changes nothing else; its buffers are zero at the end. -/
def Obligations.CryptDiffuserPipeline : Prop :=
  ∀ (s : State) (fe fd te : AesKey) (bk bk' : Block) (x : List Byte),
    s.operands.ctx.valid = true → s.operands.ctx.method = 0x8000 ∨ s.operands.ctx.method = 0x8001 →
    s.operands.ctx.fvekEnc = .keyed fe → s.operands.ctx.fvekDec = .keyed fd → s.operands.ctx.tweakEnc = .keyed te →
    ibufHolds s.operands x → s.operands.length.toNat = x.length → x.length ≤ s.cfg.bufBytes → x.length ≠ 0 →
    x.length % 16 = 0 → s.operands.sectorSize.toNat = x.length →
    isBlockKey (s.operands.blkidxHi ++ s.operands.blkidxLo) 0x00 bk →
    isBlockKey (s.operands.blkidxHi ++ s.operands.blkidxLo) 0x80 bk' →
    (∃ z y, isMasked (cipher te bk) (cipher te bk') x z ∧
      isCbcEncryption (cipher fe) (cipher fe bk) (diffBEnc (diffAEnc z)) y ∧
      onlyWritesObuf (.crypt .encrypt) s y s.hidden.clearSector) ∧
    (∃ z y, isCbcDecryption (invCipher fd) (cipher fe bk) x z ∧
      isMasked (cipher te bk) (cipher te bk') (diffADec (diffBDec z)) y ∧
      onlyWritesObuf (.crypt .decrypt) s y s.hidden.clearSector)

/-- R310: under a non-Diffuser method CRYPT is one CBC pass with a zero IV, whatever the block index and SECTOR_SIZE
are; with P_NONDIFF_IV = DERIVED the IV is the encryption of the block key. -/
def Obligations.CryptNonDiffuserIsDirectCbc : Prop :=
  ∀ (s : State) (fe fd : AesKey) (iv : Block) (x : List Byte),
    s.operands.ctx.valid = true → s.operands.ctx.method = 0x8002 ∨ s.operands.ctx.method = 0x8003 →
    s.operands.ctx.fvekEnc = .keyed fe → s.operands.ctx.fvekDec = .keyed fd →
    ibufHolds s.operands x → s.operands.length.toNat = x.length → x.length ≤ s.cfg.bufBytes → x.length ≠ 0 →
    x.length % 16 = 0 →
    (s.cfg.nonDiffIv = .zero ∧ iv = zeroReg 16) ∨
      (s.cfg.nonDiffIv = .derived ∧
        ∃ bk, isBlockKey (s.operands.blkidxHi ++ s.operands.blkidxLo) 0x00 bk ∧ iv = cipher fe bk) →
    (∃ y, isCbcEncryption (cipher fe) iv x y ∧ onlyWritesObuf (.crypt .encrypt) s y s.hidden.clearSector) ∧
    (∃ y, isCbcDecryption (invCipher fd) iv x y ∧ onlyWritesObuf (.crypt .decrypt) s y s.hidden.clearSector)

/-- R346 and R311, the latter the spec's own inference: CRYPT with a context that was never keyed reports KEY_NOT_SET
with the UNIT of the first sub-context its steps meet, and leaves OBUF[0:L] Unknown. -/
def Obligations.CryptWithoutKeysNamesTheUnit : Prop :=
  ∀ (s : State) (mode : Mode) (x : List Byte), mode.defined = true →
    s.operands.ctx.valid = true → (∀ S, s.operands.ctx.sub S = .unset) →
    ibufHolds s.operands x → s.operands.length.toNat = x.length → x.length ≤ s.cfg.bufBytes → x.length ≠ 0 →
    x.length % 16 = 0 →
    ((s.operands.ctx.method = 0x8000 ∨ s.operands.ctx.method = 0x8001) →
      s.operands.sectorSize.toNat = x.length →
      onlyReportsAndForgets (.crypt mode) s 0x04010406 x.length s.hidden.clearSector) ∧
    ((s.operands.ctx.method = 0x8002 ∨ s.operands.ctx.method = 0x8003) →
      s.cfg.nonDiffIv = .derived ∨ mode = .encrypt →
      onlyReportsAndForgets (.crypt mode) s 0x04010406 x.length s.hidden.clearSector) ∧
    ((s.operands.ctx.method = 0x8002 ∨ s.operands.ctx.method = 0x8003) →
      s.cfg.nonDiffIv = .zero → mode = .decrypt →
      onlyReportsAndForgets (.crypt mode) s 0x04020406 x.length s.hidden.clearSector)

/-- R312, the spec's own inference: what CRYPT ENC writes to OBUF, given back to CRYPT DEC with the same context,
block index, LENGTH and SECTOR_SIZE, comes out as the sector it was made of, under every method and both P_NONDIFF_IV. -/
def Obligations.CryptRoundTrip : Prop :=
  ∀ (s t u : State) (x y : List Byte),
    s.operands.ctx.fvekEnc = s.operands.ctx.fvekDec →
    ibufHolds s.operands x → s.operands.length.toNat = x.length →
    exec (.crypt .encrypt) s = .next t → s.err = false → t.err = false →
    y.length = x.length → obufHolds t y → ibufHolds u.operands y →
    u.cfg = s.cfg → u.operands.ctx = s.operands.ctx → u.operands.length = s.operands.length →
    u.operands.sectorSize = s.operands.sectorSize → u.operands.blkidxLo = s.operands.blkidxLo →
    u.operands.blkidxHi = s.operands.blkidxHi →
      onlyWritesObuf (.crypt .decrypt) u x u.hidden.clearSector

/-! ## AES -/

/-- R154, R155: every S-box entry is the affine map of the multiplicative inverse, with 0 mapped to 0, and the inverse
S-box undoes the S-box, both ways. -/
def Obligations.SboxIsAffineOfInverse : Prop :=
  ∀ x : Byte, (∃ b : Byte, (x = 0 → b = 0) ∧ (x ≠ 0 → gmul x b = 1) ∧
      sbox x = b ^^^ b.rotateLeft 1 ^^^ b.rotateLeft 2 ^^^ b.rotateLeft 3 ^^^ b.rotateLeft 4 ^^^ 0x63) ∧
    invSbox (sbox x) = x ∧ sbox (invSbox x) = x

/-- R158, R159, R169: for every key of both sizes, InvCipher and Cipher undo each other on every block. -/
def Obligations.InvCipherInvertsCipher : Prop :=
  ∀ (key : AesKey) (x : Block), invCipher key (cipher key x) = x ∧ cipher key (invCipher key x) = x

/-- R169, the spec's own inference: for two sub-contexts of one key, CBC decryption undoes CBC encryption; block j of
an encryption depends only on the IV and on blocks 0 to j of its input, and block j of a decryption only on ciphertext
blocks j-1 and j. -/
def Obligations.CbcLaws : Prop :=
  (∀ (c : Context) (k : KeySel) (key : AesKey) (iv : Block) (p : List Byte),
    c.sub (selectSub k .encrypt) = .keyed key → c.sub (selectSub k .decrypt) = .keyed key → p.length % 16 = 0 →
      ∃ y, cbcEnc c (selectSub k .encrypt) iv p = .ok y ∧ cbcDec c (selectSub k .decrypt) iv y = .ok p) ∧
  (∀ (c : Context) (S : SubId) (iv : Block) (p p' y y' : List Byte) (j : Nat),
    cbcEnc c S iv p = .ok y → cbcEnc c S iv p' = .ok y' → j < p.length / 16 → j < p'.length / 16 →
    (∀ i, i ≤ j → blockAt p i = blockAt p' i) → blockAt y j = blockAt y' j) ∧
  (∀ (c : Context) (S : SubId) (iv iv' : Block) (x x' y y' : List Byte) (j : Nat),
    cbcDec c S iv x = .ok y → cbcDec c S iv' x' = .ok y' → j < x.length / 16 → j < x'.length / 16 →
    blockAt x j = blockAt x' j → (j = 0 → iv = iv') → (j ≠ 0 → blockAt x (j - 1) = blockAt x' (j - 1)) →
      blockAt y j = blockAt y' j)

/-! ## Every command -/

/-- R54, R348, R99: a command that is given an Unknown byte among the bytes of IBUF it reads faults, or has failed a
check before it reads and changes nothing but the report. That it faults also with an Unset sub-context is log entry
13's reading of the pseudocode. -/
def Obligations.UnknownInputIsNeverUsed : Prop :=
  ∀ (i : Instr) (s : State) (k : Nat), k < inputBytes s.operands i → s.operands.mem.read (ibufBase + k) = none →
    exec i s = .fault .unknownInput ∨ ∃ w, onlyReports i s w

/-- R121, R395: with every byte of IBUF it reads known, every command completes, in every state. -/
def Obligations.EveryCommandCompletes : Prop :=
  ∀ (i : Instr) (s : State),
    (∀ k, k < inputBytes s.operands i → ∃ b, s.operands.mem.read (ibufBase + k) = some b) →
      ∃ t, exec i s = .next t ∧ t.engine = .idle ∧ t.done = true

/-- R345, R346: with a context in one of the lifecycle states (R274), a command that completes with an error reports a
triple of its list (R343, the spec's own inference), and changes nothing else but the output bytes of a cipher
failure, which become Unknown, and CRYPT's hidden buffers, which every failing CRYPT zeroes (R303). -/
def Obligations.FailingCommandChangesOnlyItsReport : Prop :=
  ∀ (i : Instr) (s t : State), s.operands.ctx.wf → exec i s = .next t → s.err = false → t.err = true →
    (∃ e ∈ listedReports i.opc, t.error = errorWord i.opc e) ∧ t.engine = .idle ∧ t.done = true ∧
    sameHostRegisters s t ∧ sameSecrets s t ∧ t.hidden = hiddenAfter i s.hidden ∧
    (sameBytes s t ∨ (t.error.setWidth 8 = 0x06#8 ∧ obufUnknown (outputBytes s.operands i) t ∧
      sameBytesOutsideObuf (outputBytes s.operands i) s t))

/-- R51 and R100, the spec's own inferences: what each command writes. No command writes IBUF, the operand registers,
CTRL or OVR, or a byte of OBUF at or beyond its output; only INIT, FREE and SETKEYS write the context, only SETKEYS
the staging groups, only HASH8 and HASH16 PWHASH, only CALCKEY DKEY. Of the hidden buffers, every CRYPT zeroes its own
(R303); that CALCKEY zeroes its record is log entry 11's choice. -/
def Obligations.CommandsWriteOnlyTheirRegisters : Prop :=
  ∀ (i : Instr) (s t : State), exec i s = .next t →
    sameHostRegisters s t ∧ sameBytesOutsideObuf (outputBytes s.operands i) s t ∧
    (t.ctx ≠ s.ctx → (∃ m, i = .init m) ∨ i = .free ∨ i = .setkeys) ∧
    (¬ sameStaging s t → i = .setkeys) ∧
    (t.pwhash ≠ s.pwhash → i = .hash8 ∨ i = .hash16) ∧
    (t.dkey ≠ s.dkey → i = .calckey) ∧ t.hidden = hiddenAfter i s.hidden

/-- R280, the spec's own inference from R278 and R281: two machines that differ only in the keys of the context, in
the state and in the snapshot of the command in progress, are the same machine after FREE, after a power-on reset, after a
soft reset by CTRL.SRST, and, under a Diffuser method, after SETKEYS: nothing of the old keys is left. Under a
non-Diffuser method SETKEYS re-keys the FVEK pair, and nothing of the old FVEK is left: the machines are the same but for
the Tweak pair, which SETKEYS keeps there. -/
def Obligations.OldKeysLeaveNoTrace : Prop :=
  ∀ (s : State) (cw : Word) (snap : Snapshot) (n : Nat) (a b c d a' b' c' d' : SubCtx),
    s.engine = .busy cw snap n → snap.ctx.valid = true →
    let old : State := { s with
      ctx := { s.ctx with fvekEnc := a, fvekDec := b, tweakEnc := c, tweakDec := d }
      engine := .busy cw { snap with
        ctx := { snap.ctx with fvekEnc := a', fvekDec := b', tweakEnc := c', tweakDec := d' } } n }
    exec .free old = exec .free s ∧ old.powerOn = s.powerOn ∧
    (∀ v : Word, v.getLsbD 31 = true →
      hostWrite old .w32 (s.cfg.base + 0x0008) v = hostWrite s .w32 (s.cfg.base + 0x0008) v) ∧
    (snap.ctx.method = 0x8000 ∨ snap.ctx.method = 0x8001 → exec .setkeys old = exec .setkeys s) ∧
    (snap.ctx.method = 0x8002 ∨ snap.ctx.method = 0x8003 →
      ∃ t, exec .setkeys s = .next t ∧ t.ctx.fvekEnc ≠ .unset ∧ t.ctx.fvekDec ≠ .unset ∧
        exec .setkeys old = .next { t with ctx := { t.ctx with tweakEnc := c', tweakDec := d' } })

/-- R284, the spec's own inference from R270 and R281: under AES128_CBC_DIFF bytes 16 to 31 of both staging values, and
under the non-Diffuser methods the whole Tweak staging value, have no effect on the state after SETKEYS, neither through
the snapshot SETKEYS reads nor through the registers it clears; under AES256_CBC_DIFF every byte counts. -/
def Obligations.UnusedStagingBytesHaveNoEffect : Prop :=
  ∀ (s : State) (cw : Word) (snap : Snapshot) (n : Nat) (f w f' w' : ByteReg 32),
    s.engine = .busy cw snap n → snap.ctx.valid = true →
    let other : State := { s with
      fvekStage := f'
      tweakStage := w'
      engine := .busy cw { snap with fvekStage := f, tweakStage := w } n }
    (snap.ctx.method = 0x8000 → f.toList.take 16 = snap.fvekStage.toList.take 16 →
      w.toList.take 16 = snap.tweakStage.toList.take 16 → exec .setkeys other = exec .setkeys s) ∧
    (snap.ctx.method = 0x8002 ∨ snap.ctx.method = 0x8003 → f = snap.fvekStage →
      exec .setkeys other = exec .setkeys s) ∧
    (snap.ctx.method = 0x8001 → exec .setkeys other = exec .setkeys s → f = snap.fvekStage ∧ w = snap.tweakStage)

/-! ## The whole machine -/

/-- R60: a sub-context changes only when INIT or FREE completes, or at a reset, all four becoming Unset, or when
SETKEYS completes, which keys the FVEK pair and, under a Diffuser method, the Tweak pair. -/
def Obligations.SubcontextsChangeOnlyAtTheirCommands : Prop :=
  ∀ (s t : State) (S : SubId), s.Inv → step s = .next t → t.ctx.sub S ≠ s.ctx.sub S →
    (((∃ m, completesNext s (.init m)) ∨ completesNext s .free ∨ resetsNext s) ∧ ∀ S', t.ctx.sub S' = .unset) ∨
    (completesNext s .setkeys ∧ (∃ k, t.ctx.sub S = .keyed k) ∧
      (S = .fvekEnc ∨ S = .fvekDec ∨ s.ctx.method = 0x8000 ∨ s.ctx.method = 0x8001))

/-- R273: only INIT sets the method, and only while there is no context; only FREE and reset clear it. While a context
is valid no other step changes it. -/
def Obligations.MethodIsImmutable : Prop :=
  ∀ s t : State, s.Inv → step s = .next t → t.ctx.method ≠ s.ctx.method →
    (s.ctx.valid = false ∧ completesNext s (.init t.ctx.method) ∧ t.ctx.valid = true) ∨
    (t.ctx.method = 0 ∧ t.ctx.valid = false ∧ (completesNext s .free ∨ resetsNext s))

/-- R47: DKEY changes only when CALCKEY completes or at a reset, which clears it. -/
def Obligations.DkeyIsWrittenOnlyByCalckey : Prop :=
  ∀ s t : State, step s = .next t → t.dkey ≠ s.dkey →
    completesNext s .calckey ∨ (resetsNext s ∧ t.dkey = zeroReg 32)

/-- The state after reset meets the invariant. It holds whatever value the platform gives P_BASE (log entry 4). -/
def Obligations.ResetMeetsInvariant : Prop := State.reset.Inv

/-- R10, R37, R54, R61, R92, R107, R274, R303, R343, R345, R390: every step keeps the invariant, from every state that
meets it. Its clause on hidden state is log entry 11's choice, and R274 and R343 are the spec's own inferences. -/
def Obligations.EveryStepKeepsInvariant : Prop := ∀ s t : State, s.Inv → step s = .next t → t.Inv

/-! ## AES, byte by byte -/

/-- R152, R153, R156 to R158: KeyExpansion and Cipher follow the spec's recurrences byte by byte, for both key sizes. The
S-box is pinned by `Obligations.SboxIsAffineOfInverse`, and InvCipher by `Obligations.InvCipherInvertsCipher`. -/
def Obligations.KeyScheduleAndCipherRecurrence : Prop :=
  ∀ key : AesKey, ∃ w : Nat → Nat → Byte, isKeySchedule key w ∧
    (keyExpansion key).length = 4 * (key.nr + 1) ∧
    (∀ (i j : Nat) (hj : j < 4), i < 4 * (key.nr + 1) → ((keyExpansion key).getD i (zeroReg 4))[j] = w i j) ∧
    ∀ x : Block, ∃ st : Nat → Nat → Nat → Byte, isCipherRun key.nr w x st ∧
      ∀ (r c : Nat) (hr : r < 4) (hc : c < 4), (cipher key x)[r + 4 * c] = st key.nr r c
end

