-- ==== Sys2Proof/Laws/Bytes.lean ====
section
/-! SUPPORT. The small lemmas of byte strings, words and blocks. -/

namespace Sys2Proof.Machine

@[simp] theorem zeroReg_getElem (n k : Nat) (h : k < n) : (zeroReg n)[k] = 0#8 := by simp [zeroReg]

@[simp] theorem regOfBytes_getElem (n : Nat) (bs : List Byte) (k : Nat) (h : k < n) :
    (regOfBytes n bs)[k] = bs.getD k 0#8 := by simp [regOfBytes]

@[simp] theorem regSetWord_getElem (n : Nat) (r : ByteReg n) (j : Nat) (w : Word) (k : Nat) (h : k < n) :
    (regSetWord r j w)[k] = if k / 4 = j then byteOf w (k % 4) else r[k] := by simp [regSetWord]

@[simp] theorem xorReg_getElem (n : Nat) (a b : ByteReg n) (k : Nat) (h : k < n) :
    (xorReg a b)[k] = a[k] ^^^ b[k] := by simp [xorReg]

/-- XORing the same string twice changes nothing. -/
theorem xorReg_xorReg_cancel (n : Nat) (a b : ByteReg n) : xorReg (xorReg a b) b = a := by
  ext k h
  simp

/-- A block is the block of its own bytes. -/
theorem regOfBytes_toList (n : Nat) (r : ByteReg n) : regOfBytes n r.toList = r := by
  ext k h
  simp [h]

@[simp] theorem encLE32_length (w : Word) : (encLE32 w).length = 4 := rfl

@[simp] theorem encBE32_length (w : Word) : (encBE32 w).length = 4 := rfl

@[simp] theorem encLE64_length (v : BitVec 64) : (encLE64 v).length = 8 := rfl

@[simp] theorem encBE64_length (v : BitVec 64) : (encBE64 v).length = 8 := rfl

@[simp] theorem leWords_length (n : Nat) (bs : List Byte) : (leWords n bs).length = n := by
  induction n generalizing bs with
  | zero => rfl
  | succ n ih => simp [leWords, ih]

@[simp] theorem beWords_length (n : Nat) (bs : List Byte) : (beWords n bs).length = n := by
  induction n generalizing bs with
  | zero => rfl
  | succ n ih => simp [beWords, ih]

@[simp] theorem blocksOf_length (n : Nat) (bs : List Byte) : (blocksOf n bs).length = n := by
  induction n generalizing bs with
  | zero => rfl
  | succ n ih => simp [blocksOf, ih]

@[simp] theorem bytesOfBlocks_nil : bytesOfBlocks [] = [] := rfl

@[simp] theorem bytesOfBlocks_cons (x : Block) (xs : List Block) :
    bytesOfBlocks (x :: xs) = x.toList ++ bytesOfBlocks xs := by simp [bytesOfBlocks]

@[simp] theorem bytesOfBlocks_length (xs : List Block) : (bytesOfBlocks xs).length = 16 * xs.length := by
  induction xs with
  | nil => rfl
  | cons x xs ih => simp [ih]; omega

@[simp] theorem chainEncrypt_length (e : Block → Block) (iv : Block) (xs : List Block) :
    (chainEncrypt e iv xs).length = xs.length := by
  induction xs generalizing iv with
  | nil => rfl
  | cons x xs ih => simp [chainEncrypt, ih]

@[simp] theorem chainDecrypt_length (d : Block → Block) (iv : Block) (xs : List Block) :
    (chainDecrypt d iv xs).length = xs.length := by
  induction xs generalizing iv with
  | nil => rfl
  | cons x xs ih => simp [chainDecrypt, ih]

/-- The words a pass works on keep their number. -/
@[simp] theorem passUp_length (term : List Word → Nat → Word) (n : Nat) (d : List Word) :
    (passUp term n d).length = d.length := by
  unfold passUp
  induction List.range n generalizing d with
  | nil => rfl
  | cons i is ih => simp [ih, addAt]

@[simp] theorem passDown_length (term : List Word → Nat → Word) (n : Nat) (d : List Word) :
    (passDown term n d).length = d.length := by
  unfold passDown
  induction (List.range n).reverse generalizing d with
  | nil => rfl
  | cons i is ih => simp [ih, subAt]

@[simp] theorem xorMask_length (mask : ByteReg 32) (z : List Byte) : (xorMask mask z).length = z.length := by
  simp [xorMask]

end Sys2Proof.Machine
end

