-- ==== Sys2Proof/Laws/Blocks.lean ====
section
/-! SUPPORT. The blocks of a string, and the blocks of what the chaining modes make of it. -/

namespace Sys2Proof.Machine

/-! ## Strings and their blocks -/

theorem blockAt_zero (p : List Byte) : blockAt p 0 = regOfBytes 16 (p.take 16) := rfl

theorem blockAt_succ (p : List Byte) (j : Nat) : blockAt p (j + 1) = blockAt (p.drop 16) j := by
  simp [blockAt, List.drop_drop, Nat.mul_add, Nat.add_comm]

/-- Block `j` of the list of blocks is block `j` of the string. -/
theorem blocksOf_getElem (n : Nat) (p : List Byte) (j : Nat) (h : j < n) :
    (blocksOf n p)[j]'(by simpa using h) = blockAt p j := by
  induction n generalizing p j with
  | zero => omega
  | succ n ih =>
    cases j with
    | zero => rfl
    | succ j => rw [blockAt_succ, ← ih (p.drop 16) j (by omega)]; rfl

/-- Block `j` of a string of blocks is its block `j`. -/
theorem blockAt_bytesOfBlocks (xs : List Block) (j : Nat) (h : j < xs.length) : blockAt (bytesOfBlocks xs) j = xs[j] := by
  induction xs generalizing j with
  | nil => simp at h
  | cons x xs ih =>
    cases j with
    | zero =>
      have : ((bytesOfBlocks (x :: xs)).take 16) = x.toList := by
        rw [bytesOfBlocks_cons, List.take_append_of_le_length (by simp), List.take_of_length_le (by simp)]
      rw [blockAt_zero, this, regOfBytes_toList]
      rfl
    | succ j =>
      have : (bytesOfBlocks (x :: xs)).drop 16 = bytesOfBlocks xs := by
        rw [bytesOfBlocks_cons, List.drop_append_of_le_length (by simp), List.drop_of_length_le (by simp)]
        rfl
      rw [blockAt_succ, this, ih j (by simpa using h)]
      rfl

/-- Cutting a string of blocks gives the blocks back. -/
theorem blocksOf_bytesOfBlocks (xs : List Block) : blocksOf xs.length (bytesOfBlocks xs) = xs := by
  apply List.ext_getElem (by simp)
  intro j h1 h2
  rw [blocksOf_getElem _ _ _ h2, blockAt_bytesOfBlocks _ _ h2]

/-- The bytes of a block read from a string that is long enough. -/
theorem regOfBytes_take_toList (n : Nat) (p : List Byte) (h : n ≤ p.length) : (regOfBytes n (p.take n)).toList = p.take n := by
  apply List.ext_getElem (by simp; omega)
  intro k h1 h2
  simp at h1 h2
  simp [h1, List.getElem?_eq_getElem h2.2]

/-- A string of whole blocks is the string of its blocks. -/
theorem bytesOfBlocks_blocksOf (n : Nat) (p : List Byte) (h : p.length = 16 * n) : bytesOfBlocks (blocksOf n p) = p := by
  induction n generalizing p with
  | zero => simpa [blocksOf] using (List.length_eq_zero_iff.1 (by simpa using h)).symm
  | succ n ih =>
    rw [blocksOf, bytesOfBlocks_cons, ih (p.drop 16) (by simp; omega), regOfBytes_take_toList 16 p (by omega),
      List.take_append_drop]

/-! ## The chaining modes -/

/-- Each block of a chained encryption (R167). -/
theorem chainEncrypt_getElem (e : Block → Block) (iv : Block) (ps : List Block) (j : Nat) (h : j < ps.length) :
    (chainEncrypt e iv ps)[j]'(by simpa using h) =
      e (xorReg ps[j] (if _h0 : j = 0 then iv else (chainEncrypt e iv ps)[j - 1]'(by simp; omega))) := by
  induction ps generalizing iv j with
  | nil => simp at h
  | cons p ps ih =>
    cases j with
    | zero => rfl
    | succ j =>
      have := ih (e (xorReg p iv)) j (by simpa using h)
      simp only [chainEncrypt, List.getElem_cons_succ, this]
      cases j <;> simp

/-- Each block of a chained decryption (R168). -/
theorem chainDecrypt_getElem (d : Block → Block) (iv : Block) (cs : List Block) (j : Nat) (h : j < cs.length) :
    (chainDecrypt d iv cs)[j]'(by simpa using h) = xorReg (d cs[j]) (if _h0 : j = 0 then iv else cs[j - 1]) := by
  induction cs generalizing iv j with
  | nil => simp at h
  | cons c cs ih =>
    cases j with
    | zero => rfl
    | succ j =>
      have := ih c j (by simpa using h)
      simp only [chainDecrypt, List.getElem_cons_succ, this]
      cases j <;> simp

/-- What `cbcEnc` answers is the CBC encryption of its input, block by block. -/
theorem isCbcEncryption_chain (e : Block → Block) (iv : Block) (p : List Byte) (h : p.length % 16 = 0) :
    isCbcEncryption e iv p (bytesOfBlocks (chainEncrypt e iv (blocksOf (p.length / 16) p))) := by
  refine ⟨by simp; omega, fun j hj => ?_⟩
  have hl : j < (chainEncrypt e iv (blocksOf (p.length / 16) p)).length := by simpa using hj
  rw [blockAt_bytesOfBlocks _ _ hl, chainEncrypt_getElem e iv _ j (by simpa using hj), blocksOf_getElem _ _ _ hj]
  by_cases h0 : j = 0
  · simp [h0]
  · rw [dif_neg h0, if_neg h0, blockAt_bytesOfBlocks _ _ (by omega)]

/-- What `cbcDec` answers is the CBC decryption of its input, block by block. -/
theorem isCbcDecryption_chain (d : Block → Block) (iv : Block) (c : List Byte) (h : c.length % 16 = 0) :
    isCbcDecryption d iv c (bytesOfBlocks (chainDecrypt d iv (blocksOf (c.length / 16) c))) := by
  refine ⟨by simp; omega, fun j hj => ?_⟩
  rw [blockAt_bytesOfBlocks _ _ (by simpa using hj), chainDecrypt_getElem d iv _ j (by simpa using hj),
    blocksOf_getElem _ _ _ hj]
  by_cases h0 : j = 0
  · simp [h0]
  · rw [dif_neg h0, if_neg h0, blocksOf_getElem _ _ _ (by omega)]

/-- Chained decryption undoes chained encryption when the block transforms do. -/
theorem chainDecrypt_chainEncrypt (e d : Block → Block) (hd : ∀ x, d (e x) = x) (iv : Block) (ps : List Block) :
    chainDecrypt d iv (chainEncrypt e iv ps) = ps := by
  induction ps generalizing iv with
  | nil => rfl
  | cons p ps ih => simp [chainEncrypt, chainDecrypt, hd, xorReg_xorReg_cancel, ih]

end Sys2Proof.Machine
end

