-- ==== Sys2Proof/Laws/Memory.lean ====
section
/-! SUPPORT. The laws of the buffer memory: what a read returns after each operation, and that every operation keeps the
canonical form. -/

namespace Sys2Proof.Machine

/-! ## One byte -/

@[simp] theorem Memory.read_nil (a : Nat) : Memory.read [] a = none := rfl

theorem Memory.read_cons (c : Host.Cell) (m : Memory) (a : Nat) :
    Memory.read (c :: m) a = if c.1 = a then some c.2 else Memory.read m a := rfl

/-- A read after a write: the value at the written offset, and what stood there at every other one. -/
theorem Memory.read_write (m : Memory) (a b : Nat) (v : Byte) :
    (m.write a v).read b = if a = b then some v else m.read b := by
  induction m with
  | nil => simp [Memory.write, Memory.read_cons]
  | cons c m ih =>
    by_cases h1 : a < c.1
    · simp [Memory.write, h1, Memory.read_cons]
    · by_cases h2 : c.1 = a
      · subst h2
        by_cases h3 : c.1 = b <;> simp [Memory.write, Memory.read_cons, h3]
      · by_cases h3 : c.1 = b
        · subst h3
          have : a ≠ c.1 := fun e => h2 e.symm
          simp [Memory.write, h1, h2, Memory.read_cons, this]
        · simp [Memory.write, h1, h2, Memory.read_cons, h3, ih]

@[simp] theorem Memory.read_write_same (m : Memory) (a : Nat) (v : Byte) : (m.write a v).read a = some v := by
  simp [Memory.read_write]

theorem Memory.read_write_other (m : Memory) (a b : Nat) (v : Byte) (h : a ≠ b) : (m.write a v).read b = m.read b := by
  simp [Memory.read_write, h]

/-- Reading after bytes were made Unknown: nothing inside the range, no change outside. -/
theorem Memory.read_forget (m : Memory) (a n b : Nat) :
    (m.forget a n).read b = if a ≤ b ∧ b < a + n then none else m.read b := by
  induction m with
  | nil => simp [Memory.forget]
  | cons c m ih =>
    rw [Memory.forget, List.filter_cons]
    rw [Memory.forget] at ih
    by_cases hc : a ≤ c.1 ∧ c.1 < a + n
    · have hk : (!(decide (a ≤ c.1) && decide (c.1 < a + n))) = false := by simp [hc.1, hc.2]
      rw [hk, if_neg (by decide), ih]
      by_cases hb : c.1 = b
      · subst hb; rw [if_pos hc, if_pos hc]
      · rw [Memory.read_cons, if_neg hb]
    · have hk : (!(decide (a ≤ c.1) && decide (c.1 < a + n))) = true := by simp; omega
      rw [hk, if_pos rfl, Memory.read_cons, Memory.read_cons, ih]
      by_cases hb : c.1 = b
      · subst hb; rw [if_pos rfl, if_neg hc, if_pos rfl]
      · rw [if_neg hb, if_neg hb]

/-! ## Byte strings -/

/-- Reading after a string was written: its bytes inside the range, no change outside. -/
theorem Memory.read_writeBytes (m : Memory) (a : Nat) (bs : List Byte) (b : Nat) :
    (m.writeBytes a bs).read b = if a ≤ b ∧ b < a + bs.length then bs[b - a]? else m.read b := by
  induction bs generalizing m a with
  | nil =>
    rw [if_neg (by simp)]
    rfl
  | cons v bs ih =>
    simp only [Memory.writeBytes, ih, Memory.read_write, List.length_cons]
    by_cases h : a = b
    · subst h; simp
    · by_cases h2 : a + 1 ≤ b ∧ b < a + 1 + bs.length
      · have h3 : a ≤ b ∧ b < a + (bs.length + 1) := by omega
        have h4 : b - a = (b - (a + 1)) + 1 := by omega
        rw [if_pos h2, if_pos h3, h4, List.getElem?_cons_succ]
      · have h3 : ¬(a ≤ b ∧ b < a + (bs.length + 1)) := by omega
        rw [if_neg h2, if_neg h, if_neg h3]

/-- Everything a buffer read can answer: all `n` bytes are known, and these are they. -/
theorem Memory.readBytes_eq_some (m : Memory) (a n : Nat) (bs : List Byte) :
    m.readBytes a n = some bs ↔ bs.length = n ∧ ∀ k, k < n → m.read (a + k) = bs[k]? := by
  induction n generalizing a bs with
  | zero => cases bs <;> simp [Memory.readBytes]
  | succ n ih =>
    constructor
    · intro h
      rw [Memory.readBytes] at h
      split at h
      · next b rest hb hrest =>
        obtain rfl := Option.some.inj h
        obtain ⟨hl, hk⟩ := (ih (a + 1) rest).1 hrest
        refine ⟨by simp [hl], fun k hlt => ?_⟩
        cases k with
        | zero => simpa using hb
        | succ k => simpa [Nat.add_assoc, Nat.add_comm 1 k] using hk k (by omega)
      · exact absurd h (by simp)
    · rintro ⟨hl, hk⟩
      cases bs with
      | nil => simp at hl
      | cons b rest =>
        have h0 : m.read a = some b := by simpa using hk 0 (by omega)
        have hr : m.readBytes (a + 1) n = some rest := by
          refine (ih (a + 1) rest).2 ⟨by simpa using hl, fun k hlt => ?_⟩
          simpa [Nat.add_assoc, Nat.add_comm 1 k] using hk (k + 1) (by omega)
        simp [Memory.readBytes, h0, hr]

/-- A buffer read fails exactly when some byte is Unknown. -/
theorem Memory.readBytes_eq_none (m : Memory) (a n : Nat) :
    m.readBytes a n = none ↔ ∃ k, k < n ∧ m.read (a + k) = none := by
  induction n generalizing a with
  | zero => simp [Memory.readBytes]
  | succ n ih =>
    rw [Memory.readBytes]
    constructor
    · intro h
      cases hb : m.read a with
      | none => exact ⟨0, by omega, by simpa using hb⟩
      | some b =>
        have hr : m.readBytes (a + 1) n = none := by
          cases hr : m.readBytes (a + 1) n with
          | none => rfl
          | some rest => simp [hb, hr] at h
        obtain ⟨k, hk, he⟩ := (ih (a + 1)).1 hr
        exact ⟨k + 1, by omega, by rw [← he]; congr 1; omega⟩
    · rintro ⟨k, hk, he⟩
      cases k with
      | zero =>
        have h0 : m.read a = none := by simpa using he
        simp [h0]
      | succ k =>
        have hr : m.readBytes (a + 1) n = none :=
          (ih (a + 1)).2 ⟨k, by omega, by rw [← he]; congr 1; omega⟩
        cases m.read a <;> simp [hr]

/-! ## The canonical form -/

/-- The offsets a write leaves listed: the written one and those listed before. -/
theorem Memory.mem_write (m : Memory) (a : Nat) (v : Byte) (c : Host.Cell) (h : c ∈ m.write a v) :
    c = (a, v) ∨ c ∈ m := by
  induction m with
  | nil => simpa [Memory.write] using h
  | cons d m ih =>
    rw [Memory.write] at h
    split at h
    · simpa using h
    · split at h
      · rcases List.mem_cons.1 h with h | h
        · exact .inl h
        · exact .inr (List.mem_cons_of_mem _ h)
      · rcases List.mem_cons.1 h with h | h
        · exact .inr (by simp [h])
        · rcases ih h with h | h
          · exact .inl h
          · exact .inr (List.mem_cons_of_mem _ h)

theorem Memory.wf_nil : Memory.wf [] := List.Pairwise.nil

/-- A byte write keeps the canonical form. -/
theorem Memory.wf_write (m : Memory) (a : Nat) (v : Byte) (h : m.wf) : (m.write a v).wf := by
  induction m with
  | nil => simp [Memory.write, Memory.wf]
  | cons d m ih =>
    obtain ⟨hd, hm⟩ := List.pairwise_cons.1 h
    rw [Memory.write]
    split
    · next hlt =>
      refine List.pairwise_cons.2 ⟨fun c hc => ?_, h⟩
      rcases List.mem_cons.1 hc with rfl | hc
      · exact hlt
      · exact lt_trans hlt (hd c hc)
    · next hlt =>
      split
      · next he => exact List.pairwise_cons.2 ⟨fun c hc => by simpa [he] using hd c hc, hm⟩
      · next hne =>
        refine List.pairwise_cons.2 ⟨fun c hc => ?_, ih hm⟩
        rcases Memory.mem_write m a v c hc with rfl | hc
        · show d.1 < a
          omega
        · exact hd c hc

/-- Making bytes Unknown keeps the canonical form. -/
theorem Memory.wf_forget (m : Memory) (a n : Nat) (h : m.wf) : (m.forget a n).wf :=
  List.Pairwise.filter _ h

/-- Writing a string keeps the canonical form. -/
theorem Memory.wf_writeBytes (m : Memory) (a : Nat) (bs : List Byte) (h : m.wf) : (m.writeBytes a bs).wf := by
  induction bs generalizing m a with
  | nil => exact h
  | cons v bs ih => exact ih _ _ (Memory.wf_write m a v h)

/-- Making bytes Unknown lists no new offset. -/
theorem Memory.mem_forget (m : Memory) (a n : Nat) (c : Host.Cell) (h : c ∈ m.forget a n) : c ∈ m :=
  (List.mem_filter.1 h).1

/-- Writing a string lists no offset but those listed before and its own range. -/
theorem Memory.mem_writeBytes (m : Memory) (a : Nat) (bs : List Byte) (c : Host.Cell) (h : c ∈ m.writeBytes a bs) :
    c ∈ m ∨ (a ≤ c.1 ∧ c.1 < a + bs.length) := by
  induction bs generalizing m a with
  | nil => exact .inl h
  | cons v bs ih =>
    rcases ih _ _ h with h | h
    · rcases Memory.mem_write m a v c h with rfl | h
      · exact .inr (by simp)
      · exact .inl h
    · exact .inr (by simp only [List.length_cons]; omega)

/-- The reset memory has the canonical form. -/
theorem State.reset_mem_wf : State.reset.mem.wf := Memory.wf_nil

end Sys2Proof.Machine
end

