-- ==== Sys2Proof/Laws/State.lean ====
section
/-! SUPPORT. What each named update of the state leaves in each field: one lemma per field per update, true by `rfl`,
so that no proof unfolds a record update. -/

namespace Sys2Proof.Machine

/-! ## `State.acceptWithin` -/

@[simp] theorem State.acceptWithin_cfg (s : State) (cw : Word) (left : Nat) : (s.acceptWithin cw left).cfg = s.cfg := rfl
@[simp] theorem State.acceptWithin_ieDone (s : State) (cw : Word) (left : Nat) : (s.acceptWithin cw left).ieDone = s.ieDone := rfl
@[simp] theorem State.acceptWithin_ieErr (s : State) (cw : Word) (left : Nat) : (s.acceptWithin cw left).ieErr = s.ieErr := rfl
@[simp] theorem State.acceptWithin_ieOvr (s : State) (cw : Word) (left : Nat) : (s.acceptWithin cw left).ieOvr = s.ieOvr := rfl
@[simp] theorem State.acceptWithin_done (s : State) (cw : Word) (left : Nat) : (s.acceptWithin cw left).done = false := rfl
@[simp] theorem State.acceptWithin_err (s : State) (cw : Word) (left : Nat) : (s.acceptWithin cw left).err = false := rfl
@[simp] theorem State.acceptWithin_ovr (s : State) (cw : Word) (left : Nat) : (s.acceptWithin cw left).ovr = s.ovr := rfl
@[simp] theorem State.acceptWithin_error (s : State) (cw : Word) (left : Nat) : (s.acceptWithin cw left).error = 0 := rfl
@[simp] theorem State.acceptWithin_ctx (s : State) (cw : Word) (left : Nat) : (s.acceptWithin cw left).ctx = s.ctx := rfl
@[simp] theorem State.acceptWithin_sectorSize (s : State) (cw : Word) (left : Nat) : (s.acceptWithin cw left).sectorSize = s.sectorSize := rfl
@[simp] theorem State.acceptWithin_length (s : State) (cw : Word) (left : Nat) : (s.acceptWithin cw left).length = s.length := rfl
@[simp] theorem State.acceptWithin_blkidxLo (s : State) (cw : Word) (left : Nat) : (s.acceptWithin cw left).blkidxLo = s.blkidxLo := rfl
@[simp] theorem State.acceptWithin_blkidxHi (s : State) (cw : Word) (left : Nat) : (s.acceptWithin cw left).blkidxHi = s.blkidxHi := rfl
@[simp] theorem State.acceptWithin_fvekStage (s : State) (cw : Word) (left : Nat) : (s.acceptWithin cw left).fvekStage = s.fvekStage := rfl
@[simp] theorem State.acceptWithin_tweakStage (s : State) (cw : Word) (left : Nat) : (s.acceptWithin cw left).tweakStage = s.tweakStage := rfl
@[simp] theorem State.acceptWithin_iv (s : State) (cw : Word) (left : Nat) : (s.acceptWithin cw left).iv = s.iv := rfl
@[simp] theorem State.acceptWithin_salt (s : State) (cw : Word) (left : Nat) : (s.acceptWithin cw left).salt = s.salt := rfl
@[simp] theorem State.acceptWithin_pwhash (s : State) (cw : Word) (left : Nat) : (s.acceptWithin cw left).pwhash = s.pwhash := rfl
@[simp] theorem State.acceptWithin_dkey (s : State) (cw : Word) (left : Nat) : (s.acceptWithin cw left).dkey = s.dkey := rfl
@[simp] theorem State.acceptWithin_mem (s : State) (cw : Word) (left : Nat) : (s.acceptWithin cw left).mem = s.mem := rfl
@[simp] theorem State.acceptWithin_hidden (s : State) (cw : Word) (left : Nat) : (s.acceptWithin cw left).hidden = s.hidden := rfl
@[simp] theorem State.acceptWithin_engine (s : State) (cw : Word) (left : Nat) : (s.acceptWithin cw left).engine = .busy cw s.takeSnapshot left := rfl
@[simp] theorem State.acceptWithin_host (s : State) (cw : Word) (left : Nat) : (s.acceptWithin cw left).host = s.host := rfl
@[simp] theorem State.acceptWithin_draws (s : State) (cw : Word) (left : Nat) : (s.acceptWithin cw left).draws = s.draws := rfl

/-! ## `State.accept` -/

@[simp] theorem State.accept_cfg (s : State) (cw : Word) : (s.accept cw).cfg = s.cfg := rfl
@[simp] theorem State.accept_ieDone (s : State) (cw : Word) : (s.accept cw).ieDone = s.ieDone := rfl
@[simp] theorem State.accept_ieErr (s : State) (cw : Word) : (s.accept cw).ieErr = s.ieErr := rfl
@[simp] theorem State.accept_ieOvr (s : State) (cw : Word) : (s.accept cw).ieOvr = s.ieOvr := rfl
@[simp] theorem State.accept_done (s : State) (cw : Word) : (s.accept cw).done = false := rfl
@[simp] theorem State.accept_err (s : State) (cw : Word) : (s.accept cw).err = false := rfl
@[simp] theorem State.accept_ovr (s : State) (cw : Word) : (s.accept cw).ovr = s.ovr := rfl
@[simp] theorem State.accept_error (s : State) (cw : Word) : (s.accept cw).error = 0 := rfl
@[simp] theorem State.accept_ctx (s : State) (cw : Word) : (s.accept cw).ctx = s.ctx := rfl
@[simp] theorem State.accept_sectorSize (s : State) (cw : Word) : (s.accept cw).sectorSize = s.sectorSize := rfl
@[simp] theorem State.accept_length (s : State) (cw : Word) : (s.accept cw).length = s.length := rfl
@[simp] theorem State.accept_blkidxLo (s : State) (cw : Word) : (s.accept cw).blkidxLo = s.blkidxLo := rfl
@[simp] theorem State.accept_blkidxHi (s : State) (cw : Word) : (s.accept cw).blkidxHi = s.blkidxHi := rfl
@[simp] theorem State.accept_fvekStage (s : State) (cw : Word) : (s.accept cw).fvekStage = s.fvekStage := rfl
@[simp] theorem State.accept_tweakStage (s : State) (cw : Word) : (s.accept cw).tweakStage = s.tweakStage := rfl
@[simp] theorem State.accept_iv (s : State) (cw : Word) : (s.accept cw).iv = s.iv := rfl
@[simp] theorem State.accept_salt (s : State) (cw : Word) : (s.accept cw).salt = s.salt := rfl
@[simp] theorem State.accept_pwhash (s : State) (cw : Word) : (s.accept cw).pwhash = s.pwhash := rfl
@[simp] theorem State.accept_dkey (s : State) (cw : Word) : (s.accept cw).dkey = s.dkey := rfl
@[simp] theorem State.accept_mem (s : State) (cw : Word) : (s.accept cw).mem = s.mem := rfl
@[simp] theorem State.accept_hidden (s : State) (cw : Word) : (s.accept cw).hidden = s.hidden := rfl
@[simp] theorem State.accept_engine (s : State) (cw : Word) : (s.accept cw).engine = .busy cw s.takeSnapshot (s.latencyOf cw) := rfl
@[simp] theorem State.accept_host (s : State) (cw : Word) : (s.accept cw).host = s.host := rfl
@[simp] theorem State.accept_draws (s : State) (cw : Word) : (s.accept cw).draws = s.draws + 1 := rfl

/-! ## `State.overrun` -/

@[simp] theorem State.overrun_cfg (s : State) : (s.overrun).cfg = s.cfg := rfl
@[simp] theorem State.overrun_ieDone (s : State) : (s.overrun).ieDone = s.ieDone := rfl
@[simp] theorem State.overrun_ieErr (s : State) : (s.overrun).ieErr = s.ieErr := rfl
@[simp] theorem State.overrun_ieOvr (s : State) : (s.overrun).ieOvr = s.ieOvr := rfl
@[simp] theorem State.overrun_done (s : State) : (s.overrun).done = s.done := rfl
@[simp] theorem State.overrun_err (s : State) : (s.overrun).err = s.err := rfl
@[simp] theorem State.overrun_ovr (s : State) : (s.overrun).ovr = true := rfl
@[simp] theorem State.overrun_error (s : State) : (s.overrun).error = s.error := rfl
@[simp] theorem State.overrun_ctx (s : State) : (s.overrun).ctx = s.ctx := rfl
@[simp] theorem State.overrun_sectorSize (s : State) : (s.overrun).sectorSize = s.sectorSize := rfl
@[simp] theorem State.overrun_length (s : State) : (s.overrun).length = s.length := rfl
@[simp] theorem State.overrun_blkidxLo (s : State) : (s.overrun).blkidxLo = s.blkidxLo := rfl
@[simp] theorem State.overrun_blkidxHi (s : State) : (s.overrun).blkidxHi = s.blkidxHi := rfl
@[simp] theorem State.overrun_fvekStage (s : State) : (s.overrun).fvekStage = s.fvekStage := rfl
@[simp] theorem State.overrun_tweakStage (s : State) : (s.overrun).tweakStage = s.tweakStage := rfl
@[simp] theorem State.overrun_iv (s : State) : (s.overrun).iv = s.iv := rfl
@[simp] theorem State.overrun_salt (s : State) : (s.overrun).salt = s.salt := rfl
@[simp] theorem State.overrun_pwhash (s : State) : (s.overrun).pwhash = s.pwhash := rfl
@[simp] theorem State.overrun_dkey (s : State) : (s.overrun).dkey = s.dkey := rfl
@[simp] theorem State.overrun_mem (s : State) : (s.overrun).mem = s.mem := rfl
@[simp] theorem State.overrun_hidden (s : State) : (s.overrun).hidden = s.hidden := rfl
@[simp] theorem State.overrun_engine (s : State) : (s.overrun).engine = s.engine := rfl
@[simp] theorem State.overrun_host (s : State) : (s.overrun).host = s.host := rfl
@[simp] theorem State.overrun_draws (s : State) : (s.overrun).draws = s.draws := rfl

/-! ## `State.succeed` -/

@[simp] theorem State.succeed_cfg (s : State) : (s.succeed).cfg = s.cfg := rfl
@[simp] theorem State.succeed_ieDone (s : State) : (s.succeed).ieDone = s.ieDone := rfl
@[simp] theorem State.succeed_ieErr (s : State) : (s.succeed).ieErr = s.ieErr := rfl
@[simp] theorem State.succeed_ieOvr (s : State) : (s.succeed).ieOvr = s.ieOvr := rfl
@[simp] theorem State.succeed_done (s : State) : (s.succeed).done = true := rfl
@[simp] theorem State.succeed_err (s : State) : (s.succeed).err = s.err := rfl
@[simp] theorem State.succeed_ovr (s : State) : (s.succeed).ovr = s.ovr := rfl
@[simp] theorem State.succeed_error (s : State) : (s.succeed).error = s.error := rfl
@[simp] theorem State.succeed_ctx (s : State) : (s.succeed).ctx = s.ctx := rfl
@[simp] theorem State.succeed_sectorSize (s : State) : (s.succeed).sectorSize = s.sectorSize := rfl
@[simp] theorem State.succeed_length (s : State) : (s.succeed).length = s.length := rfl
@[simp] theorem State.succeed_blkidxLo (s : State) : (s.succeed).blkidxLo = s.blkidxLo := rfl
@[simp] theorem State.succeed_blkidxHi (s : State) : (s.succeed).blkidxHi = s.blkidxHi := rfl
@[simp] theorem State.succeed_fvekStage (s : State) : (s.succeed).fvekStage = s.fvekStage := rfl
@[simp] theorem State.succeed_tweakStage (s : State) : (s.succeed).tweakStage = s.tweakStage := rfl
@[simp] theorem State.succeed_iv (s : State) : (s.succeed).iv = s.iv := rfl
@[simp] theorem State.succeed_salt (s : State) : (s.succeed).salt = s.salt := rfl
@[simp] theorem State.succeed_pwhash (s : State) : (s.succeed).pwhash = s.pwhash := rfl
@[simp] theorem State.succeed_dkey (s : State) : (s.succeed).dkey = s.dkey := rfl
@[simp] theorem State.succeed_mem (s : State) : (s.succeed).mem = s.mem := rfl
@[simp] theorem State.succeed_hidden (s : State) : (s.succeed).hidden = s.hidden := rfl
@[simp] theorem State.succeed_engine (s : State) : (s.succeed).engine = .idle := rfl
@[simp] theorem State.succeed_host (s : State) : (s.succeed).host = s.host := rfl
@[simp] theorem State.succeed_draws (s : State) : (s.succeed).draws = s.draws := rfl

/-! ## `State.failWith` -/

@[simp] theorem State.failWith_cfg (s : State) (opc : Byte) (e : CmdError) : (s.failWith opc e).cfg = s.cfg := rfl
@[simp] theorem State.failWith_ieDone (s : State) (opc : Byte) (e : CmdError) : (s.failWith opc e).ieDone = s.ieDone := rfl
@[simp] theorem State.failWith_ieErr (s : State) (opc : Byte) (e : CmdError) : (s.failWith opc e).ieErr = s.ieErr := rfl
@[simp] theorem State.failWith_ieOvr (s : State) (opc : Byte) (e : CmdError) : (s.failWith opc e).ieOvr = s.ieOvr := rfl
@[simp] theorem State.failWith_done (s : State) (opc : Byte) (e : CmdError) : (s.failWith opc e).done = true := rfl
@[simp] theorem State.failWith_err (s : State) (opc : Byte) (e : CmdError) : (s.failWith opc e).err = true := rfl
@[simp] theorem State.failWith_ovr (s : State) (opc : Byte) (e : CmdError) : (s.failWith opc e).ovr = s.ovr := rfl
@[simp] theorem State.failWith_error (s : State) (opc : Byte) (e : CmdError) : (s.failWith opc e).error = errorWord opc e := rfl
@[simp] theorem State.failWith_ctx (s : State) (opc : Byte) (e : CmdError) : (s.failWith opc e).ctx = s.ctx := rfl
@[simp] theorem State.failWith_sectorSize (s : State) (opc : Byte) (e : CmdError) : (s.failWith opc e).sectorSize = s.sectorSize := rfl
@[simp] theorem State.failWith_length (s : State) (opc : Byte) (e : CmdError) : (s.failWith opc e).length = s.length := rfl
@[simp] theorem State.failWith_blkidxLo (s : State) (opc : Byte) (e : CmdError) : (s.failWith opc e).blkidxLo = s.blkidxLo := rfl
@[simp] theorem State.failWith_blkidxHi (s : State) (opc : Byte) (e : CmdError) : (s.failWith opc e).blkidxHi = s.blkidxHi := rfl
@[simp] theorem State.failWith_fvekStage (s : State) (opc : Byte) (e : CmdError) : (s.failWith opc e).fvekStage = s.fvekStage := rfl
@[simp] theorem State.failWith_tweakStage (s : State) (opc : Byte) (e : CmdError) : (s.failWith opc e).tweakStage = s.tweakStage := rfl
@[simp] theorem State.failWith_iv (s : State) (opc : Byte) (e : CmdError) : (s.failWith opc e).iv = s.iv := rfl
@[simp] theorem State.failWith_salt (s : State) (opc : Byte) (e : CmdError) : (s.failWith opc e).salt = s.salt := rfl
@[simp] theorem State.failWith_pwhash (s : State) (opc : Byte) (e : CmdError) : (s.failWith opc e).pwhash = s.pwhash := rfl
@[simp] theorem State.failWith_dkey (s : State) (opc : Byte) (e : CmdError) : (s.failWith opc e).dkey = s.dkey := rfl
@[simp] theorem State.failWith_mem (s : State) (opc : Byte) (e : CmdError) : (s.failWith opc e).mem = s.mem := rfl
@[simp] theorem State.failWith_hidden (s : State) (opc : Byte) (e : CmdError) : (s.failWith opc e).hidden = s.hidden := rfl
@[simp] theorem State.failWith_engine (s : State) (opc : Byte) (e : CmdError) : (s.failWith opc e).engine = .idle := rfl
@[simp] theorem State.failWith_host (s : State) (opc : Byte) (e : CmdError) : (s.failWith opc e).host = s.host := rfl
@[simp] theorem State.failWith_draws (s : State) (opc : Byte) (e : CmdError) : (s.failWith opc e).draws = s.draws := rfl

/-! ## `State.acknowledge` -/

@[simp] theorem State.acknowledge_cfg (s : State) (v : Word) : (s.acknowledge v).cfg = s.cfg := rfl
@[simp] theorem State.acknowledge_ieDone (s : State) (v : Word) : (s.acknowledge v).ieDone = s.ieDone := rfl
@[simp] theorem State.acknowledge_ieErr (s : State) (v : Word) : (s.acknowledge v).ieErr = s.ieErr := rfl
@[simp] theorem State.acknowledge_ieOvr (s : State) (v : Word) : (s.acknowledge v).ieOvr = s.ieOvr := rfl
@[simp] theorem State.acknowledge_done (s : State) (v : Word) : (s.acknowledge v).done = (s.done && !v.getLsbD 1) := rfl
@[simp] theorem State.acknowledge_err (s : State) (v : Word) : (s.acknowledge v).err = (s.err && !v.getLsbD 2) := rfl
@[simp] theorem State.acknowledge_ovr (s : State) (v : Word) : (s.acknowledge v).ovr = (s.ovr && !v.getLsbD 3) := rfl
@[simp] theorem State.acknowledge_error (s : State) (v : Word) : (s.acknowledge v).error = s.error := rfl
@[simp] theorem State.acknowledge_ctx (s : State) (v : Word) : (s.acknowledge v).ctx = s.ctx := rfl
@[simp] theorem State.acknowledge_sectorSize (s : State) (v : Word) : (s.acknowledge v).sectorSize = s.sectorSize := rfl
@[simp] theorem State.acknowledge_length (s : State) (v : Word) : (s.acknowledge v).length = s.length := rfl
@[simp] theorem State.acknowledge_blkidxLo (s : State) (v : Word) : (s.acknowledge v).blkidxLo = s.blkidxLo := rfl
@[simp] theorem State.acknowledge_blkidxHi (s : State) (v : Word) : (s.acknowledge v).blkidxHi = s.blkidxHi := rfl
@[simp] theorem State.acknowledge_fvekStage (s : State) (v : Word) : (s.acknowledge v).fvekStage = s.fvekStage := rfl
@[simp] theorem State.acknowledge_tweakStage (s : State) (v : Word) : (s.acknowledge v).tweakStage = s.tweakStage := rfl
@[simp] theorem State.acknowledge_iv (s : State) (v : Word) : (s.acknowledge v).iv = s.iv := rfl
@[simp] theorem State.acknowledge_salt (s : State) (v : Word) : (s.acknowledge v).salt = s.salt := rfl
@[simp] theorem State.acknowledge_pwhash (s : State) (v : Word) : (s.acknowledge v).pwhash = s.pwhash := rfl
@[simp] theorem State.acknowledge_dkey (s : State) (v : Word) : (s.acknowledge v).dkey = s.dkey := rfl
@[simp] theorem State.acknowledge_mem (s : State) (v : Word) : (s.acknowledge v).mem = s.mem := rfl
@[simp] theorem State.acknowledge_hidden (s : State) (v : Word) : (s.acknowledge v).hidden = s.hidden := rfl
@[simp] theorem State.acknowledge_engine (s : State) (v : Word) : (s.acknowledge v).engine = s.engine := rfl
@[simp] theorem State.acknowledge_host (s : State) (v : Word) : (s.acknowledge v).host = s.host := rfl
@[simp] theorem State.acknowledge_draws (s : State) (v : Word) : (s.acknowledge v).draws = s.draws := rfl

/-! ## `State.writeObuf` -/

@[simp] theorem State.writeObuf_cfg (s : State) (v : List Byte) : (s.writeObuf v).cfg = s.cfg := rfl
@[simp] theorem State.writeObuf_ieDone (s : State) (v : List Byte) : (s.writeObuf v).ieDone = s.ieDone := rfl
@[simp] theorem State.writeObuf_ieErr (s : State) (v : List Byte) : (s.writeObuf v).ieErr = s.ieErr := rfl
@[simp] theorem State.writeObuf_ieOvr (s : State) (v : List Byte) : (s.writeObuf v).ieOvr = s.ieOvr := rfl
@[simp] theorem State.writeObuf_done (s : State) (v : List Byte) : (s.writeObuf v).done = s.done := rfl
@[simp] theorem State.writeObuf_err (s : State) (v : List Byte) : (s.writeObuf v).err = s.err := rfl
@[simp] theorem State.writeObuf_ovr (s : State) (v : List Byte) : (s.writeObuf v).ovr = s.ovr := rfl
@[simp] theorem State.writeObuf_error (s : State) (v : List Byte) : (s.writeObuf v).error = s.error := rfl
@[simp] theorem State.writeObuf_ctx (s : State) (v : List Byte) : (s.writeObuf v).ctx = s.ctx := rfl
@[simp] theorem State.writeObuf_sectorSize (s : State) (v : List Byte) : (s.writeObuf v).sectorSize = s.sectorSize := rfl
@[simp] theorem State.writeObuf_length (s : State) (v : List Byte) : (s.writeObuf v).length = s.length := rfl
@[simp] theorem State.writeObuf_blkidxLo (s : State) (v : List Byte) : (s.writeObuf v).blkidxLo = s.blkidxLo := rfl
@[simp] theorem State.writeObuf_blkidxHi (s : State) (v : List Byte) : (s.writeObuf v).blkidxHi = s.blkidxHi := rfl
@[simp] theorem State.writeObuf_fvekStage (s : State) (v : List Byte) : (s.writeObuf v).fvekStage = s.fvekStage := rfl
@[simp] theorem State.writeObuf_tweakStage (s : State) (v : List Byte) : (s.writeObuf v).tweakStage = s.tweakStage := rfl
@[simp] theorem State.writeObuf_iv (s : State) (v : List Byte) : (s.writeObuf v).iv = s.iv := rfl
@[simp] theorem State.writeObuf_salt (s : State) (v : List Byte) : (s.writeObuf v).salt = s.salt := rfl
@[simp] theorem State.writeObuf_pwhash (s : State) (v : List Byte) : (s.writeObuf v).pwhash = s.pwhash := rfl
@[simp] theorem State.writeObuf_dkey (s : State) (v : List Byte) : (s.writeObuf v).dkey = s.dkey := rfl
@[simp] theorem State.writeObuf_mem (s : State) (v : List Byte) : (s.writeObuf v).mem = s.mem.writeBytes obufBase v := rfl
@[simp] theorem State.writeObuf_hidden (s : State) (v : List Byte) : (s.writeObuf v).hidden = s.hidden := rfl
@[simp] theorem State.writeObuf_engine (s : State) (v : List Byte) : (s.writeObuf v).engine = s.engine := rfl
@[simp] theorem State.writeObuf_host (s : State) (v : List Byte) : (s.writeObuf v).host = s.host := rfl
@[simp] theorem State.writeObuf_draws (s : State) (v : List Byte) : (s.writeObuf v).draws = s.draws := rfl

/-! ## `State.forgetObuf` -/

@[simp] theorem State.forgetObuf_cfg (s : State) (n : Nat) : (s.forgetObuf n).cfg = s.cfg := rfl
@[simp] theorem State.forgetObuf_ieDone (s : State) (n : Nat) : (s.forgetObuf n).ieDone = s.ieDone := rfl
@[simp] theorem State.forgetObuf_ieErr (s : State) (n : Nat) : (s.forgetObuf n).ieErr = s.ieErr := rfl
@[simp] theorem State.forgetObuf_ieOvr (s : State) (n : Nat) : (s.forgetObuf n).ieOvr = s.ieOvr := rfl
@[simp] theorem State.forgetObuf_done (s : State) (n : Nat) : (s.forgetObuf n).done = s.done := rfl
@[simp] theorem State.forgetObuf_err (s : State) (n : Nat) : (s.forgetObuf n).err = s.err := rfl
@[simp] theorem State.forgetObuf_ovr (s : State) (n : Nat) : (s.forgetObuf n).ovr = s.ovr := rfl
@[simp] theorem State.forgetObuf_error (s : State) (n : Nat) : (s.forgetObuf n).error = s.error := rfl
@[simp] theorem State.forgetObuf_ctx (s : State) (n : Nat) : (s.forgetObuf n).ctx = s.ctx := rfl
@[simp] theorem State.forgetObuf_sectorSize (s : State) (n : Nat) : (s.forgetObuf n).sectorSize = s.sectorSize := rfl
@[simp] theorem State.forgetObuf_length (s : State) (n : Nat) : (s.forgetObuf n).length = s.length := rfl
@[simp] theorem State.forgetObuf_blkidxLo (s : State) (n : Nat) : (s.forgetObuf n).blkidxLo = s.blkidxLo := rfl
@[simp] theorem State.forgetObuf_blkidxHi (s : State) (n : Nat) : (s.forgetObuf n).blkidxHi = s.blkidxHi := rfl
@[simp] theorem State.forgetObuf_fvekStage (s : State) (n : Nat) : (s.forgetObuf n).fvekStage = s.fvekStage := rfl
@[simp] theorem State.forgetObuf_tweakStage (s : State) (n : Nat) : (s.forgetObuf n).tweakStage = s.tweakStage := rfl
@[simp] theorem State.forgetObuf_iv (s : State) (n : Nat) : (s.forgetObuf n).iv = s.iv := rfl
@[simp] theorem State.forgetObuf_salt (s : State) (n : Nat) : (s.forgetObuf n).salt = s.salt := rfl
@[simp] theorem State.forgetObuf_pwhash (s : State) (n : Nat) : (s.forgetObuf n).pwhash = s.pwhash := rfl
@[simp] theorem State.forgetObuf_dkey (s : State) (n : Nat) : (s.forgetObuf n).dkey = s.dkey := rfl
@[simp] theorem State.forgetObuf_mem (s : State) (n : Nat) : (s.forgetObuf n).mem = s.mem.forget obufBase n := rfl
@[simp] theorem State.forgetObuf_hidden (s : State) (n : Nat) : (s.forgetObuf n).hidden = s.hidden := rfl
@[simp] theorem State.forgetObuf_engine (s : State) (n : Nat) : (s.forgetObuf n).engine = s.engine := rfl
@[simp] theorem State.forgetObuf_host (s : State) (n : Nat) : (s.forgetObuf n).host = s.host := rfl
@[simp] theorem State.forgetObuf_draws (s : State) (n : Nat) : (s.forgetObuf n).draws = s.draws := rfl

/-! ## `State.tick` -/

@[simp] theorem State.tick_cfg (s : State) (cw : Word) (snap : Snapshot) (left : Nat) : (s.tick cw snap left).cfg = s.cfg := rfl
@[simp] theorem State.tick_ieDone (s : State) (cw : Word) (snap : Snapshot) (left : Nat) : (s.tick cw snap left).ieDone = s.ieDone := rfl
@[simp] theorem State.tick_ieErr (s : State) (cw : Word) (snap : Snapshot) (left : Nat) : (s.tick cw snap left).ieErr = s.ieErr := rfl
@[simp] theorem State.tick_ieOvr (s : State) (cw : Word) (snap : Snapshot) (left : Nat) : (s.tick cw snap left).ieOvr = s.ieOvr := rfl
@[simp] theorem State.tick_done (s : State) (cw : Word) (snap : Snapshot) (left : Nat) : (s.tick cw snap left).done = s.done := rfl
@[simp] theorem State.tick_err (s : State) (cw : Word) (snap : Snapshot) (left : Nat) : (s.tick cw snap left).err = s.err := rfl
@[simp] theorem State.tick_ovr (s : State) (cw : Word) (snap : Snapshot) (left : Nat) : (s.tick cw snap left).ovr = s.ovr := rfl
@[simp] theorem State.tick_error (s : State) (cw : Word) (snap : Snapshot) (left : Nat) : (s.tick cw snap left).error = s.error := rfl
@[simp] theorem State.tick_ctx (s : State) (cw : Word) (snap : Snapshot) (left : Nat) : (s.tick cw snap left).ctx = s.ctx := rfl
@[simp] theorem State.tick_sectorSize (s : State) (cw : Word) (snap : Snapshot) (left : Nat) : (s.tick cw snap left).sectorSize = s.sectorSize := rfl
@[simp] theorem State.tick_length (s : State) (cw : Word) (snap : Snapshot) (left : Nat) : (s.tick cw snap left).length = s.length := rfl
@[simp] theorem State.tick_blkidxLo (s : State) (cw : Word) (snap : Snapshot) (left : Nat) : (s.tick cw snap left).blkidxLo = s.blkidxLo := rfl
@[simp] theorem State.tick_blkidxHi (s : State) (cw : Word) (snap : Snapshot) (left : Nat) : (s.tick cw snap left).blkidxHi = s.blkidxHi := rfl
@[simp] theorem State.tick_fvekStage (s : State) (cw : Word) (snap : Snapshot) (left : Nat) : (s.tick cw snap left).fvekStage = s.fvekStage := rfl
@[simp] theorem State.tick_tweakStage (s : State) (cw : Word) (snap : Snapshot) (left : Nat) : (s.tick cw snap left).tweakStage = s.tweakStage := rfl
@[simp] theorem State.tick_iv (s : State) (cw : Word) (snap : Snapshot) (left : Nat) : (s.tick cw snap left).iv = s.iv := rfl
@[simp] theorem State.tick_salt (s : State) (cw : Word) (snap : Snapshot) (left : Nat) : (s.tick cw snap left).salt = s.salt := rfl
@[simp] theorem State.tick_pwhash (s : State) (cw : Word) (snap : Snapshot) (left : Nat) : (s.tick cw snap left).pwhash = s.pwhash := rfl
@[simp] theorem State.tick_dkey (s : State) (cw : Word) (snap : Snapshot) (left : Nat) : (s.tick cw snap left).dkey = s.dkey := rfl
@[simp] theorem State.tick_mem (s : State) (cw : Word) (snap : Snapshot) (left : Nat) : (s.tick cw snap left).mem = s.mem := rfl
@[simp] theorem State.tick_hidden (s : State) (cw : Word) (snap : Snapshot) (left : Nat) : (s.tick cw snap left).hidden = s.hidden := rfl
@[simp] theorem State.tick_engine (s : State) (cw : Word) (snap : Snapshot) (left : Nat) : (s.tick cw snap left).engine = .busy cw snap left := rfl
@[simp] theorem State.tick_host (s : State) (cw : Word) (snap : Snapshot) (left : Nat) : (s.tick cw snap left).host = s.host := rfl
@[simp] theorem State.tick_draws (s : State) (cw : Word) (snap : Snapshot) (left : Nat) : (s.tick cw snap left).draws = s.draws := rfl

/-! ## `State.hostAt` -/

@[simp] theorem State.hostAt_cfg (s : State) (n : Nat) : (s.hostAt n).cfg = s.cfg := rfl
@[simp] theorem State.hostAt_ieDone (s : State) (n : Nat) : (s.hostAt n).ieDone = s.ieDone := rfl
@[simp] theorem State.hostAt_ieErr (s : State) (n : Nat) : (s.hostAt n).ieErr = s.ieErr := rfl
@[simp] theorem State.hostAt_ieOvr (s : State) (n : Nat) : (s.hostAt n).ieOvr = s.ieOvr := rfl
@[simp] theorem State.hostAt_done (s : State) (n : Nat) : (s.hostAt n).done = s.done := rfl
@[simp] theorem State.hostAt_err (s : State) (n : Nat) : (s.hostAt n).err = s.err := rfl
@[simp] theorem State.hostAt_ovr (s : State) (n : Nat) : (s.hostAt n).ovr = s.ovr := rfl
@[simp] theorem State.hostAt_error (s : State) (n : Nat) : (s.hostAt n).error = s.error := rfl
@[simp] theorem State.hostAt_ctx (s : State) (n : Nat) : (s.hostAt n).ctx = s.ctx := rfl
@[simp] theorem State.hostAt_sectorSize (s : State) (n : Nat) : (s.hostAt n).sectorSize = s.sectorSize := rfl
@[simp] theorem State.hostAt_length (s : State) (n : Nat) : (s.hostAt n).length = s.length := rfl
@[simp] theorem State.hostAt_blkidxLo (s : State) (n : Nat) : (s.hostAt n).blkidxLo = s.blkidxLo := rfl
@[simp] theorem State.hostAt_blkidxHi (s : State) (n : Nat) : (s.hostAt n).blkidxHi = s.blkidxHi := rfl
@[simp] theorem State.hostAt_fvekStage (s : State) (n : Nat) : (s.hostAt n).fvekStage = s.fvekStage := rfl
@[simp] theorem State.hostAt_tweakStage (s : State) (n : Nat) : (s.hostAt n).tweakStage = s.tweakStage := rfl
@[simp] theorem State.hostAt_iv (s : State) (n : Nat) : (s.hostAt n).iv = s.iv := rfl
@[simp] theorem State.hostAt_salt (s : State) (n : Nat) : (s.hostAt n).salt = s.salt := rfl
@[simp] theorem State.hostAt_pwhash (s : State) (n : Nat) : (s.hostAt n).pwhash = s.pwhash := rfl
@[simp] theorem State.hostAt_dkey (s : State) (n : Nat) : (s.hostAt n).dkey = s.dkey := rfl
@[simp] theorem State.hostAt_mem (s : State) (n : Nat) : (s.hostAt n).mem = s.mem := rfl
@[simp] theorem State.hostAt_hidden (s : State) (n : Nat) : (s.hostAt n).hidden = s.hidden := rfl
@[simp] theorem State.hostAt_engine (s : State) (n : Nat) : (s.hostAt n).engine = s.engine := rfl
@[simp] theorem State.hostAt_host (s : State) (n : Nat) : (s.hostAt n).host = { s.host with pc := n } := rfl
@[simp] theorem State.hostAt_draws (s : State) (n : Nat) : (s.hostAt n).draws = s.draws := rfl

/-! ## `State.hostGot` -/

@[simp] theorem State.hostGot_cfg (s : State) (v : Word) (n : Nat) : (s.hostGot v n).cfg = s.cfg := rfl
@[simp] theorem State.hostGot_ieDone (s : State) (v : Word) (n : Nat) : (s.hostGot v n).ieDone = s.ieDone := rfl
@[simp] theorem State.hostGot_ieErr (s : State) (v : Word) (n : Nat) : (s.hostGot v n).ieErr = s.ieErr := rfl
@[simp] theorem State.hostGot_ieOvr (s : State) (v : Word) (n : Nat) : (s.hostGot v n).ieOvr = s.ieOvr := rfl
@[simp] theorem State.hostGot_done (s : State) (v : Word) (n : Nat) : (s.hostGot v n).done = s.done := rfl
@[simp] theorem State.hostGot_err (s : State) (v : Word) (n : Nat) : (s.hostGot v n).err = s.err := rfl
@[simp] theorem State.hostGot_ovr (s : State) (v : Word) (n : Nat) : (s.hostGot v n).ovr = s.ovr := rfl
@[simp] theorem State.hostGot_error (s : State) (v : Word) (n : Nat) : (s.hostGot v n).error = s.error := rfl
@[simp] theorem State.hostGot_ctx (s : State) (v : Word) (n : Nat) : (s.hostGot v n).ctx = s.ctx := rfl
@[simp] theorem State.hostGot_sectorSize (s : State) (v : Word) (n : Nat) : (s.hostGot v n).sectorSize = s.sectorSize := rfl
@[simp] theorem State.hostGot_length (s : State) (v : Word) (n : Nat) : (s.hostGot v n).length = s.length := rfl
@[simp] theorem State.hostGot_blkidxLo (s : State) (v : Word) (n : Nat) : (s.hostGot v n).blkidxLo = s.blkidxLo := rfl
@[simp] theorem State.hostGot_blkidxHi (s : State) (v : Word) (n : Nat) : (s.hostGot v n).blkidxHi = s.blkidxHi := rfl
@[simp] theorem State.hostGot_fvekStage (s : State) (v : Word) (n : Nat) : (s.hostGot v n).fvekStage = s.fvekStage := rfl
@[simp] theorem State.hostGot_tweakStage (s : State) (v : Word) (n : Nat) : (s.hostGot v n).tweakStage = s.tweakStage := rfl
@[simp] theorem State.hostGot_iv (s : State) (v : Word) (n : Nat) : (s.hostGot v n).iv = s.iv := rfl
@[simp] theorem State.hostGot_salt (s : State) (v : Word) (n : Nat) : (s.hostGot v n).salt = s.salt := rfl
@[simp] theorem State.hostGot_pwhash (s : State) (v : Word) (n : Nat) : (s.hostGot v n).pwhash = s.pwhash := rfl
@[simp] theorem State.hostGot_dkey (s : State) (v : Word) (n : Nat) : (s.hostGot v n).dkey = s.dkey := rfl
@[simp] theorem State.hostGot_mem (s : State) (v : Word) (n : Nat) : (s.hostGot v n).mem = s.mem := rfl
@[simp] theorem State.hostGot_hidden (s : State) (v : Word) (n : Nat) : (s.hostGot v n).hidden = s.hidden := rfl
@[simp] theorem State.hostGot_engine (s : State) (v : Word) (n : Nat) : (s.hostGot v n).engine = s.engine := rfl
@[simp] theorem State.hostGot_host (s : State) (v : Word) (n : Nat) : (s.hostGot v n).host = { s.host with reads := v :: s.host.reads, pc := n } := rfl
@[simp] theorem State.hostGot_draws (s : State) (v : Word) (n : Nat) : (s.hostGot v n).draws = s.draws := rfl

/-! ## `State.clearSector` -/

@[simp] theorem State.clearSector_cfg (s : State) : (s.clearSector).cfg = s.cfg := rfl
@[simp] theorem State.clearSector_ieDone (s : State) : (s.clearSector).ieDone = s.ieDone := rfl
@[simp] theorem State.clearSector_ieErr (s : State) : (s.clearSector).ieErr = s.ieErr := rfl
@[simp] theorem State.clearSector_ieOvr (s : State) : (s.clearSector).ieOvr = s.ieOvr := rfl
@[simp] theorem State.clearSector_done (s : State) : (s.clearSector).done = s.done := rfl
@[simp] theorem State.clearSector_err (s : State) : (s.clearSector).err = s.err := rfl
@[simp] theorem State.clearSector_ovr (s : State) : (s.clearSector).ovr = s.ovr := rfl
@[simp] theorem State.clearSector_error (s : State) : (s.clearSector).error = s.error := rfl
@[simp] theorem State.clearSector_ctx (s : State) : (s.clearSector).ctx = s.ctx := rfl
@[simp] theorem State.clearSector_sectorSize (s : State) : (s.clearSector).sectorSize = s.sectorSize := rfl
@[simp] theorem State.clearSector_length (s : State) : (s.clearSector).length = s.length := rfl
@[simp] theorem State.clearSector_blkidxLo (s : State) : (s.clearSector).blkidxLo = s.blkidxLo := rfl
@[simp] theorem State.clearSector_blkidxHi (s : State) : (s.clearSector).blkidxHi = s.blkidxHi := rfl
@[simp] theorem State.clearSector_fvekStage (s : State) : (s.clearSector).fvekStage = s.fvekStage := rfl
@[simp] theorem State.clearSector_tweakStage (s : State) : (s.clearSector).tweakStage = s.tweakStage := rfl
@[simp] theorem State.clearSector_iv (s : State) : (s.clearSector).iv = s.iv := rfl
@[simp] theorem State.clearSector_salt (s : State) : (s.clearSector).salt = s.salt := rfl
@[simp] theorem State.clearSector_pwhash (s : State) : (s.clearSector).pwhash = s.pwhash := rfl
@[simp] theorem State.clearSector_dkey (s : State) : (s.clearSector).dkey = s.dkey := rfl
@[simp] theorem State.clearSector_mem (s : State) : (s.clearSector).mem = s.mem := rfl
@[simp] theorem State.clearSector_hidden (s : State) : (s.clearSector).hidden = s.hidden.clearSector := rfl
@[simp] theorem State.clearSector_engine (s : State) : (s.clearSector).engine = s.engine := rfl
@[simp] theorem State.clearSector_host (s : State) : (s.clearSector).host = s.host := rfl
@[simp] theorem State.clearSector_draws (s : State) : (s.clearSector).draws = s.draws := rfl
@[simp] theorem State.clearSector_operands (s : State) : s.clearSector.operands = s.operands := rfl
@[simp] theorem State.clearSector_readIbuf (s : State) (n : Nat) : s.clearSector.readIbuf n = s.readIbuf n := rfl
@[simp] theorem Hidden.zero_clearSector : Hidden.zero.clearSector = Hidden.zero := rfl
@[simp] theorem Hidden.zero_clearKdf : Hidden.zero.clearKdf = Hidden.zero := rfl

/-! ## `State.fresh`, which both resets are -/

@[simp] theorem State.fresh_cfg (cfg : Params) (mem : Memory) (host : HostSide) (draws : Nat) :
    (State.fresh cfg mem host draws).cfg = cfg := rfl
@[simp] theorem State.fresh_ieDone (cfg : Params) (mem : Memory) (host : HostSide) (draws : Nat) :
    (State.fresh cfg mem host draws).ieDone = false := rfl
@[simp] theorem State.fresh_ieErr (cfg : Params) (mem : Memory) (host : HostSide) (draws : Nat) :
    (State.fresh cfg mem host draws).ieErr = false := rfl
@[simp] theorem State.fresh_ieOvr (cfg : Params) (mem : Memory) (host : HostSide) (draws : Nat) :
    (State.fresh cfg mem host draws).ieOvr = false := rfl
@[simp] theorem State.fresh_done (cfg : Params) (mem : Memory) (host : HostSide) (draws : Nat) :
    (State.fresh cfg mem host draws).done = false := rfl
@[simp] theorem State.fresh_err (cfg : Params) (mem : Memory) (host : HostSide) (draws : Nat) :
    (State.fresh cfg mem host draws).err = false := rfl
@[simp] theorem State.fresh_ovr (cfg : Params) (mem : Memory) (host : HostSide) (draws : Nat) :
    (State.fresh cfg mem host draws).ovr = false := rfl
@[simp] theorem State.fresh_error (cfg : Params) (mem : Memory) (host : HostSide) (draws : Nat) :
    (State.fresh cfg mem host draws).error = 0 := rfl
@[simp] theorem State.fresh_ctx (cfg : Params) (mem : Memory) (host : HostSide) (draws : Nat) :
    (State.fresh cfg mem host draws).ctx = Context.absent := rfl
@[simp] theorem State.fresh_sectorSize (cfg : Params) (mem : Memory) (host : HostSide) (draws : Nat) :
    (State.fresh cfg mem host draws).sectorSize = 0x0200 := rfl
@[simp] theorem State.fresh_length (cfg : Params) (mem : Memory) (host : HostSide) (draws : Nat) :
    (State.fresh cfg mem host draws).length = 0 := rfl
@[simp] theorem State.fresh_blkidxLo (cfg : Params) (mem : Memory) (host : HostSide) (draws : Nat) :
    (State.fresh cfg mem host draws).blkidxLo = 0 := rfl
@[simp] theorem State.fresh_blkidxHi (cfg : Params) (mem : Memory) (host : HostSide) (draws : Nat) :
    (State.fresh cfg mem host draws).blkidxHi = 0 := rfl
@[simp] theorem State.fresh_fvekStage (cfg : Params) (mem : Memory) (host : HostSide) (draws : Nat) :
    (State.fresh cfg mem host draws).fvekStage = zeroReg 32 := rfl
@[simp] theorem State.fresh_tweakStage (cfg : Params) (mem : Memory) (host : HostSide) (draws : Nat) :
    (State.fresh cfg mem host draws).tweakStage = zeroReg 32 := rfl
@[simp] theorem State.fresh_iv (cfg : Params) (mem : Memory) (host : HostSide) (draws : Nat) :
    (State.fresh cfg mem host draws).iv = zeroReg 16 := rfl
@[simp] theorem State.fresh_salt (cfg : Params) (mem : Memory) (host : HostSide) (draws : Nat) :
    (State.fresh cfg mem host draws).salt = zeroReg 16 := rfl
@[simp] theorem State.fresh_pwhash (cfg : Params) (mem : Memory) (host : HostSide) (draws : Nat) :
    (State.fresh cfg mem host draws).pwhash = zeroReg 32 := rfl
@[simp] theorem State.fresh_dkey (cfg : Params) (mem : Memory) (host : HostSide) (draws : Nat) :
    (State.fresh cfg mem host draws).dkey = zeroReg 32 := rfl
@[simp] theorem State.fresh_mem (cfg : Params) (mem : Memory) (host : HostSide) (draws : Nat) :
    (State.fresh cfg mem host draws).mem = mem := rfl
@[simp] theorem State.fresh_hidden (cfg : Params) (mem : Memory) (host : HostSide) (draws : Nat) :
    (State.fresh cfg mem host draws).hidden = Hidden.zero := rfl
@[simp] theorem State.fresh_engine (cfg : Params) (mem : Memory) (host : HostSide) (draws : Nat) :
    (State.fresh cfg mem host draws).engine = .idle := rfl
@[simp] theorem State.fresh_host (cfg : Params) (mem : Memory) (host : HostSide) (draws : Nat) :
    (State.fresh cfg mem host draws).host = host := rfl
@[simp] theorem State.fresh_draws (cfg : Params) (mem : Memory) (host : HostSide) (draws : Nat) :
    (State.fresh cfg mem host draws).draws = draws := rfl

/-! ## The views that follow the engine -/

@[simp] theorem State.isBusy_idle (s : State) (h : s.engine = .idle) : s.isBusy = false := by simp [State.isBusy, h]

@[simp] theorem State.isBusy_busy (s : State) (cw : Word) (snap : Snapshot) (left : Nat)
    (h : s.engine = .busy cw snap left) : s.isBusy = true := by simp [State.isBusy, h]

/-- The engine is busy exactly when it holds a command word. -/
theorem State.isBusy_iff (s : State) : s.isBusy = true ↔ ∃ cw snap left, s.engine = .busy cw snap left := by
  cases h : s.engine <;> simp [State.isBusy, h]

/-- A busy engine works on its snapshot. -/
theorem State.operands_busy (s : State) (cw : Word) (snap : Snapshot) (left : Nat)
    (h : s.engine = .busy cw snap left) : s.operands = snap := by simp [State.operands, h]

/-- An idle engine has the current registers as operands. -/
theorem State.operands_idle (s : State) (h : s.engine = .idle) : s.operands = s.takeSnapshot := by
  simp [State.operands, h]

end Sys2Proof.Machine
end

