-- ==== Sys2Proof/Laws/Commands.lean ====
section
/-! SUPPORT. What the shared operations of the commands can do, each said once; later proofs cite these instead of
unfolding the operation. -/

namespace Sys2Proof.Machine

/-- A rejected command answers the state with the report, and nothing else. -/
@[simp] theorem reject_eq (s : State) (i : Instr) (e : CmdError) : reject s i e = .next (s.failWith i.opc e) := rfl

/-- A read of IBUF[0:n] answers the operands' bytes exactly when all are known. -/
theorem State.readIbuf_eq_some (s : State) (n : Nat) (x : List Byte) :
    s.readIbuf n = some x ↔ x.length = n ∧ ∀ k, k < n → s.operands.mem.read (ibufBase + k) = x[k]? :=
  Memory.readBytes_eq_some _ _ _ _

/-- A read of IBUF[0:n] fails exactly when a byte is Unknown. -/
theorem State.readIbuf_eq_none (s : State) (n : Nat) :
    s.readIbuf n = none ↔ ∃ k, k < n ∧ s.operands.mem.read (ibufBase + k) = none :=
  Memory.readBytes_eq_none _ _ _

theorem withInput_some (s : State) (n : Nat) (k : List Byte → Host.Outcome State Fault Refusal) (x : List Byte)
    (h : s.readIbuf n = some x) : withInput s n k = k x := by simp [withInput, h]

theorem withInput_none (s : State) (n : Nat) (k : List Byte → Host.Outcome State Fault Refusal)
    (h : s.readIbuf n = none) : withInput s n k = .fault .unknownInput := by simp [withInput, h]

/-- Everything reading IBUF can do: all bytes are known and the command goes on with them, or it is a model fault. -/
theorem withInput_cases (s : State) (n : Nat) (k : List Byte → Host.Outcome State Fault Refusal) :
    (∃ x, s.readIbuf n = some x ∧ withInput s n k = k x) ∨
    (s.readIbuf n = none ∧ withInput s n k = .fault .unknownInput) := by
  cases h : s.readIbuf n with
  | none => exact .inr ⟨rfl, withInput_none s n k h⟩
  | some x => exact .inl ⟨x, rfl, withInput_some s n k x h⟩

/-- Everything a buffer transform can do: succeed and write OBUF[0:n], fail and leave OBUF[0:n] Unknown, or fault. -/
theorem transformBuffer_cases (s : State) (i : Instr) (n : Nat) (f : List Byte → Except CmdError (List Byte)) :
    (∃ x y, s.readIbuf n = some x ∧ f x = .ok y ∧ transformBuffer s i n f = .next (s.writeObuf y).succeed) ∨
    (∃ x e, s.readIbuf n = some x ∧ f x = .error e ∧
      transformBuffer s i n f = .next ((s.forgetObuf n).failWith i.opc e)) ∨
    (s.readIbuf n = none ∧ transformBuffer s i n f = .fault .unknownInput) := by
  cases hx : s.readIbuf n with
  | none => exact .inr (.inr ⟨rfl, by simp only [transformBuffer, withInput, hx]⟩)
  | some x =>
    cases hf : f x with
    | ok y => exact .inl ⟨x, y, rfl, hf, by simp only [transformBuffer, withInput, hx, hf]⟩
    | error e => exact .inr (.inl ⟨x, e, rfl, hf, by simp only [transformBuffer, withInput, hx, hf]⟩)

/-- Everything the length checks can answer (R131): no cause applies, or the first that does. -/
theorem lengthCheck_eq_none (cap len : Nat) (minOne : Bool) (granule : Nat) (sector : Option Nat) :
    lengthCheck cap len minOne granule sector = none ↔
      len ≤ cap ∧ (minOne = true → len ≠ 0) ∧ len % granule = 0 ∧ ∀ n, sector = some n → len = n := by
  unfold lengthCheck
  split
  · simp; omega
  · split
    · next h => simp [h.1, h.2]
    · split
      · next h => simp [h]
      · cases sector with
        | none => simp_all
        | some n => by_cases hn : len = n <;> simp_all

/-- A failing length check is a report of the DECODER unit with code INVALID_INPUT_SIZE. -/
theorem lengthCheck_eq_some (cap len : Nat) (minOne : Bool) (granule : Nat) (sector : Option Nat) (e : CmdError)
    (h : lengthCheck cap len minOne granule sector = some e) :
    (cap < len ∧ e = errLength .lengthTooLarge) ∨
    (len ≤ cap ∧ minOne = true ∧ len = 0 ∧ e = errLength .lengthZero) ∨
    (len ≤ cap ∧ len % granule ≠ 0 ∧ e = errLength .lengthNotMultiple) ∨
    (len ≤ cap ∧ len % granule = 0 ∧ ∃ n, sector = some n ∧ len ≠ n ∧ e = errLength .lengthNotSector) := by
  unfold lengthCheck at h
  split at h
  · next hc => exact .inl ⟨hc, (Option.some.inj h).symm⟩
  · next hc =>
    have hle : len ≤ cap := by omega
    split at h
    · next hz => exact .inr (.inl ⟨hle, hz.1, hz.2, (Option.some.inj h).symm⟩)
    · split at h
      · next hm => exact .inr (.inr (.inl ⟨hle, hm, (Option.some.inj h).symm⟩))
      · next hm =>
        cases sector with
        | none => simp at h
        | some n =>
          by_cases hn : len = n
          · simp [hn] at h
          · exact .inr (.inr (.inr ⟨hle, by simpa using hm, n, rfl, hn, by simpa [hn] using h.symm⟩))

/-- A failing length check's report, whichever cause it names. -/
theorem lengthCheck_mem (cap len : Nat) (minOne : Bool) (granule : Nat) (sector : Option Nat) (e : CmdError)
    (h : lengthCheck cap len minOne granule sector = some e) :
    e = errLength .lengthTooLarge ∨ (minOne = true ∧ e = errLength .lengthZero) ∨
    (granule ≠ 1 ∧ e = errLength .lengthNotMultiple) ∨ (sector ≠ none ∧ e = errLength .lengthNotSector) := by
  rcases lengthCheck_eq_some _ _ _ _ _ _ h with ⟨_, he⟩ | ⟨_, hm, _, he⟩ | ⟨_, hg, he⟩ | ⟨_, _, n, hn, _, he⟩
  · exact .inl he
  · exact .inr (.inl ⟨hm, he⟩)
  · exact .inr (.inr (.inl ⟨fun h1 => hg (by rw [h1, Nat.mod_one]), he⟩))
  · exact .inr (.inr (.inr ⟨by simp [hn], he⟩))

/-- The two directions of a MODE that is no reserved value. -/
theorem directionOf_cases (m : Mode) : directionOf m = none ∨ ∃ d, directionOf m = some d := by
  cases directionOf m <;> simp

/-- What the checks of ECB answer, in their order (R124, R131): a report, or the direction of a valid context. -/
theorem ecbChecks_cases (mode : Mode) (o : Snapshot) :
    (∃ e, ecbChecks mode o = .error e ∧ e ∈ [errUnsupportedMode, errNoContext]) ∨
    ∃ d, ecbChecks mode o = .ok d ∧ directionOf mode = some d ∧ o.ctx.valid = true := by
  rcases directionOf_cases mode with hd | ⟨d, hd⟩
  · exact .inl ⟨errUnsupportedMode, by simp [ecbChecks, hd], by simp⟩
  · cases hv : o.ctx.valid with
    | false => exact .inl ⟨errNoContext, by simp [ecbChecks, hd, hv], by simp⟩
    | true => exact .inr ⟨d, by simp [ecbChecks, hd, hv], hd, rfl⟩

/-- What the checks of CBC answer (R171). -/
theorem cbcChecks_cases (cap : Nat) (mode : Mode) (o : Snapshot) :
    (∃ e, cbcChecks cap mode o = .error e ∧
      e ∈ [errUnsupportedMode, errNoContext, errLength .lengthTooLarge, errLength .lengthNotMultiple]) ∨
    ∃ d, cbcChecks cap mode o = .ok d ∧ directionOf mode = some d ∧ o.ctx.valid = true ∧
      o.length.toNat ≤ cap ∧ o.length.toNat % 16 = 0 := by
  rcases ecbChecks_cases mode o with ⟨e, hc, hm⟩ | ⟨d, hc, hd, hv⟩
  · refine .inl ⟨e, by simp [cbcChecks, hc], ?_⟩
    simp only [List.mem_cons] at hm ⊢
    tauto
  · cases hl : lengthCheck cap o.length.toNat false 16 none with
    | some e =>
      refine .inl ⟨e, by simp [cbcChecks, hc, hl], ?_⟩
      rcases lengthCheck_mem _ _ _ _ _ _ hl with rfl | ⟨h1, _⟩ | ⟨_, rfl⟩ | ⟨h1, _⟩ <;> first | (simp; done) | simp at h1
    | none =>
      obtain ⟨hcap, _, h16, _⟩ := (lengthCheck_eq_none _ _ _ _ _).1 hl
      exact .inr ⟨d, by simp [cbcChecks, hc, hl], hd, hv, hcap, h16⟩

/-- What the checks of DIFFA and DIFFB answer (R210, R211). -/
theorem diffuserChecks_cases (cap : Nat) (mode : Mode) (o : Snapshot) :
    (∃ e, diffuserChecks cap mode o = .error e ∧
      e ∈ [errUnsupportedMode, errLength .lengthTooLarge, errLength .lengthZero, errLength .lengthNotMultiple]) ∨
    ∃ d, diffuserChecks cap mode o = .ok d ∧ directionOf mode = some d ∧ o.length.toNat ≤ cap ∧ o.length.toNat ≠ 0 ∧
      o.length.toNat % 16 = 0 := by
  rcases directionOf_cases mode with hd | ⟨d, hd⟩
  · exact .inl ⟨errUnsupportedMode, by simp [diffuserChecks, hd], by simp⟩
  · cases hl : lengthCheck cap o.length.toNat true 16 none with
    | some e =>
      refine .inl ⟨e, by simp [diffuserChecks, hd, hl], ?_⟩
      rcases lengthCheck_mem _ _ _ _ _ _ hl with rfl | ⟨_, rfl⟩ | ⟨_, rfl⟩ | ⟨h1, _⟩ <;> first | (simp; done) | simp at h1
    | none =>
      obtain ⟨hcap, h0, h16, _⟩ := (lengthCheck_eq_none _ _ _ _ _).1 hl
      exact .inr ⟨d, by simp [diffuserChecks, hd, hl], hd, hcap, h0 rfl, h16⟩

/-- What the checks of CRYPT answer (R300). -/
theorem cryptChecks_cases (cap : Nat) (mode : Mode) (o : Snapshot) :
    (∃ e, cryptChecks cap mode o = .error e ∧
      e ∈ [errUnsupportedMode, errNoContext, errUnsupportedMethod, errLength .lengthTooLarge, errLength .lengthZero,
        errLength .lengthNotMultiple, errLength .lengthNotSector]) ∨
    ∃ d cls, cryptChecks cap mode o = .ok (d, cls) ∧ directionOf mode = some d ∧ o.ctx.valid = true ∧
      classify o.ctx.method = some cls ∧ o.length.toNat ≤ cap ∧ o.length.toNat ≠ 0 ∧ o.length.toNat % 16 = 0 ∧
      (cls.usesDiffuser = true → o.length.toNat = o.sectorSize.toNat) := by
  rcases ecbChecks_cases mode o with ⟨e, hc, hm⟩ | ⟨d, hc, hd, hv⟩
  · refine .inl ⟨e, by simp [cryptChecks, hc], ?_⟩
    simp only [List.mem_cons] at hm ⊢
    tauto
  · cases hcls : classify o.ctx.method with
    | none => exact .inl ⟨errUnsupportedMethod, by simp [cryptChecks, hc, hcls], by simp⟩
    | some cls =>
      cases hl : lengthCheck cap o.length.toNat true 16 (sectorOperand cls o) with
      | some e =>
        refine .inl ⟨e, by simp [cryptChecks, hc, hcls, hl], ?_⟩
        rcases lengthCheck_mem _ _ _ _ _ _ hl with rfl | ⟨_, rfl⟩ | ⟨_, rfl⟩ | ⟨_, rfl⟩ <;> simp
      | none =>
        obtain ⟨hcap, h0, h16, hs⟩ := (lengthCheck_eq_none _ _ _ _ _).1 hl
        exact .inr ⟨d, cls, by simp [cryptChecks, hc, hcls, hl], hd, hv, rfl, hcap, h0 rfl, h16, fun hu =>
          hs _ (by simp [sectorOperand, hu])⟩

/-- Everything a use of a sub-context can do (R164, R166). -/
theorem ecb_cases (c : Context) (S : SubId) (x : Block) :
    (c.sub S = .unset ∧ ecb c S x = .error (errKeyNotSet S)) ∨
    (∃ k, c.sub S = .keyed k ∧ ecb c S x = .ok (blockTransform S k x)) := by
  cases h : c.sub S with
  | unset => exact .inl ⟨rfl, by simp [ecb, h]⟩
  | keyed k => exact .inr ⟨k, rfl, by simp [ecb, h]⟩

theorem cbcEnc_keyed (c : Context) (S : SubId) (iv : Block) (p : List Byte) (k : AesKey) (h : c.sub S = .keyed k) :
    cbcEnc c S iv p = .ok (bytesOfBlocks (chainEncrypt (blockTransform S k) iv (blocksOf (p.length / 16) p))) := by
  simp [cbcEnc, h]

theorem cbcDec_keyed (c : Context) (S : SubId) (iv : Block) (p : List Byte) (k : AesKey) (h : c.sub S = .keyed k) :
    cbcDec c S iv p = .ok (bytesOfBlocks (chainDecrypt (blockTransform S k) iv (blocksOf (p.length / 16) p))) := by
  simp [cbcDec, h]

theorem cbcEnc_unset (c : Context) (S : SubId) (iv : Block) (p : List Byte) (h : c.sub S = .unset) :
    cbcEnc c S iv p = .error (errKeyNotSet S) := by simp [cbcEnc, h]

theorem cbcDec_unset (c : Context) (S : SubId) (iv : Block) (p : List Byte) (h : c.sub S = .unset) :
    cbcDec c S iv p = .error (errKeyNotSet S) := by simp [cbcDec, h]

/-- The supported methods (R270), each with its class. -/
theorem classify_eq_some (m : BitVec 16) (cls : MethodClass) (h : classify m = some cls) :
    (m = 0x8000 ∧ cls = ⟨128, true, true⟩) ∨ (m = 0x8001 ∧ cls = ⟨256, true, true⟩) ∨
    (m = 0x8002 ∧ cls = ⟨128, false, false⟩) ∨ (m = 0x8003 ∧ cls = ⟨256, false, false⟩) := by
  unfold classify at h
  split at h
  · next hm => exact .inl ⟨hm, (Option.some.inj h).symm⟩
  · split at h
    · next hm => exact .inr (.inl ⟨hm, (Option.some.inj h).symm⟩)
    · split at h
      · next hm => exact .inr (.inr (.inl ⟨hm, (Option.some.inj h).symm⟩))
      · split at h
        · next hm => exact .inr (.inr (.inr ⟨hm, (Option.some.inj h).symm⟩))
        · simp at h

/-- A bus access inside the window that is 32 bits wide and aligned reaches its offset. -/
theorem locate_word (cfg : Params) (off : Nat) (h : off < 0x4000) (ha : off % 4 = 0) :
    locate cfg .w32 (cfg.base + off) = .ok off := by
  unfold locate
  have h1 : ¬(cfg.base + off < cfg.base ∨ cfg.base + 0x4000 ≤ cfg.base + off) := by omega
  have h2 : cfg.base + off - cfg.base = off := by omega
  rw [if_neg h1, h2, if_pos ⟨rfl, ha⟩]

/-- Every host access that is no fault is an aligned 32-bit access inside the window. -/
theorem locate_eq_ok (cfg : Params) (w : Width) (addr off : Nat) (h : locate cfg w addr = .ok off) :
    w = .w32 ∧ addr = cfg.base + off ∧ off < 0x4000 ∧ off % 4 = 0 := by
  unfold locate at h
  split at h
  · simp at h
  · next hr =>
    split at h
    · next hw =>
      obtain rfl := Except.ok.inj h
      exact ⟨hw.1, by omega, by omega, hw.2⟩
    · simp at h

/-- Everything a host read can answer: the register's value and a state in which only the count of draws moved. -/
theorem hostRead_eq_ok (s : State) (w : Width) (addr : Nat) (v : Word) (t : State)
    (h : hostRead s w addr = .ok (v, t)) :
    ∃ off, locate s.cfg w addr = .ok off ∧
      (s.isBusy && readHazard (targetOf s.cfg.bufBytes off)) = false ∧
      v = readTarget s (targetOf s.cfg.bufBytes off) ∧
      t = { s with draws := s.draws + readDraws (targetOf s.cfg.bufBytes off) } := by
  unfold hostRead at h
  cases hl : locate s.cfg w addr with
  | error f => simp [hl] at h
  | ok off =>
    simp only [hl] at h
    split at h
    · simp at h
    · next hb =>
      obtain ⟨rfl, rfl⟩ := Prod.mk.inj (Except.ok.inj h)
      exact ⟨off, rfl, by simpa using hb, rfl, rfl⟩

/-- Everything a host write can answer: the register's write behaviour, where it is no hazard. -/
theorem hostWrite_eq_ok (s : State) (w : Width) (addr : Nat) (v : Word) (t : State)
    (h : hostWrite s w addr v = .ok t) :
    ∃ off, locate s.cfg w addr = .ok off ∧
      (s.isBusy && writeHazard (targetOf s.cfg.bufBytes off)) = false ∧
      t = writeTarget s (targetOf s.cfg.bufBytes off) v := by
  unfold hostWrite at h
  cases hl : locate s.cfg w addr with
  | error f => simp [hl] at h
  | ok off =>
    simp only [hl] at h
    split at h
    · simp at h
    · next hb => exact ⟨off, rfl, by simpa using hb, (Except.ok.inj h).symm⟩

end Sys2Proof.Machine
end

