-- ==== Sys2Proof/Laws/Encoding.lean ====
section
/-! SUPPORT. The fields of a command word, each read back from the word that was built of them. -/

namespace Sys2Proof

theorem append_toNat {n m : Nat} (x : BitVec n) (y : BitVec m) : (x ++ y).toNat = x.toNat * 2 ^ m + y.toNat := by
  rw [BitVec.toNat_append, Nat.shiftLeft_eq, Nat.mul_comm, ← Nat.two_pow_add_eq_or_of_lt y.isLt]

/-- The value of a command word, field by field (R120). -/
theorem commandWord_toNat (i : BitVec 16) (k : BitVec 1) (m : BitVec 2) (o : Byte) :
    (commandWord i k m o).toNat = i.toNat * 65536 + k.toNat * 1024 + m.toNat * 256 + o.toNat := by
  have h1 := append_toNat i (0 : BitVec 5)
  have h2 := append_toNat (i ++ (0 : BitVec 5)) k
  have h3 := append_toNat (i ++ (0 : BitVec 5) ++ k) m
  have h0 : (0 : BitVec 5).toNat = 0 := rfl
  refine Eq.trans (append_toNat (i ++ (0 : BitVec 5) ++ k ++ m) o) ?_
  omega

@[simp] theorem cwOpc_commandWord (i : BitVec 16) (k : BitVec 1) (m : BitVec 2) (o : Byte) :
    cwOpc (commandWord i k m o) = o := by
  apply BitVec.eq_of_toNat_eq
  simp only [cwOpc, BitVec.extractLsb'_toNat, commandWord_toNat, Nat.shiftRight_eq_div_pow]
  omega

@[simp] theorem cwMode_commandWord (i : BitVec 16) (k : BitVec 1) (m : BitVec 2) (o : Byte) :
    cwMode (commandWord i k m o) = m := by
  apply BitVec.eq_of_toNat_eq
  simp only [cwMode, BitVec.extractLsb'_toNat, commandWord_toNat, Nat.shiftRight_eq_div_pow]
  omega

@[simp] theorem cwKsel_commandWord (i : BitVec 16) (k : BitVec 1) (m : BitVec 2) (o : Byte) :
    cwKsel (commandWord i k m o) = k := by
  apply BitVec.eq_of_toNat_eq
  simp only [cwKsel, BitVec.extractLsb'_toNat, commandWord_toNat, Nat.shiftRight_eq_div_pow]
  omega

@[simp] theorem cwRsv_commandWord (i : BitVec 16) (k : BitVec 1) (m : BitVec 2) (o : Byte) :
    cwRsv (commandWord i k m o) = 0 := by
  apply BitVec.eq_of_toNat_eq
  simp only [cwRsv, BitVec.extractLsb'_toNat, commandWord_toNat, Nat.shiftRight_eq_div_pow]
  show _ = 0
  omega

@[simp] theorem cwImm16_commandWord (i : BitVec 16) (k : BitVec 1) (m : BitVec 2) (o : Byte) :
    cwImm16 (commandWord i k m o) = i := by
  apply BitVec.eq_of_toNat_eq
  simp only [cwImm16, BitVec.extractLsb'_toNat, commandWord_toNat, Nat.shiftRight_eq_div_pow]
  omega

/-- A command word is determined by its five fields. -/
theorem commandWord_fields (cw : Word) (h : cwRsv cw = 0) :
    commandWord (cwImm16 cw) (cwKsel cw) (cwMode cw) (cwOpc cw) = cw := by
  apply BitVec.eq_of_toNat_eq
  have hr : (cwRsv cw).toNat = 0 := by rw [h]; rfl
  simp only [cwOpc, cwMode, cwKsel, cwImm16, cwRsv, BitVec.extractLsb'_toNat, commandWord_toNat,
    Nat.shiftRight_eq_div_pow] at hr ⊢
  have := cw.isLt
  omega

end Sys2Proof
end

