-- ==== Sys2Proof/Laws/Frames.lean ====
section
/-! SUPPORT. What a rejected command and a buffer transform leave, in the terms of `Safety`: each said once, for every
command that ends in one of them. -/

namespace Sys2Proof.Machine

theorem sameHostRegisters_refl (s : State) : sameHostRegisters s s := by simp [sameHostRegisters]

theorem sameSecrets_refl (s : State) : sameSecrets s s := by simp [sameSecrets, sameStaging]

/-- An error report changes nothing but the report and, where they were cleared before it, the hidden buffers (R345). -/
theorem State.failWith_leavesOnlyReport (s : State) (h : Hidden) (opc : Byte) (e : CmdError) :
    leavesOnlyReport (errorWord opc e) h s (({ s with hidden := h } : State).failWith opc e) := by
  simp [leavesOnlyReport, reported, sameHostRegisters, sameSecrets, sameStaging, sameBytes]

/-- ERROR.CODE of a report (R36). -/
theorem errorWord_code (opc : Byte) (e : CmdError) : (errorWord opc e).setWidth 8 = codeNum e.code := by
  apply BitVec.eq_of_toNat_eq
  have h : (errorWord opc e).toNat = _ := append_toNat (opc ++ (0 : BitVec 4) ++ unitNum e.unit ++ causeNum e.cause)
    (codeNum e.code)
  rw [BitVec.toNat_setWidth, h]
  omega

/-- ERROR.OPC of a report (R36). -/
theorem errorWord_opc (opc : Byte) (e : CmdError) : (errorWord opc e).extractLsb' 24 8 = opc := by
  apply BitVec.eq_of_toNat_eq
  have h1 := append_toNat opc (0 : BitVec 4)
  have h2 := append_toNat (opc ++ (0 : BitVec 4)) (unitNum e.unit)
  have h3 := append_toNat (opc ++ (0 : BitVec 4) ++ unitNum e.unit) (causeNum e.cause)
  have h : (errorWord opc e).toNat = _ := append_toNat (opc ++ (0 : BitVec 4) ++ unitNum e.unit ++ causeNum e.cause)
    (codeNum e.code)
  have h0 : (0 : BitVec 4).toNat = 0 := rfl
  rw [BitVec.extractLsb'_toNat, Nat.shiftRight_eq_div_pow, h, h3, h2, h1]
  omega

/-- A command that fails a check only reports. -/
theorem onlyReports_of_reject (i : Instr) (s : State) (e : CmdError) (w : Word)
    (h : exec i s = reject { s with hidden := hiddenAfter i s.hidden } i e) (hw : errorWord i.opc e = w) :
    onlyReports i s w :=
  hw ▸ ⟨_, h, s.failWith_leavesOnlyReport (hiddenAfter i s.hidden) i.opc e⟩

/-- What IBUF holds is what a command reads. -/
theorem State.readIbuf_of_ibufHolds (s : State) (x : List Byte) (h : ibufHolds s.operands x) :
    s.readIbuf x.length = some x :=
  (s.readIbuf_eq_some x.length x).2 ⟨rfl, h⟩

/-- The working buffers are no operand. -/
@[simp] theorem State.operands_hidden (s : State) (h : Hidden) : ({ s with hidden := h } : State).operands = s.operands :=
  rfl

/-- After a buffer was written, OBUF begins with what was written. -/
theorem obufHolds_writeBytes (s t : State) (y : List Byte) (h : t.mem = s.mem.writeBytes obufBase y) : obufHolds t y := by
  intro k hk
  rw [h, Memory.read_writeBytes, if_pos (by omega), Nat.add_sub_cancel_left]

/-- A buffer transform whose input is known and which succeeds only writes its output. -/
theorem onlyWritesObuf_of_transform (i : Instr) (s : State) (n : Nat) (f : List Byte → Except CmdError (List Byte))
    (hid : Hidden) (x y : List Byte) (h : exec i s = transformBuffer { s with hidden := hid } i n f)
    (hx : ibufHolds s.operands x) (hn : n = x.length) (hy : f x = .ok y) : onlyWritesObuf i s y hid := by
  subst hn
  have hr : ({ s with hidden := hid } : State).readIbuf x.length = some x := State.readIbuf_of_ibufHolds _ x hx
  refine ⟨(({ s with hidden := hid } : State).writeObuf y).succeed, ?_, ?_, ?_, ?_, rfl, ?_, ?_⟩
  · rw [h, transformBuffer, withInput_some _ _ _ _ hr, hy]
  · simp [finished]
  · simp [sameHostRegisters]
  · simp [sameSecrets, sameStaging]
  · exact obufHolds_writeBytes { s with hidden := hid } _ y rfl
  · intro a ha
    show (s.mem.writeBytes obufBase y).read a = s.mem.read a
    rw [Memory.read_writeBytes, if_neg (by omega)]

/-- A buffer transform whose input is known and which fails reports, and leaves its output Unknown. -/
theorem onlyReportsAndForgets_of_transform (i : Instr) (s : State) (n : Nat)
    (f : List Byte → Except CmdError (List Byte)) (hid : Hidden) (x : List Byte) (e : CmdError)
    (w : Word) (h : exec i s = transformBuffer { s with hidden := hid } i n f) (hx : ibufHolds s.operands x)
    (hn : n = x.length) (he : f x = .error e) (hw : errorWord i.opc e = w) : onlyReportsAndForgets i s w n hid := by
  subst hn hw
  have hr : ({ s with hidden := hid } : State).readIbuf x.length = some x := State.readIbuf_of_ibufHolds _ x hx
  refine ⟨(({ s with hidden := hid } : State).forgetObuf x.length).failWith i.opc e, ?_, ?_, ?_, ?_, rfl, ?_, ?_⟩
  · rw [h, transformBuffer, withInput_some _ _ _ _ hr, he]
  · simp [reported]
  · simp [sameHostRegisters]
  · simp [sameSecrets, sameStaging]
  · intro k hk
    show (s.mem.forget obufBase x.length).read (obufBase + k) = none
    rw [Memory.read_forget, if_pos (by omega)]
  · intro a ha
    show (s.mem.forget obufBase x.length).read a = s.mem.read a
    rw [Memory.read_forget, if_neg (by omega)]

end Sys2Proof.Machine
end

