-- ==== Sys2Proof/Laws/Sector.lean ====
section
/-! SUPPORT. The lengths of what the buffer transforms answer, and the block key and the mask of CRYPT. -/

namespace Sys2Proof.Machine

/-! ## The diffusers keep the length -/

@[simp] theorem flatMap_encLE32_length (ws : List Word) : (ws.flatMap encLE32).length = 4 * ws.length := by
  induction ws with
  | nil => rfl
  | cons w ws ih => simp [ih]; omega

theorem repeat_length {α : Type} (f : List α → List α) (hf : ∀ d, (f d).length = d.length) (n : Nat) (d : List α) :
    (Nat.repeat f n d).length = d.length := by
  induction n generalizing d with
  | zero => rfl
  | succ n ih => simp [Nat.repeat, hf, ih]

theorem onWords_length (f : Nat → List Word → List Word) (hf : ∀ n d, (f n d).length = d.length) (x : List Byte)
    (h : x.length % 16 = 0) : (onWords f x).length = x.length := by
  unfold onWords
  rw [flatMap_encLE32_length, hf, leWords_length]
  omega

theorem diffAEnc_length (x : List Byte) (h : x.length % 16 = 0) : (diffAEnc x).length = x.length :=
  onWords_length _ (fun _ _ => repeat_length _ (by simp) _ _) x h

theorem diffADec_length (x : List Byte) (h : x.length % 16 = 0) : (diffADec x).length = x.length :=
  onWords_length _ (fun _ _ => repeat_length _ (by simp) _ _) x h

theorem diffBEnc_length (x : List Byte) (h : x.length % 16 = 0) : (diffBEnc x).length = x.length :=
  onWords_length _ (fun _ _ => repeat_length _ (by simp) _ _) x h

theorem diffBDec_length (x : List Byte) (h : x.length % 16 = 0) : (diffBDec x).length = x.length :=
  onWords_length _ (fun _ _ => repeat_length _ (by simp) _ _) x h

/-! ## ECB, CBC and CRYPT keep the length -/

/-- What CBC encryption answers: the failure of an Unset sub-context, or a string as long as its input. -/
theorem cbcEnc_cases (c : Context) (S : SubId) (iv : Block) (p : List Byte) (h : p.length % 16 = 0) :
    cbcEnc c S iv p = .error (errKeyNotSet S) ∨ ∃ y, cbcEnc c S iv p = .ok y ∧ y.length = p.length := by
  cases hk : c.sub S with
  | unset => exact .inl (cbcEnc_unset c S iv p hk)
  | keyed k => exact .inr ⟨_, cbcEnc_keyed c S iv p k hk, by simp; omega⟩

theorem cbcDec_cases (c : Context) (S : SubId) (iv : Block) (p : List Byte) (h : p.length % 16 = 0) :
    cbcDec c S iv p = .error (errKeyNotSet S) ∨ ∃ y, cbcDec c S iv p = .ok y ∧ y.length = p.length := by
  cases hk : c.sub S with
  | unset => exact .inl (cbcDec_unset c S iv p hk)
  | keyed k => exact .inr ⟨_, cbcDec_keyed c S iv p k hk, by simp; omega⟩

/-- With both pairs Keyed: the IV is the block key under the FVEK, and the mask is the two block keys under the Tweak. -/
theorem sectorHidden_keyed (c : Context) (idx : BitVec 64) (fe te : AesKey) (h1 : c.fvekEnc = .keyed fe)
    (h2 : c.tweakEnc = .keyed te) :
    ∃ h, sectorHidden c idx = .ok h ∧ h.ivw = cipher fe (blockKey idx) ∧
      h.mask.toList = (cipher te (blockKey idx)).toList ++ (cipher te ((blockKey idx).set 15 0x80#8)).toList := by
  refine ⟨_, by simp only [sectorHidden, ecb, Context.sub, h1, h2, blockTransform]; rfl, rfl, ?_⟩
  have := regOfBytes_take_toList 32
    ((cipher te (blockKey idx)).toList ++ (cipher te ((blockKey idx).set 15 0x80#8)).toList) (by simp)
  rw [List.take_of_length_le (by simp)] at this
  exact this

/-- What CRYPT's algorithm can answer: KEY_NOT_SET of an encryption sub-context or of FVEK_DEC, or a string as long as
its input. -/
theorem sectorCrypt_cases (policy : NonDiffIv) (cls : MethodClass) (c : Context) (d : Direction) (idx : BitVec 64)
    (x : List Byte) (hx : x.length % 16 = 0) :
    (∃ S, sectorCrypt policy cls c d idx x = .error (errKeyNotSet S) ∧ S ≠ .tweakDec ∧
      (S = .tweakEnc → c.fvekEnc ≠ .unset ∧ c.tweakEnc = .unset ∧ cls.usesDiffuser = true)) ∨
    ∃ y, sectorCrypt policy cls c d idx x = .ok y ∧ y.length = x.length := by
  unfold sectorCrypt
  cases hu : cls.usesDiffuser with
  | true =>
    rw [if_pos rfl]
    rcases ecb_cases c .fvekEnc (blockKey idx) with ⟨_, h1⟩ | ⟨kf, hf, h1⟩
    · refine .inl ⟨.fvekEnc, ?_, by simp, by simp⟩
      simp only [sectorHidden, h1]
      rfl
    · rcases ecb_cases c .tweakEnc (blockKey idx) with ⟨h3, h2⟩ | ⟨kt, h3, h2⟩
      · refine .inl ⟨.tweakEnc, ?_, by simp, fun _ => ⟨?_, h3, rfl⟩⟩
        · simp only [sectorHidden, h1, h2]
          rfl
        · intro he
          rw [Context.sub, he] at hf
          cases hf
      · obtain ⟨h, hh, _⟩ := sectorHidden_keyed c idx kf kt hf h3
        simp only [hh]
        cases d with
        | encrypt =>
          have hl : (diffBEnc (diffAEnc (xorMask h.mask x))).length = x.length := by
            rw [diffBEnc_length _ (by rw [diffAEnc_length] <;> simpa using hx), diffAEnc_length _ (by simpa using hx),
              xorMask_length]
          rcases cbcEnc_cases c .fvekEnc h.ivw _ (by rw [hl]; exact hx) with h4 | ⟨y, h4, h5⟩
          · exact .inl ⟨.fvekEnc, h4, by simp, by simp⟩
          · exact .inr ⟨y, h4, h5.trans hl⟩
        | decrypt =>
          rcases cbcDec_cases c .fvekDec h.ivw x hx with h4 | ⟨y, h4, h5⟩
          · exact .inl ⟨.fvekDec, by simp only [decPipeline, h4], by simp, by simp⟩
          · refine .inr ⟨_, by simp only [decPipeline, h4]; rfl, ?_⟩
            rw [xorMask_length, diffADec_length _ (by rw [diffBDec_length] <;> omega), diffBDec_length _ (by omega), h5]
  | false =>
    rw [if_neg (by simp)]
    unfold nonDiffuser
    have hiv : nonDiffuserIv policy c idx = .error (errKeyNotSet .fvekEnc) ∨ ∃ iv, nonDiffuserIv policy c idx = .ok iv := by
      cases policy with
      | zero => exact .inr ⟨_, rfl⟩
      | derived =>
        rcases ecb_cases c .fvekEnc (blockKey idx) with ⟨_, h1⟩ | ⟨kf, hf, h1⟩
        · exact .inl h1
        · exact .inr ⟨_, h1⟩
    rcases hiv with h1 | ⟨iv, h1⟩
    · exact .inl ⟨.fvekEnc, by simp only [h1], by simp, by simp⟩
    · simp only [h1]
      cases d with
      | encrypt =>
        rcases cbcEnc_cases c .fvekEnc iv x hx with h4 | ⟨y, h4, h5⟩
        · exact .inl ⟨.fvekEnc, h4, by simp, by simp⟩
        · exact .inr ⟨y, h4, h5⟩
      | decrypt =>
        rcases cbcDec_cases c .fvekDec iv x hx with h4 | ⟨y, h4, h5⟩
        · exact .inl ⟨.fvekDec, h4, by simp, by simp⟩
        · exact .inr ⟨y, h4, h5⟩

/-! ## The block key and the mask, byte by byte -/

/-- Byte `k` of the little-endian encoding of a 64-bit value. -/
theorem encLE64_getD (v : BitVec 64) (k : Nat) (h : k < 8) : (encLE64 v).getD k 0#8 = (v >>> (8 * k)).setWidth 8 := by
  unfold encLE64
  rw [List.getD_eq_getElem?_getD, List.getElem?_map, List.getElem?_range h]
  simp only [Option.map_some, Option.getD_some]
  ext i hi
  simp

/-- Byte `k` of the block key: the index's byte `k`, then zeros (R304). -/
theorem blockKey_getElem (idx : BitVec 64) (k : Nat) (h : k < 16) :
    (blockKey idx)[k] = if k < 8 then (idx >>> (8 * k)).setWidth 8 else 0#8 := by
  unfold blockKey
  rw [regOfBytes_getElem]
  split
  · next h8 => exact encLE64_getD idx k h8
  · next h8 =>
    rw [List.getD_eq_getElem?_getD, List.getElem?_eq_none (by rw [encLE64_length]; omega)]
    rfl

/-- Masking with a 32-byte mask of two blocks (R307). -/
theorem isMasked_xorMask (lo hi : Block) (mask : ByteReg 32) (h : mask.toList = lo.toList ++ hi.toList)
    (x : List Byte) : isMasked lo hi x (xorMask mask x) := by
  refine ⟨by simp, fun i hi' => ?_⟩
  unfold xorMask
  rw [List.getD_eq_getElem?_getD, List.getElem?_map, h]
  simp [hi']

end Sys2Proof.Machine
end

