-- ==== Sys2Proof/Laws/Exec.lean ====
section
/-! SUPPORT. Everything a command can do, said once: the one case analysis of `exec` that later proofs cite. -/

namespace Sys2Proof.Machine

/-- `s` with the hidden buffers as the command `i` leaves them. -/
def State.leftBy (s : State) (i : Instr) : State := { s with hidden := hiddenAfter i s.hidden }

@[simp] theorem State.leftBy_cfg (s : State) (i : Instr) : (s.leftBy i).cfg = s.cfg := rfl
@[simp] theorem State.leftBy_ieDone (s : State) (i : Instr) : (s.leftBy i).ieDone = s.ieDone := rfl
@[simp] theorem State.leftBy_ieErr (s : State) (i : Instr) : (s.leftBy i).ieErr = s.ieErr := rfl
@[simp] theorem State.leftBy_ieOvr (s : State) (i : Instr) : (s.leftBy i).ieOvr = s.ieOvr := rfl
@[simp] theorem State.leftBy_done (s : State) (i : Instr) : (s.leftBy i).done = s.done := rfl
@[simp] theorem State.leftBy_err (s : State) (i : Instr) : (s.leftBy i).err = s.err := rfl
@[simp] theorem State.leftBy_ovr (s : State) (i : Instr) : (s.leftBy i).ovr = s.ovr := rfl
@[simp] theorem State.leftBy_error (s : State) (i : Instr) : (s.leftBy i).error = s.error := rfl
@[simp] theorem State.leftBy_ctx (s : State) (i : Instr) : (s.leftBy i).ctx = s.ctx := rfl
@[simp] theorem State.leftBy_sectorSize (s : State) (i : Instr) : (s.leftBy i).sectorSize = s.sectorSize := rfl
@[simp] theorem State.leftBy_length (s : State) (i : Instr) : (s.leftBy i).length = s.length := rfl
@[simp] theorem State.leftBy_blkidxLo (s : State) (i : Instr) : (s.leftBy i).blkidxLo = s.blkidxLo := rfl
@[simp] theorem State.leftBy_blkidxHi (s : State) (i : Instr) : (s.leftBy i).blkidxHi = s.blkidxHi := rfl
@[simp] theorem State.leftBy_fvekStage (s : State) (i : Instr) : (s.leftBy i).fvekStage = s.fvekStage := rfl
@[simp] theorem State.leftBy_tweakStage (s : State) (i : Instr) : (s.leftBy i).tweakStage = s.tweakStage := rfl
@[simp] theorem State.leftBy_iv (s : State) (i : Instr) : (s.leftBy i).iv = s.iv := rfl
@[simp] theorem State.leftBy_salt (s : State) (i : Instr) : (s.leftBy i).salt = s.salt := rfl
@[simp] theorem State.leftBy_pwhash (s : State) (i : Instr) : (s.leftBy i).pwhash = s.pwhash := rfl
@[simp] theorem State.leftBy_dkey (s : State) (i : Instr) : (s.leftBy i).dkey = s.dkey := rfl
@[simp] theorem State.leftBy_mem (s : State) (i : Instr) : (s.leftBy i).mem = s.mem := rfl
@[simp] theorem State.leftBy_hidden (s : State) (i : Instr) : (s.leftBy i).hidden = hiddenAfter i s.hidden := rfl
@[simp] theorem State.leftBy_engine (s : State) (i : Instr) : (s.leftBy i).engine = s.engine := rfl
@[simp] theorem State.leftBy_host (s : State) (i : Instr) : (s.leftBy i).host = s.host := rfl
@[simp] theorem State.leftBy_draws (s : State) (i : Instr) : (s.leftBy i).draws = s.draws := rfl
@[simp] theorem State.leftBy_operands (s : State) (i : Instr) : (s.leftBy i).operands = s.operands := rfl

/-- A command fails a check: its report is one of its list, and nothing else changes but CRYPT's hidden buffers. -/
def rejects (i : Instr) (s : State) : Prop := ∃ e ∈ listedReports i.opc, exec i s = .next ((s.leftBy i).failWith i.opc e)

/-- A command reads its input, and writes as many bytes to OBUF as it read. -/
def writesOutput (i : Instr) (s : State) : Prop :=
  ∃ y, y.length = outputBytes s.operands i ∧ exec i s = .next ((s.leftBy i).writeObuf y).succeed

/-- A command meets the Unset sub-context `S` after it has read its input. -/
def meetsUnset (i : Instr) (s : State) (S : SubId) : Prop :=
  exec i s = .next (((s.leftBy i).forgetObuf (outputBytes s.operands i)).failWith i.opc (errKeyNotSet S))

/-- A command consumes an Unknown byte. -/
def consumesUnknown (i : Instr) (s : State) : Prop :=
  s.readIbuf (inputBytes s.operands i) = none ∧ exec i s = .fault .unknownInput

/-- A rejected command with a listed report. -/
theorem rejects_of (i : Instr) (s : State) (e : CmdError) (h : exec i s = reject (s.leftBy i) i e)
    (he : e ∈ listedReports i.opc) : rejects i s := ⟨e, he, h⟩

/-- A buffer transform that keeps the length: the three things it can do. -/
theorem transform_outcomes (i : Instr) (s : State) (n : Nat) (f : List Byte → Except CmdError (List Byte))
    (he : exec i s = transformBuffer (s.leftBy i) i n f) (hin : inputBytes s.operands i = n)
    (hout : outputBytes s.operands i = n)
    (hf : ∀ x, x.length = n → (∃ S, f x = .error (errKeyNotSet S)) ∨ ∃ y, f x = .ok y ∧ y.length = n) :
    writesOutput i s ∨
    (∃ S x, x.length = n ∧ f x = .error (errKeyNotSet S) ∧ meetsUnset i s S) ∨ consumesUnknown i s := by
  rcases transformBuffer_cases (s.leftBy i) i n f with ⟨x, y, hx, hy, ht⟩ | ⟨x, e, hx, hy, ht⟩ | ⟨hx, ht⟩
  · have hl := ((State.readIbuf_eq_some _ _ _).1 hx).1
    rcases hf x hl with ⟨S, hS⟩ | ⟨y', hy', hl'⟩
    · rw [hS] at hy
      cases hy
    · rw [hy'] at hy
      cases hy
      exact .inl ⟨y, hl'.trans hout.symm, he.trans ht⟩
  · have hl := ((State.readIbuf_eq_some _ _ _).1 hx).1
    rcases hf x hl with ⟨S, hS⟩ | ⟨y', hy', hl'⟩
    · rw [hS] at hy
      cases hy
      refine .inr (.inl ⟨S, x, hl, hS, ?_⟩)
      unfold meetsUnset
      rw [hout]
      exact he.trans ht
    · rw [hy'] at hy
      cases hy
  · exact .inr (.inr ⟨by rw [hin]; exact hx, he.trans ht⟩)

/-! ## The commands -/

theorem execInit_cases (m : BitVec 16) (s : State) :
    rejects (.init m) s ∨
    (s.operands.ctx.valid = false ∧
      exec (.init m) s = .next (State.succeed { s with ctx := ⟨true, m, .unset, .unset, .unset, .unset⟩ })) := by
  cases h : s.operands.ctx.valid with
  | true => exact .inl (rejects_of _ _ errContextAlreadyValid (by simp [exec, execInit, h]; rfl) (by simp [listedReports, Instr.opc]))
  | false => exact .inr ⟨rfl, by simp [exec, execInit, h]⟩

theorem execFree_cases (s : State) :
    rejects .free s ∨
    (s.operands.ctx.valid = true ∧ exec .free s = .next (State.succeed { s with ctx := Context.absent })) := by
  cases h : s.operands.ctx.valid with
  | true => exact .inr ⟨rfl, by simp [exec, execFree, h]⟩
  | false => exact .inl (rejects_of _ _ errNoContext (by simp [exec, execFree, h]; rfl) (by simp [listedReports, Instr.opc]))

/-- What SETKEYS makes of the operands under a method of class `cls`, key by key. -/
theorem keyedContext_of_classify (o : Snapshot) (cls : MethodClass) (h : classify o.ctx.method = some cls) :
    ∃ kf kt, kf.bits = cls.keyBitSize ∧ kt.bits = cls.keyBitSize ∧ keyedContext o cls =
      some (if cls.usesTweak then { o.ctx with fvekEnc := .keyed kf, fvekDec := .keyed kf, tweakEnc := .keyed kt, tweakDec := .keyed kt }
        else { o.ctx with fvekEnc := .keyed kf, fvekDec := .keyed kf }) := by
  rcases classify_eq_some _ _ h with ⟨_, rfl⟩ | ⟨_, rfl⟩ | ⟨_, rfl⟩ | ⟨_, rfl⟩
  · exact ⟨.k128 _, .k128 _, rfl, rfl, by simp only [keyedContext, setKey, if_true]; rfl⟩
  · exact ⟨.k256 _, .k256 o.tweakStage, rfl, rfl, rfl⟩
  · exact ⟨.k128 _, .k128 (zeroReg 16), rfl, rfl, rfl⟩
  · exact ⟨.k256 _, .k256 (zeroReg 32), rfl, rfl, rfl⟩

theorem execSetkeys_cases (s : State) :
    rejects .setkeys s ∨
    ∃ cls c, s.operands.ctx.valid = true ∧ classify s.operands.ctx.method = some cls ∧
      keyedContext s.operands cls = some c ∧
      exec .setkeys s = .next (State.succeed { s with ctx := c, fvekStage := zeroReg 32, tweakStage := zeroReg 32 }) := by
  cases h : s.operands.ctx.valid with
  | false => exact .inl (rejects_of _ _ errNoContext (by simp [exec, execSetkeys, h]; rfl) (by simp [listedReports, Instr.opc]))
  | true =>
    cases hc : classify s.operands.ctx.method with
    | none =>
      exact .inl (rejects_of _ _ errInvalidKeySize (by simp [exec, execSetkeys, h, hc]; rfl) (by simp [listedReports, Instr.opc]))
    | some cls =>
      obtain ⟨kf, kt, _, _, hk⟩ := keyedContext_of_classify s.operands cls hc
      exact .inr ⟨cls, _, rfl, rfl, hk, by simp [exec, execSetkeys, h, hc, hk]⟩

/-- A command whose checks failed with a listed report. -/
theorem rejects_of_mem (i : Instr) (s : State) (e : CmdError) (l : List CmdError) (h : exec i s = reject (s.leftBy i) i e)
    (he : e ∈ l) (hl : ∀ e ∈ l, e ∈ listedReports i.opc) : rejects i s := rejects_of i s e h (hl e he)

theorem execEcb_cases (mode : Mode) (k : KeySel) (s : State) :
    rejects (.ecb mode k) s ∨ writesOutput (.ecb mode k) s ∨
    (∃ S, meetsUnset (.ecb mode k) s S) ∨ consumesUnknown (.ecb mode k) s := by
  rcases ecbChecks_cases mode s.operands with ⟨e, hc, hm⟩ | ⟨d, hc, _, _⟩
  · exact .inl (rejects_of_mem _ _ e _ (by simp only [exec, execEcb, hc]; rfl) hm (by simp [listedReports, Instr.opc]))
  · have he : exec (.ecb mode k) s = transformBuffer (s.leftBy (.ecb mode k)) (.ecb mode k) 16
        (ecbBytes s.operands.ctx (selectSub k d)) := by
      simp only [exec, execEcb, hc]
      rfl
    rcases transform_outcomes _ s 16 _ he rfl rfl (fun x _ => by
      rcases ecb_cases s.operands.ctx (selectSub k d) (regOfBytes 16 x) with ⟨_, h1⟩ | ⟨key, _, h1⟩
      · exact .inl ⟨selectSub k d, by simp only [ecbBytes, h1]⟩
      · exact .inr ⟨(blockTransform (selectSub k d) key (regOfBytes 16 x)).toList, by simp only [ecbBytes, h1],
          by simp⟩) with h1 | ⟨S, _, _, _, h1⟩ | h1
    · exact .inr (.inl h1)
    · exact .inr (.inr (.inl ⟨S, h1⟩))
    · exact .inr (.inr (.inr h1))

theorem execCbc_cases (mode : Mode) (k : KeySel) (s : State) :
    rejects (.cbc mode k) s ∨
    (s.operands.length.toNat ≤ s.cfg.bufBytes ∧
      (writesOutput (.cbc mode k) s ∨ (∃ S, meetsUnset (.cbc mode k) s S) ∨
        consumesUnknown (.cbc mode k) s)) := by
  rcases cbcChecks_cases s.cfg.bufBytes mode s.operands with ⟨e, hc, hm⟩ | ⟨d, hc, _, _, hcap, h16⟩
  · exact .inl (rejects_of_mem _ _ e _ (by simp only [exec, execCbc, hc]; rfl) hm (by simp [listedReports, Instr.opc]))
  · have he : exec (.cbc mode k) s = transformBuffer (s.leftBy (.cbc mode k)) (.cbc mode k)
        s.operands.length.toNat (cbcBytes s.operands.ctx k d s.operands.iv) := by
      simp only [exec, execCbc, hc]
      rfl
    rcases transform_outcomes _ s _ _ he rfl rfl (fun x hx => by
      cases d with
      | encrypt =>
        rcases cbcEnc_cases s.operands.ctx (selectSub k .encrypt) s.operands.iv x (by omega) with h1 | ⟨y, h1, h2⟩
        · exact .inl ⟨_, h1⟩
        · exact .inr ⟨y, h1, h2.trans hx⟩
      | decrypt =>
        rcases cbcDec_cases s.operands.ctx (selectSub k .decrypt) s.operands.iv x (by omega) with h1 | ⟨y, h1, h2⟩
        · exact .inl ⟨_, h1⟩
        · exact .inr ⟨y, h1, h2.trans hx⟩) with h1 | ⟨S, _, _, _, h1⟩ | h1
    · exact .inr ⟨hcap, .inl h1⟩
    · exact .inr ⟨hcap, .inr (.inl ⟨S, h1⟩)⟩
    · exact .inr ⟨hcap, .inr (.inr h1)⟩

/-- DIFFA and DIFFB: they cannot meet a key. -/
theorem diffuserCommand_cases (i : Instr) (mode : Mode) (f : Direction → List Byte → List Byte) (s : State)
    (he : exec i s = diffuserCommand i mode f s) (hs : s.leftBy i = s)
    (hin : inputBytes s.operands i = s.operands.length.toNat)
    (hout : outputBytes s.operands i = s.operands.length.toNat)
    (hf : ∀ d x, x.length % 16 = 0 → (f d x).length = x.length)
    (hmem : ∀ e ∈ [errUnsupportedMode, errLength .lengthTooLarge, errLength .lengthZero, errLength .lengthNotMultiple],
      e ∈ listedReports i.opc) :
    rejects i s ∨
    (s.operands.length.toNat ≤ s.cfg.bufBytes ∧ (writesOutput i s ∨ consumesUnknown i s)) := by
  rcases diffuserChecks_cases s.cfg.bufBytes mode s.operands with ⟨e, hc, hm⟩ | ⟨d, hc, _, hcap, _, h16⟩
  · exact .inl (rejects_of_mem _ _ e _ (by simp only [he, diffuserCommand, hc, hs]) hm hmem)
  · have he' : exec i s = transformBuffer (s.leftBy i) i s.operands.length.toNat
        fun x => .ok (f d x) := by simp only [he, diffuserCommand, hc, hs]
    rcases transform_outcomes _ s _ _ he' hin hout (fun x hx =>
      .inr ⟨_, rfl, (hf d x (by omega)).trans hx⟩) with h1 | ⟨S, _, _, h2, _⟩ | h1
    · exact .inr ⟨hcap, .inl h1⟩
    · cases h2
    · exact .inr ⟨hcap, .inr h1⟩

theorem execDiffa_cases (mode : Mode) (s : State) :
    rejects (.diffa mode) s ∨
    (s.operands.length.toNat ≤ s.cfg.bufBytes ∧
      (writesOutput (.diffa mode) s ∨ consumesUnknown (.diffa mode) s)) := by
  refine diffuserCommand_cases _ mode diffA s rfl rfl rfl rfl (fun d x hx => ?_) (by simp [listedReports, Instr.opc])
  cases d
  · exact diffAEnc_length x hx
  · exact diffADec_length x hx

theorem execDiffb_cases (mode : Mode) (s : State) :
    rejects (.diffb mode) s ∨
    (s.operands.length.toNat ≤ s.cfg.bufBytes ∧
      (writesOutput (.diffb mode) s ∨ consumesUnknown (.diffb mode) s)) := by
  refine diffuserCommand_cases _ mode diffB s rfl rfl rfl rfl (fun d x hx => ?_) (by simp [listedReports, Instr.opc])
  cases d
  · exact diffBEnc_length x hx
  · exact diffBDec_length x hx

theorem execCrypt_cases (mode : Mode) (s : State) :
    rejects (.crypt mode) s ∨
    (s.operands.length.toNat ≤ s.cfg.bufBytes ∧
      (writesOutput (.crypt mode) s ∨
        (∃ S, meetsUnset (.crypt mode) s S ∧ S ≠ .tweakDec ∧
          (S = .tweakEnc → s.operands.ctx.fvekEnc ≠ .unset ∧ s.operands.ctx.tweakEnc = .unset ∧
            ∃ cls, classify s.operands.ctx.method = some cls ∧ cls.usesDiffuser = true)) ∨
        consumesUnknown (.crypt mode) s)) := by
  rcases cryptChecks_cases s.cfg.bufBytes mode s.operands with ⟨e, hc, hm⟩ | ⟨d, cls, hc, _, _, hcls, hcap, _, h16, _⟩
  · exact .inl (rejects_of_mem _ _ e _ (by simp only [exec, execCrypt, hc]; rfl) hm (by simp [listedReports, Instr.opc]))
  · have he : exec (.crypt mode) s = transformBuffer (s.leftBy (.crypt mode)) (.crypt mode)
        s.operands.length.toNat (sectorCrypt s.cfg.nonDiffIv cls s.operands.ctx d (blockIndex s.operands)) := by
      simp only [exec, execCrypt, hc]
      rfl
    have hs := fun x (hx : x.length = s.operands.length.toNat) =>
      sectorCrypt_cases s.cfg.nonDiffIv cls s.operands.ctx d (blockIndex s.operands) x (by omega)
    rcases transform_outcomes _ s _ _ he rfl rfl (fun x hx => by
      rcases hs x hx with ⟨S, h1, _⟩ | ⟨y, h1, h2⟩
      · exact .inl ⟨S, h1⟩
      · exact .inr ⟨y, h1, h2.trans hx⟩) with h1 | ⟨S, x, hx, h2, h1⟩ | h1
    · exact .inr ⟨hcap, .inl h1⟩
    · rcases hs x hx with ⟨S', h3, h4, h5⟩ | ⟨y, h3, _⟩
      · rw [h3] at h2
        have hSS : S' = S := by
          cases S' <;> cases S <;> first | rfl | (simp [errKeyNotSet, unitOf] at h2)
        subst hSS
        exact .inr ⟨hcap, .inr (.inl ⟨S', h1, h4, fun ht => ⟨(h5 ht).1, (h5 ht).2.1, cls, hcls, (h5 ht).2.2⟩⟩)⟩
      · rw [h3] at h2
        cases h2
    · exact .inr ⟨hcap, .inr (.inr h1)⟩

theorem execHash8_cases (s : State) :
    rejects .hash8 s ∨ (∃ v, exec .hash8 s = .next (State.succeed { s with pwhash := v })) ∨ consumesUnknown .hash8 s := by
  cases hl : lengthCheck s.cfg.bufBytes s.operands.length.toNat true 1 none with
  | some e =>
    refine .inl (rejects_of _ _ e (by simp [exec, execHash8, hl]; rfl) ?_)
    rcases lengthCheck_mem _ _ _ _ _ _ hl with rfl | ⟨_, rfl⟩ | ⟨h1, _⟩ | ⟨h1, _⟩ <;>
      first | (simp [listedReports, Instr.opc]; done) | simp at h1
  | none =>
    cases hx : s.readIbuf s.operands.length.toNat with
    | none => exact .inr (.inr ⟨hx, by simp only [exec, execHash8, hl, withInput, hx]⟩)
    | some x =>
      cases hu : u8to16 x with
      | none =>
        exact .inl (rejects_of _ _ errBadUtf8 (by simp only [exec, execHash8, hl, withInput, hx, hu]; rfl)
          (by simp [listedReports, Instr.opc]))
      | some u => exact .inr (.inl ⟨pwHash u, by simp only [exec, execHash8, hl, withInput, hx, hu]⟩)

theorem execHash16_cases (s : State) :
    rejects .hash16 s ∨ (∃ v, exec .hash16 s = .next (State.succeed { s with pwhash := v })) ∨ consumesUnknown .hash16 s := by
  cases hl : lengthCheck s.cfg.bufBytes s.operands.length.toNat true 2 none with
  | some e =>
    refine .inl (rejects_of _ _ e (by simp [exec, execHash16, hl]; rfl) ?_)
    rcases lengthCheck_mem _ _ _ _ _ _ hl with rfl | ⟨_, rfl⟩ | ⟨_, rfl⟩ | ⟨h1, _⟩ <;>
      first | (simp [listedReports, Instr.opc]; done) | simp at h1
  | none =>
    have he : exec .hash16 s = withInput s s.operands.length.toNat fun u =>
        .next (State.succeed { s with pwhash := pwHash u }) := by simp only [exec, execHash16, hl]
    rcases withInput_cases s s.operands.length.toNat (fun u =>
        .next (State.succeed { s with pwhash := pwHash u })) with ⟨x, hx, h1⟩ | ⟨hx, h1⟩
    · exact .inr (.inl ⟨pwHash x, he.trans h1⟩)
    · exact .inr (.inr ⟨hx, he.trans h1⟩)

theorem execCalckey_cases (s : State) :
    ∃ v, exec .calckey s = .next (State.succeed { s with dkey := v, hidden := s.hidden.clearKdf }) :=
  ⟨stretchKey s.cfg s.operands.pwhash s.operands.salt, by simp only [exec, execCalckey]⟩

/-! ## Every command at once -/

/-- SETKEYS on a context in a lifecycle state leaves one in a lifecycle state (R274). -/
theorem keyedContext_wf (o : Snapshot) (cls : MethodClass) (c : Context) (hv : o.ctx.valid = true)
    (hc : classify o.ctx.method = some cls) (hk : keyedContext o cls = some c) (hwf : o.ctx.wf) : c.wf := by
  obtain ⟨kf, kt, hb1, hb2, hk'⟩ := keyedContext_of_classify _ _ hc
  rw [hk'] at hk
  cases hk
  obtain ⟨_, w2, _, w4⟩ := hwf
  cases ht : cls.usesTweak with
  | true =>
    refine ⟨rfl, rfl, fun h => ?_, ?_⟩
    · exact absurd (hv.symm.trans h) (by simp)
    · simp [Context.keysFit, hc, hb1, hb2, ht]
  | false =>
    refine ⟨rfl, w2, fun h => ?_, ?_⟩
    · exact absurd (hv.symm.trans h) (by simp)
    · have : o.ctx.tweakEnc = .unset := by
        cases hf : o.ctx.fvekEnc with
        | unset => simpa [Context.keysFit, hf] using w4
        | keyed k =>
          cases htw : o.ctx.tweakEnc with
          | unset => rfl
          | keyed t => simp [Context.keysFit, hf, hc, htw, ht] at w4
      simp [Context.keysFit, hc, hb1, this, ht]

/-- Everything a command can do (R345, R346, R348): reject; write its output; meet an Unset sub-context; consume an
Unknown byte; or change the context, the staging groups, PWHASH and DKEY and succeed. -/
theorem exec_outcomes (i : Instr) (s : State) :
    rejects i s ∨
    ((outputBytes s.operands i ≤ s.cfg.bufBytes ∨ outputBytes s.operands i = 16) ∧ writesOutput i s) ∨
    (∃ S, meetsUnset i s S ∧ (s.operands.ctx.wf → errKeyNotSet S ∈ listedReports i.opc)) ∨
    consumesUnknown i s ∨
    (∃ c f w p d, (s.operands.ctx = s.ctx → s.ctx.wf → c.wf) ∧
      exec i s = .next (State.succeed
        { s.leftBy i with ctx := c, fvekStage := f, tweakStage := w, pwhash := p, dkey := d })) := by
  cases i with
  | init m =>
    rcases execInit_cases m s with h | ⟨_, h⟩
    · exact .inl h
    · exact .inr (.inr (.inr (.inr ⟨_, s.fvekStage, s.tweakStage, s.pwhash, s.dkey,
        fun _ _ => ⟨rfl, rfl, by simp, by simp [Context.keysFit]⟩, h⟩)))
  | free =>
    rcases execFree_cases s with h | ⟨_, h⟩
    · exact .inl h
    · exact .inr (.inr (.inr (.inr ⟨_, s.fvekStage, s.tweakStage, s.pwhash, s.dkey,
        fun _ _ => ⟨rfl, rfl, fun _ => rfl, rfl⟩, h⟩)))
  | setkeys =>
    rcases execSetkeys_cases s with h | ⟨cls, c, hv, hc, hk, h⟩
    · exact .inl h
    · exact .inr (.inr (.inr (.inr ⟨c, _, _, s.pwhash, s.dkey,
        fun ho hwf => keyedContext_wf s.operands cls c hv hc hk (ho ▸ hwf), h⟩)))
  | crypt m =>
    rcases execCrypt_cases m s with h | ⟨hb, h | ⟨S, h, hS1, hS2⟩ | h⟩
    · exact .inl h
    · exact .inr (.inl ⟨.inl hb, h⟩)
    · refine .inr (.inr (.inl ⟨S, h, fun hwf => ?_⟩))
      cases S with
      | fvekEnc => simp [listedReports, Instr.opc]
      | fvekDec => simp [listedReports, Instr.opc]
      | tweakDec => exact absurd rfl hS1
      | tweakEnc =>
        exfalso
        obtain ⟨g1, g2, cls, g3, g4⟩ := hS2 rfl
        obtain ⟨_, _, _, w4⟩ := hwf
        cases hf : s.operands.ctx.fvekEnc with
        | unset => exact g1 hf
        | keyed k =>
          simp [Context.keysFit, hf, g3, g2] at w4
          rcases classify_eq_some _ _ g3 with ⟨_, rfl⟩ | ⟨_, rfl⟩ | ⟨_, rfl⟩ | ⟨_, rfl⟩ <;> simp_all
    · exact .inr (.inr (.inr (.inl h)))
  | ecb m k =>
    rcases execEcb_cases m k s with h | h | ⟨S, h⟩ | h
    · exact .inl h
    · exact .inr (.inl ⟨.inr rfl, h⟩)
    · exact .inr (.inr (.inl ⟨S, h, fun _ => by cases S <;> simp [listedReports, Instr.opc]⟩))
    · exact .inr (.inr (.inr (.inl h)))
  | cbc m k =>
    rcases execCbc_cases m k s with h | ⟨hb, h | ⟨S, h⟩ | h⟩
    · exact .inl h
    · exact .inr (.inl ⟨.inl hb, h⟩)
    · exact .inr (.inr (.inl ⟨S, h, fun _ => by cases S <;> simp [listedReports, Instr.opc]⟩))
    · exact .inr (.inr (.inr (.inl h)))
  | diffa m =>
    rcases execDiffa_cases m s with h | ⟨hb, h | h⟩
    · exact .inl h
    · exact .inr (.inl ⟨.inl hb, h⟩)
    · exact .inr (.inr (.inr (.inl h)))
  | diffb m =>
    rcases execDiffb_cases m s with h | ⟨hb, h | h⟩
    · exact .inl h
    · exact .inr (.inl ⟨.inl hb, h⟩)
    · exact .inr (.inr (.inr (.inl h)))
  | hash8 =>
    rcases execHash8_cases s with h | ⟨v, h⟩ | h
    · exact .inl h
    · exact .inr (.inr (.inr (.inr ⟨s.ctx, s.fvekStage, s.tweakStage, v, s.dkey, fun _ h => h, h⟩)))
    · exact .inr (.inr (.inr (.inl h)))
  | hash16 =>
    rcases execHash16_cases s with h | ⟨v, h⟩ | h
    · exact .inl h
    · exact .inr (.inr (.inr (.inr ⟨s.ctx, s.fvekStage, s.tweakStage, v, s.dkey, fun _ h => h, h⟩)))
    · exact .inr (.inr (.inr (.inl h)))
  | calckey =>
    obtain ⟨v, h⟩ := execCalckey_cases s
    exact .inr (.inr (.inr (.inr ⟨s.ctx, s.fvekStage, s.tweakStage, s.pwhash, v, fun _ h => h, h⟩)))

end Sys2Proof.Machine
end

