-- ==== Sys2Proof/Laws/Host.lean ====
section
/-! SUPPORT. Everything a turn of the host, and a step, can do, said once. -/

namespace Sys2Proof.Machine

/-- A host write that goes through: where, what, and that it is no hazard. -/
theorem hostWrite_next (s : State) (w : Width) (addr : Nat) (v : Word) (t : State) (h : hostWrite s w addr v = .ok t) :
    ∃ off, addr = s.cfg.base + off ∧ off < 0x4000 ∧ off % 4 = 0 ∧
      (s.isBusy && writeHazard (targetOf s.cfg.bufBytes off)) = false ∧
      t = writeTarget s (targetOf s.cfg.bufBytes off) v := by
  obtain ⟨off, hl, hz, ht⟩ := hostWrite_eq_ok s w addr v t h
  obtain ⟨_, ha, h1, h2⟩ := locate_eq_ok s.cfg w addr off hl
  exact ⟨off, ha, h1, h2, hz, ht⟩

/-- A host read that goes through moves only the count of draws. -/
theorem hostRead_next (s : State) (w : Width) (addr : Nat) (v : Word) (t : State) (h : hostRead s w addr = .ok (v, t)) :
    ∃ d, t = { s with draws := d } := by
  obtain ⟨off, _, _, _, ht⟩ := hostRead_eq_ok s w addr v t h
  exact ⟨_, ht⟩

/-- Everything a turn of the host can do: nothing, one write, one read, or a power-on reset. -/
theorem hostTurn_cases (s t : State) (h : hostTurn s = .next t) :
    t = s ∨
    (∃ off v n, nextWrite s = some (s.cfg.base + off, v) ∧ off < 0x4000 ∧ off % 4 = 0 ∧
      (s.isBusy && writeHazard (targetOf s.cfg.bufBytes off)) = false ∧
      t = (writeTarget s (targetOf s.cfg.bufBytes off) v).hostAt n) ∨
    (∃ d v n, t = ({ s with draws := d } : State).hostGot v n) ∨
    (∃ n, s.host.prog[s.host.pc]? = some .powerOnReset ∧ t = s.powerOn.hostAt n) := by
  unfold hostTurn at h
  split at h
  · exact .inl (Host.Outcome.next.inj h).symm
  · next op hop =>
    cases op with
    | write w a v =>
      simp only [hostOp] at h
      split at h
      · cases h
      · next u hu =>
        obtain ⟨off, ha, h1, h2, h3, h4⟩ := hostWrite_next s w a v u hu
        refine .inr (.inl ⟨off, v, s.host.pc + 1, ?_, h1, h2, h3, ?_⟩)
        · simp only [nextWrite, hop, ha]
        · rw [← h4]
          exact (Host.Outcome.next.inj h).symm
    | writeLast a =>
      simp only [hostOp] at h
      split at h
      · cases h
      · next v rest hr =>
        split at h
        · cases h
        · next u hu =>
          obtain ⟨off, ha, h1, h2, h3, h4⟩ := hostWrite_next s .w32 a v u hu
          refine .inr (.inl ⟨off, v, s.host.pc + 1, ?_, h1, h2, h3, ?_⟩)
          · simp only [nextWrite, hop, hr, ha, List.head?_cons, Option.map_some]
          · rw [← h4]
            exact (Host.Outcome.next.inj h).symm
    | read w a =>
      simp only [hostOp] at h
      split at h
      · cases h
      · next v u hu =>
        obtain ⟨d, rfl⟩ := hostRead_next s w a v u hu
        exact .inr (.inr (.inl ⟨d, v, _, (Host.Outcome.next.inj h).symm⟩))
    | bnz a m tgt =>
      simp only [hostOp] at h
      split at h
      · cases h
      · next v u hu =>
        obtain ⟨d, rfl⟩ := hostRead_next s .w32 a v u hu
        exact .inr (.inr (.inl ⟨d, v, _, (Host.Outcome.next.inj h).symm⟩))
    | powerOnReset =>
      simp only [hostOp] at h
      exact .inr (.inr (.inr ⟨_, hop, (Host.Outcome.next.inj h).symm⟩))

/-- Everything a step can do: complete the command, or take the host's turn. -/
theorem step_cases (s : State) :
    (∃ cw snap, s.engine = .busy cw snap 0 ∧ step s = runCommand cw s) ∨
    (∃ cw snap n, s.engine = .busy cw snap (n + 1) ∧ step s = hostTurn (s.tick cw snap n)) ∨
    (s.engine = .idle ∧ step s = hostTurn s) := by
  cases h : s.engine with
  | idle => exact .inr (.inr ⟨rfl, by simp [step, h]⟩)
  | busy cw snap n =>
    cases n with
    | zero => exact .inl ⟨cw, snap, rfl, by simp [step, h]⟩
    | succ n => exact .inr (.inl ⟨cw, snap, n, rfl, by simp [step, h]⟩)

/-- The host's next write does not depend on the engine. -/
@[simp] theorem nextWrite_tick (s : State) (cw : Word) (snap : Snapshot) (n : Nat) :
    nextWrite (s.tick cw snap n) = nextWrite s := rfl

end Sys2Proof.Machine
end

