-- ==== Sys2Proof/Laws/Password.lean ====
section
/-! SUPPORT. The fields of the running record of CALCKEY before the first round and after each round. -/

namespace Sys2Proof.Machine

@[simp] theorem kdfStart_pwh (l : KdfLayout) (pwh : ByteReg 32) (salt : ByteReg 16) : (kdfStart l pwh salt).pwh = pwh := rfl

@[simp] theorem kdfStart_salt (l : KdfLayout) (pwh : ByteReg 32) (salt : ByteReg 16) :
    (kdfStart l pwh salt).salt = salt := rfl

@[simp] theorem kdfStart_counter (l : KdfLayout) (pwh : ByteReg 32) (salt : ByteReg 16) :
    (kdfStart l pwh salt).counter = 0 := rfl

theorem kdfStart_last_bde88 (pwh : ByteReg 32) (salt : ByteReg 16) : (kdfStart .bde88 pwh salt).last = zeroReg 32 := rfl

theorem kdfStart_last_doc56 (pwh : ByteReg 32) (salt : ByteReg 16) : (kdfStart .doc56 pwh salt).last = pwh := rfl

@[simp] theorem kdfRound_pwh (l : KdfLayout) (r : KdfRecord) : (kdfRound l r).pwh = r.pwh := by rw [kdfRound]

@[simp] theorem kdfRound_salt (l : KdfLayout) (r : KdfRecord) : (kdfRound l r).salt = r.salt := by rw [kdfRound]

@[simp] theorem kdfRound_counter (l : KdfLayout) (r : KdfRecord) : (kdfRound l r).counter = r.counter + 1 := by
  rw [kdfRound]

/-- The running hash after a round is the hash of the round's message (R239). -/
@[simp] theorem kdfRound_last (l : KdfLayout) (r : KdfRecord) : (kdfRound l r).last = sha256 (kdfMessage l r) := by
  rw [kdfRound]

end Sys2Proof.Machine
end

