-- ==== Sys2Proof/Laws/PerInstr.lean ====
section
/-! SUPPORT. Facts about each instruction as syntax, one lemma per constructor. -/

namespace Sys2Proof.Laws

/-- The word the encoder writes is a word of the instruction's row of the opcode table (R127). -/
def EncodeRow.Statement (i : Instr) : Prop := encode i &&& rowMask i = rowMatch i

/-- The low half of INIT's word does not depend on the method. -/
theorem EncodeRow.init (m : BitVec 16) : EncodeRow.Statement (.init m) := by
  apply BitVec.eq_of_toNat_eq
  rw [BitVec.toNat_and]
  show (commandWord m 0 0 0x01).toNat &&& (2 ^ 16 - 1) = 1
  rw [commandWord_toNat, Nat.and_two_pow_sub_one_eq_mod]
  show (m.toNat * 65536 + 0 * 1024 + 0 * 256 + 1) % 2 ^ 16 = 1
  omega

theorem EncodeRow.free : EncodeRow.Statement .free := rfl

theorem EncodeRow.setkeys : EncodeRow.Statement .setkeys := rfl

theorem EncodeRow.crypt (m : Mode) : EncodeRow.Statement (.crypt m) := by cases m <;> rfl

theorem EncodeRow.ecb (m : Mode) (k : KeySel) : EncodeRow.Statement (.ecb m k) := by cases m <;> cases k <;> rfl

theorem EncodeRow.cbc (m : Mode) (k : KeySel) : EncodeRow.Statement (.cbc m k) := by cases m <;> cases k <;> rfl

theorem EncodeRow.diffa (m : Mode) : EncodeRow.Statement (.diffa m) := by cases m <;> rfl

theorem EncodeRow.diffb (m : Mode) : EncodeRow.Statement (.diffb m) := by cases m <;> rfl

theorem EncodeRow.hash8 : EncodeRow.Statement .hash8 := rfl

theorem EncodeRow.hash16 : EncodeRow.Statement .hash16 := rfl

theorem EncodeRow.calckey : EncodeRow.Statement .calckey := rfl

end Sys2Proof.Laws
end

