-- ==== Sys2Proof/Laws/Window.lean ====
section
/-! SUPPORT. The register window: what an aligned access of an offset does, and which offsets are which registers. -/

namespace Sys2Proof.Machine

/-- An aligned 32-bit read of an offset: a hazard, or the register's value. -/
theorem hostRead_base (s : State) (off : Nat) (h1 : off < 0x4000) (h2 : off % 4 = 0) :
    hostRead s .w32 (s.cfg.base + off) =
      if s.isBusy && readHazard (targetOf s.cfg.bufBytes off) then .error .hazard
      else .ok (readTarget s (targetOf s.cfg.bufBytes off),
        { s with draws := s.draws + readDraws (targetOf s.cfg.bufBytes off) }) := by
  unfold hostRead
  rw [locate_word _ _ h1 h2]

/-- An aligned 32-bit write of an offset: a hazard, or the register's write. -/
theorem hostWrite_base (s : State) (off : Nat) (v : Word) (h1 : off < 0x4000) (h2 : off % 4 = 0) :
    hostWrite s .w32 (s.cfg.base + off) v =
      if s.isBusy && writeHazard (targetOf s.cfg.bufBytes off) then .error .hazard
      else .ok (writeTarget s (targetOf s.cfg.bufBytes off) v) := by
  unfold hostWrite
  rw [locate_word _ _ h1 h2]

/-- The register map at the offsets of the byte-string groups and of the buffers. -/
theorem targetOf_group (n off : Nat) (h : off % 4 = 0) (hn : n ≤ 4096) :
    (0x40 ≤ off → off < 0x60 → targetOf n off = .fvekStage ((off - 0x40) / 4)) ∧
    (0x60 ≤ off → off < 0x80 → targetOf n off = .tweakStage ((off - 0x60) / 4)) ∧
    (0x80 ≤ off → off < 0x90 → targetOf n off = .iv ((off - 0x80) / 4)) ∧
    (0x90 ≤ off → off < 0xA0 → targetOf n off = .salt ((off - 0x90) / 4)) ∧
    (0xA0 ≤ off → off < 0xC0 → targetOf n off = .pwhash ((off - 0xA0) / 4)) ∧
    (0xC0 ≤ off → off < 0xE0 → targetOf n off = .dkey ((off - 0xC0) / 4)) ∧
    (0x1000 ≤ off → off < 0x1000 + n → targetOf n off = .ibuf off) ∧
    (0x2000 ≤ off → off < 0x2000 + n → targetOf n off = .obuf off) := by
  unfold targetOf ibufBase obufBase
  refine ⟨fun a b => ?_, fun a b => ?_, fun a b => ?_, fun a b => ?_, fun a b => ?_, fun a b => ?_, fun a b => ?_,
    fun a b => ?_⟩ <;>
  · repeat rw [if_neg (by omega)]
    rw [if_pos (by omega)]

/-- The reserved offsets. -/
theorem targetOf_reserved (n off : Nat) (h : off % 4 = 0) (hn : n ≤ 4096)
    (hr : (0x2C ≤ off ∧ off < 0x40) ∨ (0xE0 ≤ off ∧ off < 0x1000) ∨ (0x1000 + n ≤ off ∧ off < 0x2000) ∨
      0x2000 + n ≤ off) : targetOf n off = .reserved := by
  unfold targetOf ibufBase obufBase
  rcases hr with hr | hr | hr | hr <;>
  · repeat rw [if_neg (by omega)]
    try rw [if_pos (by omega)]

/-- The offsets below 0x2C, one register each. -/
theorem targetOf_control (n off : Nat) (h : off % 4 = 0) (hl : off < 0x2C) :
    targetOf n off ∈ [.id, .version, .ctrl, .status, .error, .method, .sectorSize, .length, .blkidxLo, .blkidxHi, .cmd] ∧
    (readHazard (targetOf n off) = true ↔ 0x18 ≤ off ∧ off < 0x28) ∧
    (writeHazard (targetOf n off) = true ↔ 0x18 ≤ off ∧ off < 0x28) ∧ readDraws (targetOf n off) = 0 := by
  have : off = 0 ∨ off = 4 ∨ off = 8 ∨ off = 12 ∨ off = 16 ∨ off = 20 ∨ off = 24 ∨ off = 28 ∨ off = 32 ∨ off = 36 ∨
      off = 40 := by omega
  rcases this with rfl | rfl | rfl | rfl | rfl | rfl | rfl | rfl | rfl | rfl | rfl <;>
    simp [targetOf, readHazard, writeHazard, readDraws]

end Sys2Proof.Machine
end

