-- ==== Sys2Proof/Tests/Slice0.lean ====
section
/-! SUPPORT. Tests of the model against the spec's examples and `95_test_vectors.md`, and for each obligation with
hypotheses a witness that meets them. -/

namespace Sys2Proof.Machine.Tests

/-! ## Helpers -/

/-- A machine after reset at base 0, with one CALCKEY round: the parameter values the small vectors use. -/
def blank : State := State.fresh ⟨4096, 1, .bde88, .zero, 0, 0⟩ [] ⟨[], 0, []⟩ 0

/-- The `n` bytes of a hexadecimal number, first byte first. -/
def hex (n v : Nat) : List Byte := (List.range n).map fun k => BitVec.ofNat 8 (v / 256 ^ (n - 1 - k))

/-- `s` with the string `x` in IBUF and its length in LENGTH. -/
def given (s : State) (x : List Byte) : State :=
  { s with mem := Memory.writeBytes [] ibufBase x, length := BitVec.ofNat 16 x.length }

/-- `s` with a context of method `m` and no keys. -/
def created (s : State) (m : BitVec 16) : State := { s with ctx := ⟨true, m, .unset, .unset, .unset, .unset⟩ }

/-- A 128-bit key. -/
def key128 (v : Nat) : AesKey := .k128 (regOfBytes 16 (hex 16 v))

/-- `s` with a context of method `m`, an FVEK and, for a Diffuser method, a Tweak. -/
def keyed (s : State) (m : BitVec 16) (f : AesKey) (t : SubCtx) : State :=
  { s with ctx := ⟨true, m, .keyed f, .keyed f, t, t⟩ }

/-- The bytes 00 to 0f. -/
def count : Nat := 0x000102030405060708090a0b0c0d0e0f

/-- The FVEK and the Tweak of `44_sector_crypt.md` R315. -/
def fvek315 : AesKey := key128 count
def tweak315 : AesKey := key128 0x101112131415161718191a1b1c1d1e1f

/-- One field of the next state of a meaning or a step. -/
def after {α : Type} (o : Host.Outcome State Fault Refusal) (f : State → α) : Option α :=
  match o with
  | .next t => some (f t)
  | .fault _ => none
  | .refused _ => none

/-- STATUS, ERROR and METHOD. -/
def report (t : State) : Word × Word × Word := (t.statusWord, t.error, t.methodWord)

/-- OBUF[0:n]. -/
def obuf (n : Nat) (t : State) : Option (List Byte) := t.mem.readBytes obufBase n

/-- The machine in which the very next step runs the word `cw`. -/
def running (s : State) (cw : Nat) : State := s.withFetchWord 32 cw

/-! ## Ill-formed syntax is refused -/

theorem test_ill_formed_commands :
    [Instr.crypt .reserved2, .crypt .reserved3, .ecb .reserved2 .fvek, .ecb .reserved3 .tweak, .cbc .reserved2 .tweak,
      .cbc .reserved3 .fvek, .diffa .reserved2, .diffa .reserved3, .diffb .reserved2, .diffb .reserved3].all
        (fun i => !i.wellFormed) = true := by decide

theorem test_ill_formed_host_operations :
    [HostOp.write .w8 0x28 1, .write .w16 0x28 1, .write .w64 0x28 1, .write .w32 0x2A 1, .writeLast 0x1001,
      .read .w8 0x0C, .read .w32 0x0E, .bnz 0x0D 1 0].all (fun op => !op.wellFormed) = true := by decide

theorem test_well_formed :
    [Instr.init 0xFFFF, .free, .setkeys, .crypt .decrypt, .ecb .encrypt .tweak, .cbc .decrypt .fvek, .diffa .encrypt,
      .diffb .decrypt, .hash8, .hash16, .calckey].all Instr.wellFormed = true ∧
    [HostOp.write .w32 0x28 1, .writeLast 0x1000, .read .w32 0x0C, .bnz 0x0C 1 0, .powerOnReset].all
      HostOp.wellFormed = true := by decide

/-! ## Decoding: words written out field by field, IMM16, RSV, KSEL, MODE, OPC (R120, R127, R140) -/

theorem test_decode_init :
    decode (0b1000000000000001#16 ++ 0b00000#5 ++ 0b0#1 ++ 0b00#2 ++ 0b00000001#8) = .ok (.init 0x8001) := by decide
theorem test_decode_free :
    decode (0b0000000000000000#16 ++ 0b00000#5 ++ 0b0#1 ++ 0b00#2 ++ 0b00000010#8) = .ok .free := by decide
theorem test_decode_setkeys :
    decode (0b0000000000000000#16 ++ 0b00000#5 ++ 0b0#1 ++ 0b00#2 ++ 0b00000011#8) = .ok .setkeys := by decide
theorem test_decode_crypt :
    decode (0b0000000000000000#16 ++ 0b00000#5 ++ 0b0#1 ++ 0b01#2 ++ 0b00000100#8) = .ok (.crypt .encrypt) := by decide
theorem test_decode_ecb :
    decode (0b0000000000000000#16 ++ 0b00000#5 ++ 0b1#1 ++ 0b01#2 ++ 0b00000101#8) = .ok (.ecb .encrypt .tweak) := by
  decide
theorem test_decode_cbc :
    decode (0b0000000000000000#16 ++ 0b00000#5 ++ 0b1#1 ++ 0b00#2 ++ 0b00000110#8) = .ok (.cbc .decrypt .tweak) := by
  decide
theorem test_decode_diffa :
    decode (0b0000000000000000#16 ++ 0b00000#5 ++ 0b0#1 ++ 0b00#2 ++ 0b00000111#8) = .ok (.diffa .decrypt) := by decide
theorem test_decode_diffb :
    decode (0b0000000000000000#16 ++ 0b00000#5 ++ 0b0#1 ++ 0b01#2 ++ 0b00001000#8) = .ok (.diffb .encrypt) := by decide
theorem test_decode_hash8 :
    decode (0b0000000000000000#16 ++ 0b00000#5 ++ 0b0#1 ++ 0b00#2 ++ 0b00001001#8) = .ok .hash8 := by decide
theorem test_decode_hash16 :
    decode (0b0000000000000000#16 ++ 0b00000#5 ++ 0b0#1 ++ 0b00#2 ++ 0b00001010#8) = .ok .hash16 := by decide
theorem test_decode_calckey :
    decode (0b0000000000000000#16 ++ 0b00000#5 ++ 0b0#1 ++ 0b00#2 ++ 0b00001011#8) = .ok .calckey := by decide

/-- Table V1: words that do not decode, and the order of the checks. -/
theorem test_reserved_words :
    [0x00000000, 0x0000000C, 0x000000FF, 0x00010104, 0x00000803, 0x00000101, 0x00000404, 0x00000204, 0x00000605,
      0x0001000B].map (fun cw => after (step (running blank cw)) (·.error)) =
    [some 0x00080B08, some 0x0C080B08, some 0xFF080B08, some 0x04080C08, some 0x03080C08, some 0x01080C08,
      some 0x04080C08, some 0x04080007, some 0x05080007, some 0x0B080C08] := by decide

/-- The host's reading of a table word, and a step from reset that runs it (R275's example). -/
theorem test_table_word :
    decodeTableWord 32 0x80000001 = some (.init 0x8000) ∧ decodeTableWord 32 0x0C = none ∧
    after (step (State.reset.withFetchWord 32 0x80000001)) report = some (0x12, 0, 0x8000) := by decide

/-! ## One step of each command -/

/-- Table V8, rows 1 and 6. -/
theorem test_init : after (step (running blank 0x80000001)) report = some (0x12, 0, 0x8000) := by decide
theorem test_init_twice :
    after (step (running (created blank 0x8000) 0x80020001)) report = some (0x16, 0x01070201, 0x8000) := by decide

/-- Table V8, rows 2 and 3. -/
theorem test_free : after (step (running (created blank 0x8000) 2)) report = some (0x02, 0, 0) := by decide
theorem test_free_nothing : after (step (running blank 2)) report = some (0x06, 0x02070101, 0) := by decide

/-- Table V8, rows 5 and 9. -/
theorem test_setkeys :
    after (step (running (created { blank with fvekStage := regOfBytes 32 (hex 16 count) } 0x8000) 3))
      (fun t => (t.statusWord, t.ctx.fvekEnc, t.fvekStage)) = some (0x72, .keyed fvek315, zeroReg 32) := by decide
theorem test_setkeys_unsupported :
    after (step (running (created blank 0x8004) 3)) report = some (0x16, 0x03010505, 0x8004) := by decide

/-- Table V3: ECB ENC, FVEK, and ECB ENC, TWEAK under a non-Diffuser method. -/
theorem test_ecb :
    after (step (running (given (keyed blank 0x8002 fvek315 .unset) (hex 16 0x00112233445566778899aabbccddeeff)) 0x105))
      (obuf 16) = some (some (hex 16 0x69c4e0d86a7b0430d8cdb78070b4c55a)) := by decide +kernel
theorem test_ecb_unset :
    after (step (running (given (keyed blank 0x8002 fvek315 .unset) (hex 16 0)) 0x505))
      (fun t => (report t, obuf 16 t)) = some ((0x36, 0x05030406, 0x8002), none) := by decide +kernel

/-- Table V4: CBC DEC of two blocks, and a length that is no multiple of 16. -/
theorem test_cbc :
    after (step (running (given { keyed blank 0x8002 (key128 0x2b7e151628aed2a6abf7158809cf4f3c) .unset with
        iv := regOfBytes 16 (hex 16 count) }
          (hex 32 0x7649abac8119b246cee98e9b12e9197d5086cb9b507219ee95db113a917678b2)) 0x006)) (obuf 32) =
      some (some (hex 32 0x6bc1bee22e409f96e93d7e117393172aae2d8a571e03ac9c9eb76fac45af8e51)) := by decide +kernel
theorem test_cbc_length :
    after (step (running (given (keyed blank 0x8002 fvek315 .unset) (hex 24 0)) 0x106)) (·.error) =
      some 0x06080703 := by decide +kernel

/-- R210 and R211: both directions. -/
theorem test_diffa :
    after (step (running (given blank (hex 16 count)) 0x107)) (obuf 16) =
      some (some (hex 16 0x7e416974188cf5c697f8453c31ac0908)) ∧
    after (step (running (given blank (hex 16 count)) 0x007)) (obuf 16) =
      some (some (hex 16 0xe209cc1b2f7275536646d27313fb1a6f)) := by decide +kernel
theorem test_diffb :
    after (step (running (given blank (hex 16 count)) 0x108)) (obuf 16) =
      some (some (hex 16 0xc35e90b610f7ea3cf4f2f46c8e46a578)) ∧
    after (step (running (given blank (hex 16 count)) 0x008)) (obuf 16) =
      some (some (hex 16 0x287a7e1b1f3ff564c6dea1a74fdc2065)) := by decide +kernel

/-- R240, R241. -/
theorem test_hash8 :
    after (step (running (given blank (hex 8 0x70617373776f7264)) 0x009)) (·.pwhash.toList) =
      some (hex 32 0x752b13ff08bfd1b9ad822eadaeb0bdb056a468711f938323991bd6f2965ee3a0) := by decide +kernel
theorem test_hash8_bad :
    [hex 2 0xc080, hex 3 0xeda080, hex 4 0xf4908080, hex 1 0xc3, hex 1 0x80, hex 2 0xe282].map (fun x =>
      after (step (running (given blank x) 0x009)) (·.error)) = List.replicate 6 (some 0x09060A01) := by decide +kernel

/-- R242, and table V6's odd length. -/
theorem test_hash16 :
    after (step (running (given blank (hex 16 0x700061007300730077006f0072006400)) 0x00A)) (·.pwhash.toList) =
      some (hex 32 0x752b13ff08bfd1b9ad822eadaeb0bdb056a468711f938323991bd6f2965ee3a0) := by decide +kernel
theorem test_hash16_odd :
    after (step (running (given blank (hex 3 0x700061)) 0x00A)) (·.error) = some 0x0A080703 := by decide +kernel

/-- Table V7.1 with two rounds, both layouts. -/
theorem test_calckey :
    after (step (running { blank with
        cfg := { blank.cfg with kdfIterations := 2 }
        salt := regOfBytes 16 (hex 16 count)
        pwhash := regOfBytes 32 (hex 32 0x752b13ff08bfd1b9ad822eadaeb0bdb056a468711f938323991bd6f2965ee3a0) } 0x00B))
      (·.dkey.toList) = some (hex 32 0x1adf571559601dbe021227fb503a759a4b3836f1bd533cd17d51aeb115027fa3) := by
  decide +kernel
theorem test_calckey_doc56 :
    after (step (running { blank with
        cfg := { blank.cfg with kdfIterations := 2, kdfLayout := .doc56 }
        salt := regOfBytes 16 (hex 16 count)
        pwhash := regOfBytes 32 (hex 32 0x752b13ff08bfd1b9ad822eadaeb0bdb056a468711f938323991bd6f2965ee3a0) } 0x00B))
      (·.dkey.toList) = some (hex 32 0xb09b82b6e8a458d0232e290f4847e41d546185ca1c1e9f9fef35f14d0dcb2285) := by
  decide +kernel

/-- R316, cases a (encryption) and c (decryption). -/
theorem test_crypt :
    after (step (running { given (keyed blank 0x8000 fvek315 (.keyed tweak315)) (hex 16 count) with
        sectorSize := 16, blkidxLo := 1 } 0x104)) (obuf 16) =
      some (some (hex 16 0x8ecad465724395268e2d8137358c2071)) ∧
    after (step (running { given (keyed blank 0x8000 fvek315 (.keyed tweak315)) (hex 16 0) with
        sectorSize := 16 } 0x004)) (obuf 16) =
      some (some (hex 16 0xeeb1adc448793d0dabe04b6cc13a7233)) := by decide +kernel

/-- R303: a CRYPT that fails a check, and one with a non-zero unused field, zero CRYPT's buffers and no other. -/
theorem test_crypt_clears :
    [0x104, 0x204, 0x00010104, 0x105].map (fun cw => after (step (running { blank with
        hidden := { Hidden.zero with bk := (zeroReg 16).set 0 1 } } cw)) (·.hidden == Hidden.zero)) =
      [some true, some true, some true, some false] := by decide

/-- R382, R346: an abandoned DIFFA makes OBUF[0:L] Unknown; one that fails its length check leaves OBUF as it was. -/
theorem test_abandon :
    [16, 15].map (fun n => (running { blank with mem := [(0x2000, 7), (0x2010, 8)], length := n } 0x107).softReset.mem) =
      [[(0x2010, 8)], [(0x2000, 7), (0x2010, 8)]] := by decide

/-! ## The window (tables V2 and V11) -/

/-- One field of the state after one operation of the host. -/
def after1 {α : Type} (s : State) (op : HostOp) (f : State → α) : Option α :=
  after (step { s with host := ⟨[op], 0, []⟩ }) f

theorem test_window_writes :
    after1 blank (.write .w32 0x18 0x12345678) (·.sectorSize) = some 0x5678 ∧
    after1 blank (.write .w32 0x40 0x03020100) (fun t => t.fvekStage.toList.take 5) = some [0, 1, 2, 3, 0] ∧
    after1 blank (.write .w32 0x1004 0x64726F77) (·.mem) =
      some [(0x1004, 0x77), (0x1005, 0x6F), (0x1006, 0x72), (0x1007, 0x64)] ∧
    after1 { blank with done := true } (.write .w32 0x08 1) (·.irq) = some true ∧
    after1 { blank with ovr := true, err := true } (.write .w32 0x0C 0x8) (fun t => (t.ovr, t.err)) = some (false, true) ∧
    after1 (given blank (hex 1 7)) (.write .w32 0x08 0x80000007) (fun t => (t.ctrlWord, t.length, t.mem)) =
      some (0, 0, [(0x1000, 7)]) := by decide

theorem test_window_reads :
    after1 blank (.read .w32 0x00) (·.host.reads) = some [0x4C424445] ∧
    after1 { blank with dkey := regOfBytes 32 (hex 8 0x2b629fb2fb7b3774) } (.read .w32 0xC4) (·.host.reads) =
      some [0x74377BFB] ∧
    after1 { blank with fvekStage := regOfBytes 32 (hex 8 0x2b629fb2fb7b3774) } (.read .w32 0x40) (·.host.reads) =
      some [0] ∧
    after1 (blank.acceptWithin 1 1) (.bnz 0x0C 1 5) (·.host.pc) = some 5 ∧
    after1 blank (.bnz 0x0C 1 5) (·.host.pc) = some 1 := by decide

/-! ## Witnesses: for each obligation with hypotheses, a state and operands that meet them -/

/-- The IBUF of `given s x` begins with `x`. -/
theorem given_holds (s : State) (x : List Byte) (h : s.engine = .idle) : ibufHolds (given s x).operands x := by
  intro k hk
  have he : (given s x).operands.mem = Memory.writeBytes [] ibufBase x := by
    rw [State.operands_idle (given s x) h]
    rfl
  rw [he, Memory.read_writeBytes, if_pos (by omega), Nat.add_sub_cancel_left]

/-- The operands of `given s x` while idle: the context and the length. -/
theorem given_operands (s : State) (x : List Byte) (h : s.engine = .idle) (hx : x.length < 65536) :
    (given s x).operands.ctx = s.ctx ∧ (given s x).operands.length.toNat = x.length := by
  rw [State.operands_idle (given s x) h]
  refine ⟨rfl, ?_⟩
  show (BitVec.ofNat 16 x.length).toNat = _
  rw [BitVec.toNat_ofNat, Nat.mod_eq_of_lt hx]

/-- A state like reset but for its registers meets the invariant. -/
theorem idle_inv (s : State) (h1 : s.cfg = blank.cfg) (h2 : s.mem = []) (h3 : s.ctx.wf) (h4 : s.hidden = Hidden.zero)
    (h5 : s.engine = .idle) (h6 : s.error = 0) (h7 : s.err = false) : s.Inv :=
  ⟨by rw [h1]; decide, by rw [h2]; exact Memory.wf_nil, by rw [h2]; simp, h3, h4, s.operands_idle h5,
    by simp [State.isBusy, h5], .inl h6, by simp [h7]⟩

/-- Acceptance keeps the invariant. -/
theorem running_inv (s : State) (cw : Nat) (h : s.Inv) : (running s cw).Inv :=
  ⟨h.cfg_legal, h.mem_wf, h.mem_backed, h.ctx_wf, h.hidden_zero, rfl, fun _ => ⟨rfl, rfl, rfl⟩, .inl rfl, by
    intro h; cases h⟩

theorem witness_DecodedWordIsTheEncodersWord : decode 0xFFFF0001 = .ok (.init 0xFFFF) := by decide

theorem witness_DecoderAgreesWithMatchTable :
    decode 0x00000505 = .ok (.ecb .encrypt .tweak) ∧ 0x00000705#32 &&& rowMask (.ecb .decrypt .fvek) = rowMatch (.ecb .decrypt .fvek) ∧
    0x00000705#32 &&& rowMask (.ecb .encrypt .tweak) = rowMatch (.ecb .encrypt .tweak) := by decide

theorem witness_UndecodableWordReportsIllegalCommand :
    (∀ cw ∈ [0x00, 0x0C, 0xFF], ∃ snap, (running blank cw).engine = .busy (BitVec.ofNat 32 cw) snap 0 ∧
      ((BitVec.ofNat 32 cw).setWidth 8 = 0#8 ∨ 0x0C#8 ≤ (BitVec.ofNat 32 cw).setWidth 8)) ∧
    (∀ cw ∈ [0x00000101, 0x0000010B], (0x01#8 ≤ (BitVec.ofNat 32 cw).setWidth 8 ∧ (BitVec.ofNat 32 cw).setWidth 8 ≤ 0x0B#8) ∧
      ∀ i : Instr, BitVec.ofNat 32 cw &&& rowMask i ≠ rowMatch i) := by
  refine ⟨fun cw h => ⟨blank.takeSnapshot, ?_⟩, fun cw h => ?_⟩
  · simp only [List.mem_cons, List.not_mem_nil, or_false] at h
    rcases h with rfl | rfl | rfl <;> exact ⟨rfl, by decide⟩
  · simp only [List.mem_cons, List.not_mem_nil, or_false] at h
    rcases h with rfl | rfl <;> exact ⟨by decide, fun i => by cases i <;> simp [rowMask, rowMatch]⟩

theorem witness_StepRunsTheDecodedCommand :
    (running blank 2).engine = .busy 2 blank.takeSnapshot 0 ∧ decode 2 = .ok .free ∧
    (blank.acceptWithin 2 1).engine = .busy 2 blank.takeSnapshot 1 ∧ blank.engine = .idle ∧
    blank.host.prog[blank.host.pc]? = none := by decide

theorem witness_EachStepBringsCompletionNearer :
    (blank.acceptWithin 2 1).engine = .busy 2 blank.takeSnapshot (0 + 1) ∧
    step (blank.acceptWithin 2 1) = .next (blank.acceptWithin 2 0) := ⟨rfl, rfl⟩

theorem witness_WaitingHostSeesCompletion :
    (blank.acceptWithin 2 3).engine = .busy 2 blank.takeSnapshot 3 ∧
    (blank.acceptWithin 2 3).host.prog[(blank.acceptWithin 2 3).host.pc]? = none := by decide

theorem witness_CmdWriteWhileIdleAccepts : blank.engine = .idle := rfl

theorem witness_CmdWriteWhileBusyIsDropped :
    (running blank 2).isBusy = true ∧
    step { blank with ovr := true, host := ⟨[.write .w32 0x0C 8], 0, []⟩ } =
      .next { blank with host := ⟨[.write .w32 0x0C 8], 1, []⟩ } := ⟨rfl, rfl⟩

theorem witness_ResetRegisterValues : State.reset = State.reset ∧ blank.powerOn = blank.powerOn := ⟨rfl, rfl⟩

theorem witness_SoftResetEffect :
    (0x80000000#32).getLsbD 31 = true ∧ blank.engine = .idle ∧
    (running (given blank (hex 16 0)) 0x105).engine = .busy 0x105 (given blank (hex 16 0)).takeSnapshot 0 ∧
    (running blank 0x105).err = false ∧ decode 0x105 = .ok (.ecb .encrypt .fvek) ∧ decode 0x0C = .error .reservedOpcode ∧
    (∃ w, onlyReports (.ecb .encrypt .fvek) (running blank 0x105) w) ∧
    ¬ ∃ w, onlyReports (.diffa .encrypt) (running (given blank (hex 16 1)) 0x107) w := by
  refine ⟨by decide, by decide, by decide, by decide, by decide, by decide,
    ⟨_, onlyReports_of_reject _ _ errNoContext _ rfl rfl⟩, ?_⟩
  rintro ⟨w, t, h, ⟨_, _, he, _⟩, _⟩
  rcases execDiffa_cases .encrypt (running (given blank (hex 16 1)) 0x107) with ⟨e, _, hr⟩ | ⟨_, ⟨y, _, hr⟩ | ⟨_, hr⟩⟩
  · have : after (exec (.diffa .encrypt) (running (given blank (hex 16 1)) 0x107)) (·.err) = some false := by
      decide +kernel
    rw [hr] at this
    cases this
  · rw [hr] at h
    cases h
    cases he
  · rw [hr] at h
    cases h

theorem witness_ReservedAndReadOnlyOffsets :
    ({ blank with cfg := { blank.cfg with bufBytes := 512 } } : State).cfg.bufBytes ≤ 4096 ∧
    (∀ off ∈ [0x2C, 0x3C, 0xE0, 0xFFC, 0x1200, 0x1FFC, 0x2200, 0x3FFC], off % 4 = 0 ∧ ((0x2C ≤ off ∧ off < 0x40) ∨
      (0xE0 ≤ off ∧ off < 0x1000) ∨ (0x1000 + 512 ≤ off ∧ off < 0x2000) ∨ (0x2000 + 512 ≤ off ∧ off < 0x4000))) ∧
    (∀ off ∈ [0x10, 0x14, 0xC0, 0xDC], off % 4 = 0 ∧ (off = 0x10 ∨ off = 0x14 ∨ (0xC0 ≤ off ∧ off < 0xE0 ∧
      blank.engine = .idle))) ∧ 0 / 4 = (0xC0 - 0xC0) / 4 ∧ 31 / 4 = (0xDC - 0xC0) / 4 := by decide

theorem witness_WritableRegistersReadBack :
    blank.engine = .idle ∧ (running blank 2).isBusy = true ∧ (0x7FFFFFFF#32).getLsbD 31 = false ∧ 3 < 4 ∧ 7 < 8 := by decide

theorem witness_StagingWritesAreLittleEndian : blank.engine = .idle ∧ 0 < 8 ∧ 7 < 8 := by decide

theorem witness_BuffersAreLittleEndian :
    blank.engine = .idle ∧ blank.cfg.bufBytes ≤ 4096 ∧ (∀ off ∈ [0x1000, 0x1FFC, 0x2000, 0x2FFC], off % 4 = 0 ∧
      ((0x1000 ≤ off ∧ off + 4 ≤ 0x1000 + blank.cfg.bufBytes) ∨
        (0x2000 ≤ off ∧ off + 4 ≤ 0x2000 + blank.cfg.bufBytes))) ∧
    (given blank (hex 4 7)).mem.read (0x1000 + 3) = some 7 := by decide

theorem witness_KeyBytesAreNeverReadable :
    sameButKeys (keyed blank 0x8002 fvek315 .unset)
      { keyed blank 0x8002 tweak315 .unset with fvekStage := regOfBytes 32 [1] } :=
  ⟨_, _, _, _, _, rfl, ⟨rfl, rfl, rfl, rfl, rfl, rfl⟩, Iff.rfl⟩

theorem witness_NarrowOrMisalignedAccessFaults :
    (0 < 0x4000 ∧ (Width.w8 ≠ .w32 ∨ 0 % 4 ≠ 0)) ∧ (0x3FFF < 0x4000 ∧ (Width.w32 ≠ .w32 ∨ 0x3FFF % 4 ≠ 0)) := by decide

theorem witness_HazardsAreExactlyTheListedAccesses :
    (running blank 2).isBusy = true ∧ (running blank 2).cfg.bufBytes ≤ 4096 ∧
    (∀ off ∈ [0x18, 0x24, 0x80, 0xDC, 0x1000, 0x1FFC, 0x2000, 0x2FFC], off < 0x4000 ∧ off % 4 = 0 ∧
      ((0x18 ≤ off ∧ off < 0x28) ∨ (0x80 ≤ off ∧ off < 0xE0) ∨
        (0x1000 ≤ off ∧ off < 0x1000 + (running blank 2).cfg.bufBytes) ∨
        (0x2000 ≤ off ∧ off < 0x2000 + (running blank 2).cfg.bufBytes))) ∧
    (∀ off ∈ [0x40, 0x7C], off < 0x4000 ∧ off % 4 = 0 ∧ 0x40 ≤ off ∧ off < 0x80) ∧
    (∀ off ∈ [0x14, 0x28, 0x3C, 0xE0, 0xFFC, 0x3000, 0x3FFC], off < 0x4000 ∧ off % 4 = 0 ∧
      ¬ ((0x18 ≤ off ∧ off < 0x28) ∨ (0x80 ≤ off ∧ off < 0xE0) ∨
        (0x1000 ≤ off ∧ off < 0x1000 + (running blank 2).cfg.bufBytes) ∨
        (0x2000 ≤ off ∧ off < 0x2000 + (running blank 2).cfg.bufBytes)) ∧ ¬ (0x40 ≤ off ∧ off < 0x80)) := by decide

/-- The reset-like state meets the invariant. -/
theorem blank_inv : blank.Inv := idle_inv _ rfl rfl (by decide) rfl rfl rfl rfl

theorem witness_BusyReadsAreDefined : (running (created blank 0x8002) 2).Inv ∧
    (running (created blank 0x8002) 2).engine = .busy 2 (created blank 0x8002).takeSnapshot 0 ∧
    (∀ off ∈ [0x40, 0x7C], 0x40 ≤ off ∧ off < 0x80 ∧ off % 4 = 0) :=
  ⟨running_inv _ _ (idle_inv _ rfl rfl (by decide) rfl rfl rfl rfl), rfl, by decide⟩

theorem witness_InitCreatesContext : blank.operands.ctx.valid = false := rfl

theorem witness_FreeDestroysContext : (keyed blank 0x8000 fvek315 (.keyed tweak315)).operands.ctx.valid = true := rfl

/-- Every method code, the four supported ones among them. -/
theorem witness_SetkeysInstallsKeys (m : BitVec 16) : (created blank m).operands.ctx.valid = true ∧
    (created blank m).operands.ctx.method = m := ⟨rfl, rfl⟩

theorem witness_ContextErrorsAreReported : (Mode.decrypt).defined = true ∧ (created blank 0).operands.ctx.valid = true ∧
    blank.operands.ctx.valid = false := by decide

theorem witness_UnsupportedMethodIsReported : (Mode.encrypt).defined = true ∧
    ((created blank 0x7FFF).operands.ctx.valid = true ∧ (created blank 0x7FFF).operands.ctx.method = 0x7FFF) ∧
    ((created blank 0x8004).operands.ctx.valid = true ∧ (created blank 0x8004).operands.ctx.method = 0x8004) :=
  ⟨rfl, ⟨rfl, rfl⟩, ⟨rfl, rfl⟩⟩

theorem witness_UnsupportedModeIsReported :
    (Mode.reserved2 = .reserved2 ∨ Mode.reserved2 = .reserved3) ∧ (Mode.reserved3 = .reserved2 ∨ Mode.reserved3 = .reserved3) := by
  decide

/-- The four clauses: L = 4097, 0, 8 and 15, and 256 with a sector size of 512. -/
theorem witness_LengthErrorsInOrder : (Mode.encrypt).defined = true ∧
    (created { blank with length := 4097 } 0x8000).cfg.bufBytes < (created { blank with length := 4097 } 0x8000).operands.length.toNat ∧
    (created blank 0x8000).operands.length.toNat = 0 ∧ (created blank 0x8000).operands.ctx.valid = true ∧
    (created blank 0x8000).operands.ctx.method = 0x8000 ∧
    (∀ n ∈ [8, 15], n ≤ (created { blank with length := BitVec.ofNat 16 n } 0x8000).cfg.bufBytes ∧ n % 16 ≠ 0 ∧
      (created { blank with length := BitVec.ofNat 16 n } 0x8000).operands.length.toNat = n) ∧ 15 % 2 ≠ 0 ∧
    (created { blank with length := 256 } 0x8000).operands.length.toNat ≠
      (created { blank with length := 256 } 0x8000).operands.sectorSize.toNat := by decide

/-- A keyed Diffuser context, with a 16-byte input that is also the sector. -/
def keyedInput : State := given { keyed blank 0x8000 fvek315 (.keyed tweak315) with sectorSize := 16 } (hex 16 count)

theorem keyedInput_holds : ibufHolds keyedInput.operands (hex 16 count) := given_holds _ _ rfl

theorem witness_EcbTransformsOneBlock : keyedInput.operands.ctx.valid = true ∧
    ibufHolds keyedInput.operands (regOfBytes 16 (hex 16 count)).toList ∧
    keyedInput.operands.ctx.fvekEnc = .keyed fvek315 ∧ keyedInput.operands.ctx.fvekDec = .keyed fvek315 ∧
    keyedInput.operands.ctx.tweakEnc = .keyed tweak315 ∧ keyedInput.operands.ctx.tweakDec = .keyed tweak315 := by
  refine ⟨rfl, ?_, rfl, rfl, rfl, rfl⟩
  have : (regOfBytes 16 (hex 16 count)).toList = hex 16 count := by decide
  rw [this]
  exact keyedInput_holds

/-- L = 0, 16 and P_BUF_BYTES. -/
theorem witness_CbcChainsBlocks : ∀ n ∈ [0, 16, 4096], ∀ s : State,
    s = given (keyed blank 0x8001 fvek315 (.keyed tweak315)) (List.replicate n 7) →
    s.operands.ctx.valid = true ∧ ibufHolds s.operands (List.replicate n 7) ∧
    s.operands.length.toNat = (List.replicate n (7 : Byte)).length ∧ (List.replicate n (7 : Byte)).length ≤ s.cfg.bufBytes ∧
    (List.replicate n (7 : Byte)).length % 16 = 0 ∧
    s.operands.ctx.fvekEnc = .keyed fvek315 ∧ s.operands.ctx.tweakDec = .keyed tweak315 := by
  rintro n hn s rfl
  have hx : n ≤ 4096 ∧ n % 16 = 0 := by
    simp only [List.mem_cons, List.not_mem_nil, or_false] at hn
    omega
  have h := given_operands (keyed blank 0x8001 fvek315 (.keyed tweak315)) (List.replicate n 7) rfl (by simp; omega)
  exact ⟨by rw [h.1]; rfl, given_holds _ _ rfl, h.2,
    by rw [List.length_replicate]; exact hx.1, by simpa using hx.2, by rw [h.1]; rfl,
    by rw [h.1]; rfl⟩

/-- A context without keys, with a 16-byte input. -/
def unkeyedInput (m : BitVec 16) : State := given { created blank m with sectorSize := 16 } (hex 16 count)

theorem witness_UnsetSubcontextFails : (unkeyedInput 0x8000).operands.ctx.valid = true ∧
    ibufHolds (unkeyedInput 0x8000).operands (hex 16 count) ∧ (hex 16 count).length = 16 ∧
    (unkeyedInput 0x8000).operands.length.toNat = (hex 16 count).length ∧
    (hex 16 count).length ≤ (unkeyedInput 0x8000).cfg.bufBytes ∧ (hex 16 count).length % 16 = 0 ∧
    (∀ S, (unkeyedInput 0x8000).operands.ctx.sub S = .unset) :=
  ⟨rfl, given_holds _ _ rfl, rfl, rfl, by decide, rfl, fun S => by cases S <;> rfl⟩

/-- L = 16 and P_BUF_BYTES. -/
theorem witness_DiffuserCommandsTransformBuffer : ∀ n ∈ [16, 4096],
    ibufHolds (given blank (List.replicate n 7)).operands (List.replicate n 7) ∧
    (given blank (List.replicate n 7)).operands.length.toNat = (List.replicate n (7 : Byte)).length ∧
    (List.replicate n (7 : Byte)).length ≤ (given blank (List.replicate n 7)).cfg.bufBytes ∧
    (List.replicate n (7 : Byte)).length ≠ 0 ∧ (List.replicate n (7 : Byte)).length % 16 = 0 := by
  intro n hn
  have hx : n ≤ 4096 ∧ n ≠ 0 ∧ n % 16 = 0 := by
    simp only [List.mem_cons, List.not_mem_nil, or_false] at hn
    omega
  exact ⟨given_holds _ _ rfl, (given_operands blank _ rfl (by simp; omega)).2,
    by rw [List.length_replicate]; exact hx.1, by simpa using hx.2.1,
    by simpa using hx.2.2⟩

theorem witness_DiffuserWordRecurrence :
    (4 ≤ 4 ∧ 4 % 4 = 0 ∧ (List.replicate 4 (1 : Word)).length = 4 ∧ 0 < 4 ∧ 3 < 4) ∧
    (hex 16 count).length % 16 = 0 ∧ 16 ≤ (hex 16 count).length ∧
    isWordsOf (hex 16 count) [0x03020100, 0x07060504, 0x0b0a0908, 0x0f0e0d0c] := by
  unfold isWordsOf
  decide

theorem witness_DiffusersInvert : (hex 16 count).length % 16 = 0 ∧ 16 ≤ (hex 16 count).length := by decide

theorem witness_DiffuserFixedBuffers : 1 ≤ 1 ∧ ((0x00 : Byte) = 0x00 ∨ (0x00 : Byte) = 0xFF) ∧
    ((0xFF : Byte) = 0x00 ∨ (0xFF : Byte) = 0xFF) := by decide

/-- An even length, well-formed UTF-8, and ill-formed UTF-8. -/
theorem witness_HashCommandsWritePwhash : (∀ x ∈ [hex 2 0xc3a9, hex 2 0xc080], ibufHolds (given blank x).operands x ∧
      (given blank x).operands.length.toNat = x.length ∧ x.length ≤ (given blank x).cfg.bufBytes ∧ x.length ≠ 0 ∧
      x.length % 2 = 0) ∧
    u8to16 (hex 2 0xc3a9) = some (hex 2 0xe900) ∧ u8to16 (hex 2 0xc080) = none := by
  refine ⟨fun x hx => ?_, by decide, by decide⟩
  simp only [List.mem_cons, List.not_mem_nil, or_false] at hx
  rcases hx with rfl | rfl <;> exact ⟨given_holds _ _ rfl, rfl, by decide, by decide, rfl⟩

theorem witness_Sha256Recurrence : ([] : List Byte).length < 2 ^ 61 ∧ (List.replicate 55 (0 : Byte)).length < 2 ^ 61 := by
  decide

theorem witness_CryptDiffuserPipeline : keyedInput.operands.ctx.valid = true ∧ keyedInput.operands.ctx.method = 0x8000 ∧
    keyedInput.operands.ctx.fvekEnc = .keyed fvek315 ∧ keyedInput.operands.ctx.fvekDec = .keyed fvek315 ∧
    keyedInput.operands.ctx.tweakEnc = .keyed tweak315 ∧ ibufHolds keyedInput.operands (hex 16 count) ∧
    keyedInput.operands.length.toNat = (hex 16 count).length ∧ (hex 16 count).length ≤ keyedInput.cfg.bufBytes ∧
    (hex 16 count).length ≠ 0 ∧ (hex 16 count).length % 16 = 0 ∧
    keyedInput.operands.sectorSize.toNat = (hex 16 count).length ∧
    isBlockKey (keyedInput.operands.blkidxHi ++ keyedInput.operands.blkidxLo) 0x00 (zeroReg 16) ∧
    isBlockKey (keyedInput.operands.blkidxHi ++ keyedInput.operands.blkidxLo) 0x80 ((zeroReg 16).set 15 0x80) := by
  refine ⟨rfl, rfl, rfl, rfl, rfl, keyedInput_holds, rfl, by decide, by decide, rfl, rfl, ?_, ?_⟩
  · unfold isBlockKey
    decide
  · unfold isBlockKey
    decide

/-- A keyed non-Diffuser context with a 16-byte input, under each P_NONDIFF_IV. -/
def plainInput (p : NonDiffIv) : State :=
  given { keyed blank 0x8002 fvek315 .unset with cfg := { blank.cfg with nonDiffIv := p } } (hex 16 count)

theorem witness_CryptNonDiffuserIsDirectCbc : ∀ p : NonDiffIv, (plainInput p).operands.ctx.valid = true ∧
    (plainInput p).operands.ctx.method = 0x8002 ∧ (plainInput p).operands.ctx.fvekEnc = .keyed fvek315 ∧
    (plainInput p).operands.ctx.fvekDec = .keyed fvek315 ∧ ibufHolds (plainInput p).operands (hex 16 count) ∧
    (plainInput p).operands.length.toNat = (hex 16 count).length ∧ (hex 16 count).length ≤ (plainInput p).cfg.bufBytes ∧
    (hex 16 count).length ≠ 0 ∧ (hex 16 count).length % 16 = 0 ∧
    ((plainInput p).cfg.nonDiffIv = .zero ∨ (plainInput p).cfg.nonDiffIv = .derived ∧
      isBlockKey ((plainInput p).operands.blkidxHi ++ (plainInput p).operands.blkidxLo) 0x00 (zeroReg 16)) := by
  intro p
  refine ⟨rfl, rfl, rfl, rfl, given_holds _ _ rfl, rfl, ?_, by decide, rfl, ?_⟩
  · show 16 ≤ 4096
    decide
  · cases p
    · exact .inl rfl
    · refine .inr ⟨rfl, ?_⟩
      unfold isBlockKey
      decide

theorem witness_CryptWithoutKeysNamesTheUnit : (Mode.decrypt).defined = true ∧ ∀ m ∈ [0x8000, 0x8003],
    (unkeyedInput m).operands.ctx.valid = true ∧ (∀ S, (unkeyedInput m).operands.ctx.sub S = .unset) ∧
    ibufHolds (unkeyedInput m).operands (hex 16 count) ∧
    (unkeyedInput m).operands.length.toNat = (hex 16 count).length ∧ (hex 16 count).length ≤ (unkeyedInput m).cfg.bufBytes ∧
    (hex 16 count).length ≠ 0 ∧ (hex 16 count).length % 16 = 0 ∧ (unkeyedInput m).operands.ctx.method = m ∧
    (unkeyedInput m).operands.sectorSize.toNat = (hex 16 count).length ∧ (unkeyedInput m).cfg.nonDiffIv = .zero :=
  ⟨rfl, fun m _ => ⟨rfl, fun S => by cases S <;> rfl, given_holds _ _ rfl, rfl, by show 16 ≤ 4096; decide, by decide, rfl,
    rfl, rfl, rfl⟩⟩

/-- What a successful CRYPT ENC of one block leaves, whatever the cipher gives. -/
theorem witness_CryptRoundTrip : ∃ (s t u : State) (x y : List Byte),
    s.operands.ctx.fvekEnc = s.operands.ctx.fvekDec ∧ ibufHolds s.operands x ∧ s.operands.length.toNat = x.length ∧
    exec (.crypt .encrypt) s = .next t ∧ s.err = false ∧ t.err = false ∧ y.length = x.length ∧ obufHolds t y ∧
    ibufHolds u.operands y ∧ u.cfg = s.cfg ∧ u.operands.ctx = s.operands.ctx ∧
    u.operands.length = s.operands.length ∧ u.operands.sectorSize = s.operands.sectorSize ∧
    u.operands.blkidxLo = s.operands.blkidxLo ∧ u.operands.blkidxHi = s.operands.blkidxHi := by
  let s := plainInput .zero
  obtain ⟨y, hy⟩ : ∃ y, cbcEnc s.operands.ctx .fvekEnc (zeroReg 16) (hex 16 count) = .ok y := ⟨_, rfl⟩
  have hl : y.length = 16 := by
    obtain rfl := Except.ok.inj hy
    simp [hex]
  have hr : s.readIbuf 16 = some (hex 16 count) := by decide
  let t := (State.writeObuf s.clearSector y).succeed
  have he : exec (.crypt .encrypt) s = .next t := by
    have hs : sectorCrypt s.cfg.nonDiffIv ⟨128, false, false⟩ s.operands.ctx .encrypt (blockIndex s.operands)
        (hex 16 count) = .ok y := hy
    have hc : cryptChecks s.cfg.bufBytes .encrypt s.operands = .ok (.encrypt, ⟨128, false, false⟩) := by decide
    have hL : s.operands.length.toNat = 16 := rfl
    have hr' : s.clearSector.readIbuf 16 = some (hex 16 count) := hr
    simp only [exec, execCrypt, hc, hL, transformBuffer, withInput, hr', hs]
    rfl
  refine ⟨s, t, { s with mem := Memory.writeBytes [] ibufBase y }, hex 16 count, y, rfl, given_holds _ _ rfl, rfl, he, rfl, rfl,
    hl, ?_, ?_, rfl, rfl, rfl, rfl, rfl, rfl⟩
  · intro k hk
    show (Memory.writeBytes _ obufBase y).read _ = _
    rw [Memory.read_writeBytes, if_pos (by omega), Nat.add_sub_cancel_left]
  · intro k hk
    show (Memory.writeBytes [] ibufBase y).read _ = _
    rw [Memory.read_writeBytes, if_pos (by omega), Nat.add_sub_cancel_left]

/-- A keyed pair, and one-block answers of both directions. -/
theorem witness_CbcLaws :
    keyedInput.ctx.sub (selectSub .fvek .encrypt) = .keyed fvek315 ∧
    keyedInput.ctx.sub (selectSub .fvek .decrypt) = .keyed fvek315 ∧ (hex 16 count).length % 16 = 0 ∧
    0 < (hex 16 count).length / 16 ∧ (∃ y, cbcEnc keyedInput.ctx .fvekEnc (zeroReg 16) (hex 16 count) = .ok y) ∧
    (∃ y, cbcDec keyedInput.ctx .fvekDec (zeroReg 16) (hex 16 count) = .ok y) :=
  ⟨rfl, rfl, rfl, by decide, ⟨_, rfl⟩, ⟨_, rfl⟩⟩

theorem witness_UnknownInputIsNeverUsed : ∀ i ∈ [Instr.ecb .encrypt .fvek, .hash8, .hash16, .diffa .decrypt],
    15 < inputBytes ({ blank with length := 16 } : State).operands i ∧
    ({ blank with length := 16 } : State).operands.mem.read (ibufBase + 15) = none := by decide

theorem witness_EveryCommandCompletes :
    ∀ k, k < inputBytes keyedInput.operands (.crypt .encrypt) → ∃ b, keyedInput.operands.mem.read (ibufBase + k) = some b := by
  intro k hk
  rw [keyedInput_holds k hk]
  exact ⟨_, List.getElem?_eq_getElem hk⟩

theorem witness_FailingCommandChangesOnlyItsReport : blank.operands.ctx.wf ∧
    exec .free blank = .next (blank.failWith 0x02 errNoContext) ∧ blank.err = false ∧
    (blank.failWith 0x02 errNoContext).err = true := ⟨by decide, rfl, rfl, rfl⟩

theorem witness_CommandsWriteOnlyTheirRegisters :
    exec (.init 0x8000) blank = .next (created blank 0x8000).succeed := rfl

theorem witness_OldKeysLeaveNoTrace : (0x80000000#32).getLsbD 31 = true ∧ ∀ m ∈ [0x8001, 0x8002],
    (running (keyed blank m fvek315 (.keyed tweak315)) 2).engine =
      .busy 2 (keyed blank m fvek315 (.keyed tweak315)).takeSnapshot 0 ∧
    (keyed blank m fvek315 (.keyed tweak315)).takeSnapshot.ctx.valid = true ∧
    (keyed blank m fvek315 (.keyed tweak315)).takeSnapshot.ctx.method = m := ⟨by decide, fun _ _ => ⟨rfl, rfl, rfl⟩⟩

/-- A staging value that differs from zero in byte 16 only. -/
theorem witness_UnusedStagingBytesHaveNoEffect :
    (∀ m ∈ [0x8000, 0x8001, 0x8003], (running (created blank m) 3).engine = .busy 3 (created blank m).takeSnapshot 0 ∧
      (created blank m).takeSnapshot.ctx.valid = true ∧ (created blank m).takeSnapshot.ctx.method = m) ∧
    ((zeroReg 32).set 16 1).toList.take 16 = (created blank 0x8000).takeSnapshot.fvekStage.toList.take 16 ∧
    ((zeroReg 32).set 31 1).toList.take 16 = (created blank 0x8000).takeSnapshot.tweakStage.toList.take 16 ∧
    exec .setkeys (running (created blank 0x8001) 3) = exec .setkeys (running (created blank 0x8001) 3) :=
  ⟨fun _ _ => ⟨rfl, rfl, rfl⟩, by decide, by decide, rfl⟩

/-- A context of a supported method, keyed or not, keeps the invariant. -/
theorem keyed_inv : (keyed blank 0x8000 fvek315 (.keyed tweak315)).Inv := idle_inv _ rfl rfl (by decide) rfl rfl rfl rfl
theorem created_inv : (created blank 0x8002).Inv := idle_inv _ rfl rfl (by decide) rfl rfl rfl rfl

/-- FREE of a keyed context changes a sub-context and the method; SETKEYS keys one. -/
theorem witness_SubcontextsChangeOnlyAtTheirCommands :
    ((running (keyed blank 0x8000 fvek315 (.keyed tweak315)) 2).Inv ∧
      after (step (running (keyed blank 0x8000 fvek315 (.keyed tweak315)) 2)) (fun t => t.ctx.sub .tweakDec) = some .unset) ∧
    ((running (created blank 0x8002) 3).Inv ∧
      after (step (running (created blank 0x8002) 3)) (fun t => t.ctx.sub .fvekEnc) = some (.keyed (key128 0))) :=
  ⟨⟨running_inv _ _ keyed_inv, by decide⟩, ⟨running_inv _ _ created_inv, by decide⟩⟩

theorem witness_MethodIsImmutable :
    (running blank 0x80000001).Inv ∧ after (step (running blank 0x80000001)) (·.ctx.method) = some 0x8000 ∧
    (running (created blank 0x8002) 2).Inv ∧ after (step (running (created blank 0x8002) 2)) (·.ctx.method) = some 0 :=
  ⟨running_inv _ _ blank_inv, by decide, running_inv _ _ created_inv, by decide⟩

/-- CALCKEY (the value is table V7.2's), and a reset. -/
theorem witness_DkeyIsWrittenOnlyByCalckey :
    after (step (running blank 0x0B)) (fun t => t.dkey.toList) =
      some (hex 32 0x10eef285deef7a4b7c82b22aa53589b7833df29de3814649c772bbd5c832f365) ∧
    after1 { blank with dkey := regOfBytes 32 [1] } .powerOnReset (·.dkey) = some (zeroReg 32) := by decide +kernel

theorem witness_EveryStepKeepsInvariant : blank.Inv ∧ step blank = .next blank := ⟨blank_inv, rfl⟩

end Sys2Proof.Machine.Tests
end

section
/-! The state (`10_state.md`): the IRQ line, and which steps change the context. -/

namespace Sys2Proof.Machine

/-! ## What a command makes of the context -/

/-- The contexts a command other than a data command makes from its operands `o` when it succeeds (R275, R278, R281). -/
inductive MakesContext (o : Snapshot) : Instr → Context → Prop
  | init (m : BitVec 16) (hv : o.ctx.valid = false) : MakesContext o (.init m) ⟨true, m, .unset, .unset, .unset, .unset⟩
  | free (hv : o.ctx.valid = true) : MakesContext o .free Context.absent
  | setkeys (cls : MethodClass) (c : Context) (hv : o.ctx.valid = true) (hcls : classify o.ctx.method = some cls)
      (hk : keyedContext o cls = some c) : MakesContext o .setkeys c

theorem rejects_ctx {i : Instr} {s t : State} (h : rejects i s) (ht : exec i s = .next t) : t.ctx = s.ctx := by
  obtain ⟨e, _, he⟩ := h
  cases ht.symm.trans he
  rfl

theorem writesOutput_ctx {i : Instr} {s t : State} (h : writesOutput i s) (ht : exec i s = .next t) : t.ctx = s.ctx := by
  obtain ⟨y, _, he⟩ := h
  cases ht.symm.trans he
  rfl

theorem meetsUnset_ctx {i : Instr} {s t : State} {S : SubId} (h : meetsUnset i s S) (ht : exec i s = .next t) :
    t.ctx = s.ctx := by
  cases ht.symm.trans h
  rfl

theorem not_next_of_consumesUnknown {i : Instr} {s t : State} (h : consumesUnknown i s) : exec i s ≠ .next t := by
  obtain ⟨_, he⟩ := h
  simp [he]

/-- R60: a command leaves the context as it is, or it is INIT, FREE or SETKEYS and succeeds. -/
theorem exec_ctx (i : Instr) (s t : State) (ht : exec i s = .next t) :
    t.ctx = s.ctx ∨ MakesContext s.operands i t.ctx := by
  cases i with
  | init m =>
    rcases execInit_cases m s with h | ⟨hv, h⟩
    · exact .inl (rejects_ctx h ht)
    · cases ht.symm.trans h
      exact .inr (.init m hv)
  | free =>
    rcases execFree_cases s with h | ⟨hv, h⟩
    · exact .inl (rejects_ctx h ht)
    · cases ht.symm.trans h
      exact .inr (.free hv)
  | setkeys =>
    rcases execSetkeys_cases s with h | ⟨cls, c, hv, hcls, hk, h⟩
    · exact .inl (rejects_ctx h ht)
    · cases ht.symm.trans h
      exact .inr (.setkeys cls c hv hcls hk)
  | crypt m =>
    rcases execCrypt_cases m s with h | ⟨_, h | ⟨S, h, _⟩ | h⟩
    · exact .inl (rejects_ctx h ht)
    · exact .inl (writesOutput_ctx h ht)
    · exact .inl (meetsUnset_ctx h ht)
    · exact absurd ht (not_next_of_consumesUnknown h)
  | ecb m k =>
    rcases execEcb_cases m k s with h | h | ⟨S, h⟩ | h
    · exact .inl (rejects_ctx h ht)
    · exact .inl (writesOutput_ctx h ht)
    · exact .inl (meetsUnset_ctx h ht)
    · exact absurd ht (not_next_of_consumesUnknown h)
  | cbc m k =>
    rcases execCbc_cases m k s with h | ⟨_, h | ⟨S, h⟩ | h⟩
    · exact .inl (rejects_ctx h ht)
    · exact .inl (writesOutput_ctx h ht)
    · exact .inl (meetsUnset_ctx h ht)
    · exact absurd ht (not_next_of_consumesUnknown h)
  | diffa m =>
    rcases execDiffa_cases m s with h | ⟨_, h | h⟩
    · exact .inl (rejects_ctx h ht)
    · exact .inl (writesOutput_ctx h ht)
    · exact absurd ht (not_next_of_consumesUnknown h)
  | diffb m =>
    rcases execDiffb_cases m s with h | ⟨_, h | h⟩
    · exact .inl (rejects_ctx h ht)
    · exact .inl (writesOutput_ctx h ht)
    · exact absurd ht (not_next_of_consumesUnknown h)
  | hash8 =>
    rcases execHash8_cases s with h | ⟨v, h⟩ | h
    · exact .inl (rejects_ctx h ht)
    · cases ht.symm.trans h
      exact .inl rfl
    · exact absurd ht (not_next_of_consumesUnknown h)
  | hash16 =>
    rcases execHash16_cases s with h | ⟨v, h⟩ | h
    · exact .inl (rejects_ctx h ht)
    · cases ht.symm.trans h
      exact .inl rfl
    · exact absurd ht (not_next_of_consumesUnknown h)
  | calckey =>
    obtain ⟨v, h⟩ := execCalckey_cases s
    cases ht.symm.trans h
    exact .inl rfl

/-- A completion step leaves the context as it is, or the word decodes to a command that made the new one. -/
theorem runCommand_ctx (cw : Word) (s t : State) (ht : runCommand cw s = .next t) :
    t.ctx = s.ctx ∨ ∃ i, decode cw = .ok i ∧ MakesContext s.operands i t.ctx := by
  unfold runCommand at ht
  cases hd : decode cw with
  | ok i =>
    rw [hd] at ht
    rcases exec_ctx i s t ht with h | h
    · exact .inl h
    · exact .inr ⟨i, rfl, h⟩
  | error e =>
    rw [hd] at ht
    obtain rfl := Host.Outcome.next.inj ht
    refine .inl ?_
    rw [State.failWith_ctx]
    split <;> rfl

/-! ## What the host makes of the context -/

theorem targetOf_eq_ctrl (n off : Nat) (h : targetOf n off = .ctrl) : off = 0x0008 := by
  simp only [targetOf, ite_eq_iff, reduceCtorEq, and_false, false_or, or_false, and_true] at h
  obtain ⟨_, _, h8⟩ := h
  exact h8

theorem writeCtrl_ctx (s : State) (v : Word) :
    (writeCtrl s v).ctx = if v.getLsbD 31 then Context.absent else s.ctx := by
  unfold writeCtrl
  split <;> rfl

@[simp] theorem writeCmd_ctx (s : State) (v : Word) : (writeCmd s v).ctx = s.ctx := by
  unfold writeCmd
  split <;> rfl

/-- A register write leaves the context as it is, unless it is a write of CTRL with SRST set (R34, R382). -/
theorem writeTarget_ctx (s : State) (r : Target) (v : Word) :
    (writeTarget s r v).ctx = s.ctx ∨
    (r = .ctrl ∧ v.getLsbD 31 = true ∧ (writeTarget s r v).ctx = Context.absent) := by
  cases r with
  | ctrl =>
    rw [writeTarget, writeCtrl_ctx]
    split
    · next hv => exact .inr ⟨rfl, hv, rfl⟩
    · exact .inl rfl
  | _ => exact .inl (by simp only [writeTarget, State.acknowledge_ctx, writeCmd_ctx])

/-- The host's turn leaves the context as it is, unless its operation is a reset. -/
theorem hostTurn_ctx (s t : State) (ht : hostTurn s = .next t) :
    t.ctx = s.ctx ∨ (resetsNext s ∧ t.ctx = Context.absent) := by
  rcases hostTurn_cases s t ht with rfl | ⟨off, v, n, hw, _, _, _, rfl⟩ | ⟨d, v, n, rfl⟩ | ⟨n, hop, rfl⟩
  · exact .inl rfl
  · rw [State.hostAt_ctx]
    rcases writeTarget_ctx s (targetOf s.cfg.bufBytes off) v with h | ⟨hr, hv, h⟩
    · exact .inl h
    · rw [targetOf_eq_ctrl _ _ hr] at hw
      exact .inr ⟨.inr ⟨v, hw, hv⟩, h⟩
  · exact .inl rfl
  · exact .inr ⟨.inl hop, rfl⟩

/-! ## What a step makes of the context -/

/-- R60, R273: a step leaves the context as it is, or it is a reset, or it completes the command that makes the new
context from its operands. -/
theorem step_ctx (s t : State) (ht : step s = .next t) :
    t.ctx = s.ctx ∨ (resetsNext s ∧ t.ctx = Context.absent) ∨
    ∃ i, completesNext s i ∧ MakesContext s.operands i t.ctx := by
  rcases step_cases s with ⟨cw, snap, he, hs⟩ | ⟨cw, snap, n, he, hs⟩ | ⟨he, hs⟩
  · rcases runCommand_ctx cw s t (hs.symm.trans ht) with h | ⟨i, hd, h⟩
    · exact .inl h
    · exact .inr (.inr ⟨i, ⟨cw, snap, he, hd⟩, h⟩)
  · rcases hostTurn_ctx (s.tick cw snap n) t (hs.symm.trans ht) with h | h
    · exact .inl h
    · exact .inr (.inl h)
  · rcases hostTurn_ctx s t (hs.symm.trans ht) with h | h
    · exact .inl h
    · exact .inr (.inl h)

theorem Context.absent_sub (S : SubId) : Context.absent.sub S = .unset := by cases S <;> rfl

/-- SETKEYS keys the FVEK pair and, where the method uses it, the Tweak pair; it keeps every other sub-context (R281). -/
theorem keyedContext_sub (o : Snapshot) (cls : MethodClass) (c : Context) (hcls : classify o.ctx.method = some cls)
    (hk : keyedContext o cls = some c) (S : SubId) :
    ((∃ k, c.sub S = .keyed k) ∧ (S = .fvekEnc ∨ S = .fvekDec ∨ cls.usesTweak = true)) ∨ c.sub S = o.ctx.sub S := by
  obtain ⟨kf, kt, _, _, hk'⟩ := keyedContext_of_classify o cls hcls
  cases hk.symm.trans hk'
  cases hu : cls.usesTweak with
  | true =>
    refine .inl ⟨?_, .inr (.inr rfl)⟩
    cases S with
    | fvekEnc => exact ⟨kf, rfl⟩
    | fvekDec => exact ⟨kf, rfl⟩
    | tweakEnc => exact ⟨kt, rfl⟩
    | tweakDec => exact ⟨kt, rfl⟩
  | false =>
    cases S with
    | fvekEnc => exact .inl ⟨⟨kf, rfl⟩, .inl rfl⟩
    | fvekDec => exact .inl ⟨⟨kf, rfl⟩, .inr (.inl rfl)⟩
    | tweakEnc => exact .inr rfl
    | tweakDec => exact .inr rfl

/-- Only the Diffuser methods use the Tweak (R270, R272). -/
theorem method_of_usesTweak (m : BitVec 16) (cls : MethodClass) (h : classify m = some cls)
    (hu : cls.usesTweak = true) : m = 0x8000 ∨ m = 0x8001 := by
  rcases classify_eq_some m cls h with ⟨hm, _⟩ | ⟨hm, _⟩ | ⟨_, rfl⟩ | ⟨_, rfl⟩
  · exact .inl hm
  · exact .inr hm
  · cases hu
  · cases hu

/-- In a state that meets the invariant the operands' context is the current one (R107). -/
theorem State.Inv.operands_ctx {s : State} (h : s.Inv) : s.operands.ctx = s.ctx := by
  rw [h.operands_current]
  rfl

/-- Settles O55: a step that changes the context is a reset or completes the command that made the new context, and a
sub-context of the new context is then Unset, keyed by SETKEYS, or the old one. -/
theorem subcontextsChangeOnlyAtTheirCommands : Obligations.SubcontextsChangeOnlyAtTheirCommands := by
  intro s t S hinv hstep hne
  rcases step_ctx s t hstep with hsame | ⟨hreset, habsent⟩ | ⟨i, hi, hmakes⟩
  · exact absurd (congrArg (·.sub S) hsame) hne
  · exact .inl ⟨.inr (.inr hreset), fun S' => by rw [habsent, Context.absent_sub]⟩
  · generalize t.ctx = c at hmakes hne ⊢
    cases hmakes with
    | init m _ => exact .inl ⟨.inl ⟨m, hi⟩, fun S' => by cases S' <;> rfl⟩
    | free _ => exact .inl ⟨.inr (.inl hi), Context.absent_sub⟩
    | setkeys cls _ _ hcls hk =>
      have hkeyed := keyedContext_sub s.operands cls c hcls hk S
      rw [hinv.operands_ctx] at hcls hkeyed
      obtain ⟨hkey, hS⟩ := hkeyed.resolve_right hne
      refine .inr ⟨hi, hkey, ?_⟩
      rcases hS with hS | hS | hu
      · exact .inl hS
      · exact .inr (.inl hS)
      · exact .inr (.inr (method_of_usesTweak s.ctx.method cls hcls hu))

/-- Settles O19: the line is the OR of three ANDs of Booleans. -/
theorem irqIsALevelOfTheState : Obligations.IrqIsALevelOfTheState := by
  intro s
  unfold State.irq
  simp only [Bool.or_eq_true, Bool.and_eq_true, or_assoc]

end Sys2Proof.Machine
end

section
/-! The command words (`30_encoding.md`): what the decoder answers, word by word, what a word that does not decode
does, and when OVR falls. -/

namespace Sys2Proof

/-! ## What the decoder answers -/

@[simp] theorem modeBits_modeOf (m : BitVec 2) : modeBits (modeOf m) = m := by
  revert m
  decide

@[simp] theorem kselBits_kselOf (k : BitVec 1) : kselBits (kselOf k) = k := by
  revert k
  decide

/-- OPC is the low byte of the word (R120). -/
theorem cwOpc_eq_setWidth (cw : Word) : cwOpc cw = cw.setWidth 8 := by
  apply BitVec.eq_of_toNat_eq
  simp [cwOpc]

theorem requireZero_eq_ok {u : Bool} {i j : Instr} : requireZero u i = .ok j ↔ u = true ∧ i = j := by
  cases u <;> simp [requireZero]

/-- A listed opcode is not answered with RESERVED_OPCODE, whatever its unused fields hold (R123). -/
theorem requireZero_ne_reservedOpcode (u : Bool) (i : Instr) : requireZero u i ≠ .error .reservedOpcode := by
  cases u <;> simp [requireZero]

/-- A word with RSV = 0 is the command word of its fields, each given by an equation. -/
theorem commandWord_of_fields {cw : Word} {i : BitVec 16} {k : BitVec 1} {m : BitVec 2} {o : Byte}
    (hr : cwRsv cw = 0) (hi : cwImm16 cw = i) (hk : cwKsel cw = k) (hm : cwMode cw = m)
    (ho : (cwOpc cw).toNat = o.toNat) : commandWord i k m o = cw := by
  rw [← hi, ← hk, ← hm, ← BitVec.eq_of_toNat_eq ho]
  exact commandWord_fields cw hr

/-- A decoding word is the encoder's word of its command: the decoder drops no bit (R123, R127). -/
theorem encode_of_decode {cw : Word} {i : Instr} (h : decode cw = .ok i) : encode i = cw := by
  unfold decode at h
  split at h
  case h_12 => cases h
  all_goals
    obtain ⟨hz, rfl⟩ := requireZero_eq_ok.1 h
    simp only [Bool.and_eq_true, beq_iff_eq] at hz
  -- INIT
  case h_1 ho =>
    obtain ⟨⟨hm, hk⟩, hr⟩ := hz
    exact commandWord_of_fields hr rfl hk hm ho
  -- FREE, SETKEYS, HASH8, HASH16, CALCKEY
  case h_2 ho | h_3 ho | h_9 ho | h_10 ho | h_11 ho =>
    obtain ⟨⟨⟨hm, hk⟩, hr⟩, hi⟩ := hz
    exact commandWord_of_fields hr hi hk hm ho
  -- CRYPT, DIFFA, DIFFB
  case h_4 ho | h_7 ho | h_8 ho =>
    obtain ⟨⟨hk, hr⟩, hi⟩ := hz
    exact commandWord_of_fields hr hi hk (modeBits_modeOf _).symm ho
  -- ECB, CBC
  case h_5 ho | h_6 ho =>
    obtain ⟨hr, hi⟩ := hz
    exact commandWord_of_fields hr hi (kselBits_kselOf _).symm (modeBits_modeOf _).symm ho

/-- The encoder's word of a command matches the command's row of the match and mask table (R127). -/
theorem encode_matches_row (i : Instr) : encode i &&& rowMask i = rowMatch i := by
  cases i with
  | init m => exact Laws.EncodeRow.init m
  | free => exact Laws.EncodeRow.free
  | setkeys => exact Laws.EncodeRow.setkeys
  | crypt m => exact Laws.EncodeRow.crypt m
  | ecb m k => exact Laws.EncodeRow.ecb m k
  | cbc m k => exact Laws.EncodeRow.cbc m k
  | diffa m => exact Laws.EncodeRow.diffa m
  | diffb m => exact Laws.EncodeRow.diffb m
  | hash8 => exact Laws.EncodeRow.hash8
  | hash16 => exact Laws.EncodeRow.hash16
  | calckey => exact Laws.EncodeRow.calckey

/-- A decoding word matches its command's row of the match and mask table (R127). -/
theorem matches_row_of_decode {cw : Word} {i : Instr} (h : decode cw = .ok i) : cw &&& rowMask i = rowMatch i :=
  encode_of_decode h ▸ encode_matches_row i

/-- The decoder answers RESERVED_OPCODE exactly when OPC is none of 0x01 to 0x0B (R123, R127). -/
theorem decode_eq_reservedOpcode_iff (cw : Word) :
    decode cw = .error .reservedOpcode ↔ (cwOpc cw).toNat = 0 ∨ 12 ≤ (cwOpc cw).toNat := by
  unfold decode
  split
  case h_12 =>
    simp only [imp_false, true_iff] at *
    omega
  all_goals exact iff_of_false (requireZero_ne_reservedOpcode _ _) (by omega)

end Sys2Proof

namespace Sys2Proof.Machine

/-! ## A word that does not decode -/

/-- The report as OPC over the 24 bits of UNIT, CAUSE and CODE (R36, R343). -/
theorem errorWord_eq_append (opc : Byte) (e : CmdError) :
    errorWord opc e = opc ++ ((0 : BitVec 4) ++ unitNum e.unit ++ causeNum e.cause ++ codeNum e.code : BitVec 24) := by
  apply BitVec.eq_of_toNat_eq
  simp only [errorWord, append_toNat]
  omega

theorem runCommand_of_decode_ok {cw : Word} {i : Instr} (h : decode cw = .ok i) (s : State) :
    runCommand cw s = exec i s := by
  simp [runCommand, h]

theorem runCommand_of_decode_error {cw : Word} {e : DecodeError} (h : decode cw = .error e) (s : State) :
    runCommand cw s = rejectWord s cw e := by
  simp [runCommand, h]

/-- When the latency has run out, the step is the completion (R121). -/
theorem step_of_latency_over {s : State} {cw : Word} {snap : Snapshot} (h : s.engine = .busy cw snap 0) :
    step s = runCommand cw s := by
  simp [step, h]

/-- What a completed word leaves of the hidden buffers when it does not decode: a word of CRYPT's opcode is a CRYPT that
fails (R303, R345). -/
def hiddenAfterWord (opc : Byte) (h : Hidden) : Hidden := if opc = 0x04#8 then h.clearSector else h

/-- Completion of a word that does not decode is the error report of its OPC, and nothing else but the hidden buffers
changes (R123, R345). -/
theorem rejectWord_leavesOnlyReport (s : State) (cw : Word) (e : DecodeError) :
    ∃ t, rejectWord s cw e = .next t ∧
      leavesOnlyReport (errorWord (cwOpc cw) (decodeReport e)) (hiddenAfterWord (cwOpc cw) s.hidden) s t := by
  refine ⟨_, rfl, ?_⟩
  have hclear : (if cwOpc cw = 0x04#8 then s.clearSector else s) =
      { s with hidden := hiddenAfterWord (cwOpc cw) s.hidden } := by
    unfold hiddenAfterWord
    split <;> rfl
  rw [hclear]
  exact s.failWith_leavesOnlyReport _ _ _

/-- The step that completes a word that does not decode. -/
theorem step_of_decode_error {s : State} {cw : Word} {snap : Snapshot} {e : DecodeError}
    (hs : s.engine = .busy cw snap 0) (h : decode cw = .error e) :
    ∃ t, step s = .next t ∧
      leavesOnlyReport (errorWord (cwOpc cw) (decodeReport e)) (hiddenAfterWord (cwOpc cw) s.hidden) s t := by
  rw [step_of_latency_over hs, runCommand_of_decode_error h]
  exact rejectWord_leavesOnlyReport s cw e

/-- Settles O4: an OPC outside the table decodes to RESERVED_OPCODE; a listed one that matches no row cannot decode, since a
decoding word matches its row, so it decodes to RESERVED_BITS. -/
theorem undecodableWordReportsIllegalCommand : Obligations.UndecodableWordReportsIllegalCommand := by
  intro s cw snap hs
  rw [← cwOpc_eq_setWidth]
  refine ⟨fun hopc => ?_, fun ⟨hlow, hhigh, hrow⟩ => ?_⟩
  · have hdec : decode cw = .error .reservedOpcode := (decode_eq_reservedOpcode_iff cw).2 (by bv_omega)
    obtain ⟨t, ht, hreport⟩ := step_of_decode_error hs hdec
    have hnot4 : cwOpc cw ≠ 0x04#8 := by bv_omega
    rw [errorWord_eq_append, hiddenAfterWord, if_neg hnot4] at hreport
    exact ⟨t, ht, hreport⟩
  · have hdec : decode cw = .error .reservedBits := by
      cases h : decode cw with
      | ok i => exact absurd (matches_row_of_decode h) (hrow i)
      | error e =>
        cases e with
        | reservedBits => rfl
        | reservedOpcode =>
          have := (decode_eq_reservedOpcode_iff cw).1 h
          bv_omega
    obtain ⟨t, ht, hreport⟩ := step_of_decode_error hs hdec
    rw [errorWord_eq_append] at hreport
    exact ⟨t, ht, hreport⟩

/-! ## OVR -/

/-- No command touches OVR (R122). -/
theorem exec_ovr (i : Instr) (s t : State) (ht : exec i s = .next t) : t.ovr = s.ovr := by
  rcases exec_outcomes i s with ⟨e, _, h⟩ | ⟨_, y, _, h⟩ | ⟨S, h, _⟩ | ⟨_, h⟩ | ⟨c, f, w, p, d, _, h⟩
  · cases ht.symm.trans h
    rfl
  · cases ht.symm.trans h
    rfl
  · cases ht.symm.trans h
    rfl
  · cases ht.symm.trans h
  · cases ht.symm.trans h
    rfl

/-- No completion touches OVR, of a word that decodes or not. -/
theorem runCommand_ovr (cw : Word) (s t : State) (ht : runCommand cw s = .next t) : t.ovr = s.ovr := by
  cases hd : decode cw with
  | ok i => exact exec_ovr i s t ((runCommand_of_decode_ok hd s).symm.trans ht)
  | error e =>
    obtain ⟨u, hu, _, hregs, _⟩ := rejectWord_leavesOnlyReport s cw e
    cases ht.symm.trans ((runCommand_of_decode_error hd s).trans hu)
    obtain ⟨_, _, _, _, hovr, _⟩ := hregs
    exact hovr

theorem targetOf_eq_status (n off : Nat) (h : targetOf n off = .status) : off = 0x000C := by
  simp only [targetOf, ite_eq_iff, reduceCtorEq, and_false, false_or, or_false, and_true] at h
  obtain ⟨_, _, _, hoff⟩ := h
  exact hoff

/-- A register write that lowers OVR is a STATUS write with bit 3 set or a CTRL write with SRST set (R35, R382). -/
theorem writeTarget_lowers_ovr (s : State) (r : Target) (v : Word) (hs : s.ovr = true)
    (hf : (writeTarget s r v).ovr = false) :
    (r = .status ∧ v.getLsbD 3 = true) ∨ (r = .ctrl ∧ v.getLsbD 31 = true) := by
  cases r with
  | status =>
    rw [writeTarget, State.acknowledge_ovr, hs] at hf
    exact .inl ⟨rfl, by simpa using hf⟩
  | ctrl =>
    rw [writeTarget, writeCtrl] at hf
    split at hf
    · next hv => exact .inr ⟨rfl, hv⟩
    · cases hs.symm.trans hf
  | cmd =>
    rw [writeTarget, writeCmd] at hf
    split at hf
    · cases hf
    · cases hs.symm.trans hf
  | _ => simp only [writeTarget, hs, reduceCtorEq] at hf

/-- A turn of the host that lowers OVR writes 1 to STATUS bit 3 or is a reset. -/
theorem hostTurn_lowers_ovr (s t : State) (ht : hostTurn s = .next t) (hs : s.ovr = true) (hf : t.ovr = false) :
    writesBit s 0x000C 3 ∨ resetsNext s := by
  rcases hostTurn_cases s t ht with rfl | ⟨off, v, n, hw, _, _, _, rfl⟩ | ⟨d, v, n, rfl⟩ | ⟨n, hop, _⟩
  · cases hs.symm.trans hf
  · rw [State.hostAt_ovr] at hf
    rcases writeTarget_lowers_ovr s _ v hs hf with ⟨hr, hv⟩ | ⟨hr, hv⟩
    · rw [targetOf_eq_status _ _ hr] at hw
      exact .inl ⟨v, hw, hv⟩
    · rw [targetOf_eq_ctrl _ _ hr] at hw
      exact .inr (.inr ⟨v, hw, hv⟩)
  · cases hs.symm.trans hf
  · exact .inr (.inl hop)

/-- A CMD write while Busy is the overrun, and no hazard (R122, R390). -/
theorem hostWrite_cmd_of_busy (s : State) (cw : Word) (h : s.isBusy = true) :
    hostWrite s .w32 (s.cfg.base + 0x0028) cw = .ok s.overrun := by
  have htarget : targetOf s.cfg.bufBytes 0x0028 = .cmd := rfl
  rw [hostWrite_base s _ cw (by decide) (by decide), htarget]
  simp [writeHazard, writeTarget, writeCmd, h]

/-- Settles O10: the write is the overrun; a completion keeps OVR, so a step that lowers it is the host's turn. -/
theorem cmdWriteWhileBusyIsDropped : Obligations.CmdWriteWhileBusyIsDropped := by
  refine ⟨hostWrite_cmd_of_busy, fun s t ht hs hf => ?_⟩
  rcases step_cases s with ⟨cw, snap, _, hstep⟩ | ⟨cw, snap, n, _, hstep⟩ | ⟨_, hstep⟩
  · have hkept := runCommand_ovr cw s t (hstep.symm.trans ht)
    cases hs.symm.trans (hkept.symm.trans hf)
  · exact hostTurn_lowers_ovr (s.tick cw snap n) t (hstep.symm.trans ht) hs hf
  · exact hostTurn_lowers_ovr s t (hstep.symm.trans ht) hs hf

end Sys2Proof.Machine
end

section
/-! The AES tables (`40_aes.md`): the S-box against the field inverse, and the inverse S-box. -/

namespace Sys2Proof.Machine

/-! ## The S-box as the affine map of the field inverse (R154) -/

/-- The affine map that R154 applies to the field inverse. -/
def sboxAffine (b : Byte) : Byte :=
  b ^^^ b.rotateLeft 1 ^^^ b.rotateLeft 2 ^^^ b.rotateLeft 3 ^^^ b.rotateLeft 4 ^^^ 0x63

/-- The affine map turned back. With rotation as multiplication by x modulo x^8 + 1, the factor 1 + x + x^2 + x^3 + x^4
has the inverse x + x^3 + x^6. -/
def sboxUnaffine (c : Byte) : Byte := c.rotateLeft 1 ^^^ c.rotateLeft 3 ^^^ c.rotateLeft 6 ^^^ 0x05

theorem sboxAffine_sboxUnaffine (c : Byte) : sboxAffine (sboxUnaffine c) = c := by
  revert c
  decide

/-- The field inverse of a byte as the S-box table holds it, under the affine map. -/
def sboxInverse (x : Byte) : Byte := sboxUnaffine (sbox x)

theorem sboxAffine_sboxInverse (x : Byte) : sboxAffine (sboxInverse x) = sbox x := sboxAffine_sboxUnaffine (sbox x)

theorem sboxInverse_zero : sboxInverse 0 = 0 := by decide

theorem gmul_sboxInverse {x : Byte} (hx : x ≠ 0) : gmul x (sboxInverse x) = 1 := by
  revert x
  decide

/-! ## The inverse S-box (R155) -/

@[simp] theorem invSbox_sbox (x : Byte) : invSbox (sbox x) = x := by
  revert x
  decide

theorem sbox_surjective : Function.Surjective sbox := by
  have : Finite Byte := .of_equiv _ BitVec.equivFin.symm.toEquiv
  exact Finite.surjective_of_injective (Function.LeftInverse.injective invSbox_sbox)

/-- A left inverse on the finite set of bytes is a right inverse. -/
@[simp] theorem sbox_invSbox (x : Byte) : sbox (invSbox x) = x :=
  Function.LeftInverse.rightInverse_of_surjective invSbox_sbox sbox_surjective x

/-- Settles O46: the witness is the inverse that the table holds under the affine map. -/
theorem sboxIsAffineOfInverse : Obligations.SboxIsAffineOfInverse := by
  intro x
  refine ⟨⟨sboxInverse x, ?atZero, gmul_sboxInverse, (sboxAffine_sboxInverse x).symm⟩, invSbox_sbox x, sbox_invSbox x⟩
  case atZero =>
    rintro rfl
    exact sboxInverse_zero

end Sys2Proof.Machine
end

section
/-! The UTF-8 conversion (`42_kdf.md` R237): the byte rules as a relation between a scalar value and its sequence. -/

namespace Sys2Proof.Machine

/-! ## One sequence -/

/-- The byte rules of R237 for one sequence, a constructor per length: the lead byte's range, the continuation bytes, and
the bounds on the scalar value. -/
inductive Utf8Sequence : Nat → List Byte → Prop
  | one (b0 : Byte) : b0.toNat ≤ 0x7F → Utf8Sequence b0.toNat [b0]
  | two (b0 b1 : Byte) : 0xC2 ≤ b0.toNat ∧ b0.toNat ≤ 0xDF → utf8Cont b1 = true →
      Utf8Sequence (utf8Bits b0 5 * 64 + utf8Bits b1 6) [b0, b1]
  | three (b0 b1 b2 : Byte) : 0xE0 ≤ b0.toNat ∧ b0.toNat ≤ 0xEF → utf8Cont b1 = true → utf8Cont b2 = true →
      utf8Ok3 (utf8Bits b0 4 * 4096 + utf8Bits b1 6 * 64 + utf8Bits b2 6) = true →
      Utf8Sequence (utf8Bits b0 4 * 4096 + utf8Bits b1 6 * 64 + utf8Bits b2 6) [b0, b1, b2]
  | four (b0 b1 b2 b3 : Byte) : 0xF0 ≤ b0.toNat ∧ b0.toNat ≤ 0xF4 → utf8Cont b1 = true → utf8Cont b2 = true →
      utf8Cont b3 = true →
      utf8Ok4 (utf8Bits b0 3 * 262144 + utf8Bits b1 6 * 4096 + utf8Bits b2 6 * 64 + utf8Bits b3 6) = true →
      Utf8Sequence (utf8Bits b0 3 * 262144 + utf8Bits b1 6 * 4096 + utf8Bits b2 6 * 64 + utf8Bits b3 6) [b0, b1, b2, b3]

@[simp] theorem utf8Cont_iff (b : Byte) : utf8Cont b = true ↔ 0x80 ≤ b.toNat ∧ b.toNat ≤ 0xBF := decide_eq_true_iff

@[simp] theorem utf8Ok3_iff (cp : Nat) : utf8Ok3 cp = true ↔ 0x800 ≤ cp ∧ ¬ (0xD800 ≤ cp ∧ cp ≤ 0xDFFF) :=
  decide_eq_true_iff

@[simp] theorem utf8Ok4_iff (cp : Nat) : utf8Ok4 cp = true ↔ 0x10000 ≤ cp ∧ cp ≤ 0x10FFFF := decide_eq_true_iff

theorem eq_ofNat_of_toNat_eq {b : Byte} {n : Nat} (h : b.toNat = n) : b = BitVec.ofNat 8 n := by
  rw [← h, BitVec.ofNat_toNat, BitVec.setWidth_eq]

/-- The byte that `utf8Encode` writes for a value below 256, with that value. -/
theorem exists_byte {n : Nat} (h : n < 256) : ∃ b : Byte, BitVec.ofNat 8 n = b ∧ b.toNat = n :=
  ⟨BitVec.ofNat 8 n, rfl, by rw [BitVec.toNat_ofNat, Nat.mod_eq_of_lt h]⟩

theorem Utf8Sequence.isScalar {cp : Nat} {l : List Byte} (h : Utf8Sequence cp l) : isScalar cp := by
  unfold Machine.isScalar
  cases h with
  | one b0 h0 => omega
  | two b0 b1 h0 h1 => simp only [utf8Bits]; omega
  | three b0 b1 b2 h0 h1 h2 hok =>
    rw [utf8Ok3_iff] at hok
    simp only [utf8Bits] at *
    omega
  | four b0 b1 b2 b3 h0 h1 h2 h3 hok =>
    rw [utf8Ok4_iff] at hok
    omega

theorem Utf8Sequence.length_pos {cp : Nat} {l : List Byte} (h : Utf8Sequence cp l) : 0 < l.length := by
  cases h <;> exact Nat.succ_pos _

/-- The byte rules leave no choice: the scalar value gives the sequence back. -/
theorem Utf8Sequence.eq_utf8Encode {cp : Nat} {l : List Byte} (h : Utf8Sequence cp l) : l = utf8Encode cp := by
  cases h with
  | one b0 h0 =>
    rw [utf8Encode, if_pos (by omega), BitVec.ofNat_toNat, BitVec.setWidth_eq]
  | two b0 b1 h0 h1 =>
    simp only [utf8Bits, utf8Cont_iff] at *
    rw [utf8Encode, if_neg (by omega), if_pos (by omega)]
    congr <;> exact eq_ofNat_of_toNat_eq (by omega)
  | three b0 b1 b2 h0 h1 h2 hok =>
    simp only [utf8Bits, utf8Cont_iff, utf8Ok3_iff] at *
    rw [utf8Encode, if_neg (by omega), if_neg (by omega), if_pos (by omega)]
    congr <;> exact eq_ofNat_of_toNat_eq (by omega)
  | four b0 b1 b2 b3 h0 h1 h2 h3 hok =>
    simp only [utf8Bits, utf8Cont_iff, utf8Ok4_iff] at *
    rw [utf8Encode, if_neg (by omega), if_neg (by omega), if_neg (by omega)]
    congr <;> exact eq_ofNat_of_toNat_eq (by omega)

/-- The encoder obeys the byte rules: each of its bytes is in range, and their payloads make up the scalar value. -/
theorem utf8Sequence_utf8Encode {cp : Nat} (h : isScalar cp) : Utf8Sequence cp (utf8Encode cp) := by
  obtain ⟨hmax, hsur⟩ := h
  unfold utf8Encode
  split_ifs with h1 h2 h3
  case pos =>
    obtain ⟨b0, e0, v0⟩ := exists_byte (n := cp) (by omega)
    rw [e0, ← v0]
    exact .one b0 (by omega)
  case pos =>
    obtain ⟨b0, e0, v0⟩ := exists_byte (n := 0xC0 + cp / 64) (by omega)
    obtain ⟨b1, e1, v1⟩ := exists_byte (n := 0x80 + cp % 64) (by omega)
    have hcp : utf8Bits b0 5 * 64 + utf8Bits b1 6 = cp := by simp only [utf8Bits]; omega
    rw [e0, e1, ← hcp]
    exact .two b0 b1 (by omega) (by rw [utf8Cont_iff]; omega)
  case pos =>
    obtain ⟨b0, e0, v0⟩ := exists_byte (n := 0xE0 + cp / 4096) (by omega)
    obtain ⟨b1, e1, v1⟩ := exists_byte (n := 0x80 + cp / 64 % 64) (by omega)
    obtain ⟨b2, e2, v2⟩ := exists_byte (n := 0x80 + cp % 64) (by omega)
    have hcp : utf8Bits b0 4 * 4096 + utf8Bits b1 6 * 64 + utf8Bits b2 6 = cp := by simp only [utf8Bits]; omega
    rw [e0, e1, e2, ← hcp]
    exact .three b0 b1 b2 (by omega) (by rw [utf8Cont_iff]; omega) (by rw [utf8Cont_iff]; omega)
      (by rw [hcp, utf8Ok3_iff]; omega)
  case neg =>
    obtain ⟨b0, e0, v0⟩ := exists_byte (n := 0xF0 + cp / 262144) (by omega)
    obtain ⟨b1, e1, v1⟩ := exists_byte (n := 0x80 + cp / 4096 % 64) (by omega)
    obtain ⟨b2, e2, v2⟩ := exists_byte (n := 0x80 + cp / 64 % 64) (by omega)
    obtain ⟨b3, e3, v3⟩ := exists_byte (n := 0x80 + cp % 64) (by omega)
    have hcp : utf8Bits b0 3 * 262144 + utf8Bits b1 6 * 4096 + utf8Bits b2 6 * 64 + utf8Bits b3 6 = cp := by
      simp only [utf8Bits]; omega
    rw [e0, e1, e2, e3, ← hcp]
    exact .four b0 b1 b2 b3 (by omega) (by rw [utf8Cont_iff]; omega) (by rw [utf8Cont_iff]; omega)
      (by rw [utf8Cont_iff]; omega) (by rw [hcp, utf8Ok4_iff]; omega)

theorem utf16_eq_utf16Encode (cp : Nat) : utf16 cp = utf16Encode cp := by
  unfold utf16 utf16Encode
  split_ifs <;> rfl

/-! ## The conversion, one sequence at a time -/

/-- What the conversion does with a sequence at the head of the string. -/
theorem u8to16_sequence_append {cp : Nat} {l : List Byte} (h : Utf8Sequence cp l) (r : List Byte) :
    u8to16 (l ++ r) = (u8to16 r).map (utf16 cp ++ ·) := by
  rw [u8to16.eq_def]
  cases h with
  | one b0 h0 => simp only [List.cons_append, List.nil_append, if_pos h0]
  | two b0 b1 h0 h1 =>
    have n1 : ¬ b0.toNat ≤ 0x7F := by omega
    simp [n1, h0, h1]
  | three b0 b1 b2 h0 h1 h2 hok =>
    have n1 : ¬ b0.toNat ≤ 0x7F := by omega
    have n2 : ¬ (0xC2 ≤ b0.toNat ∧ b0.toNat ≤ 0xDF) := by omega
    simp [n1, n2, h0, h1, h2, hok]
  | four b0 b1 b2 b3 h0 h1 h2 h3 hok =>
    have n1 : ¬ b0.toNat ≤ 0x7F := by omega
    have n2 : ¬ (0xC2 ≤ b0.toNat ∧ b0.toNat ≤ 0xDF) := by omega
    have n3 : ¬ (0xE0 ≤ b0.toNat ∧ b0.toNat ≤ 0xEF) := by omega
    simp [n1, n2, n3, h0, h1, h2, h3, hok]

/-- A string that is not refused is empty or has a sequence at its head: the branches of the conversion that go on are
the four rows of the byte rules, and every other branch refuses. -/
theorem u8to16_eq_none_or_sequence (x : List Byte) :
    u8to16 x = none ∨ x = [] ∨ ∃ cp l r, Utf8Sequence cp l ∧ x = l ++ r := by
  fun_cases u8to16 x with
  | case1 => exact .inr (.inl rfl)
  | case2 b0 r0 h0 => exact .inr (.inr ⟨_, _, r0, .one b0 h0, rfl⟩)
  | case5 b0 _ b1 r1 h1 h0 => exact .inr (.inr ⟨_, _, r1, .two b0 b1 h0 (Bool.of_not_eq_false h1), rfl⟩)
  | case8 b0 _ b1 h1 _ b2 r2 h2 h0 _ hok =>
    exact .inr (.inr ⟨_, _, r2, .three b0 b1 b2 h0 (Bool.of_not_eq_false h1) (Bool.of_not_eq_false h2) hok, rfl⟩)
  | case12 b0 _ b1 h1 _ b2 h2 _ b3 r3 h3 h0 _ hok =>
    exact .inr (.inr ⟨_, _, r3, .four b0 b1 b2 b3 h0 (Bool.of_not_eq_false h1) (Bool.of_not_eq_false h2)
      (Bool.of_not_eq_false h3) hok, rfl⟩)
  | _ => exact .inl rfl

/-! ## The whole string -/

/-- Accepted strings are encodings of scalar values, by induction on the length of what is left. -/
theorem exists_scalars_of_u8to16 {x u : List Byte} (h : u8to16 x = some u) :
    ∃ cps : List Nat, (∀ cp ∈ cps, isScalar cp) ∧ x = cps.flatMap utf8Encode ∧ u = cps.flatMap utf16Encode := by
  induction hn : x.length using Nat.strong_induction_on generalizing x u with
  | _ n ih =>
    obtain hnone | rfl | ⟨cp, l, r, hl, rfl⟩ := u8to16_eq_none_or_sequence x
    · rw [hnone] at h
      cases h
    · rw [u8to16, Option.some.injEq] at h
      exact ⟨[], List.forall_mem_nil _, rfl, h.symm⟩
    · rw [u8to16_sequence_append hl, Option.map_eq_some_iff] at h
      obtain ⟨v, hv, rfl⟩ := h
      have hlen : r.length < n := by
        have := hl.length_pos
        rw [List.length_append] at hn
        omega
      obtain ⟨cps, hcps, rfl, rfl⟩ := ih r.length hlen hv rfl
      exact ⟨cp :: cps, List.forall_mem_cons.mpr ⟨hl.isScalar, hcps⟩, by rw [hl.eq_utf8Encode, List.flatMap_cons],
        by rw [utf16_eq_utf16Encode, List.flatMap_cons]⟩

/-- Encodings of scalar values are accepted, one sequence per scalar value. -/
theorem u8to16_flatMap_utf8Encode (cps : List Nat) (h : ∀ cp ∈ cps, isScalar cp) :
    u8to16 (cps.flatMap utf8Encode) = some (cps.flatMap utf16Encode) := by
  induction cps with
  | nil => rw [List.flatMap_nil, List.flatMap_nil, u8to16]
  | cons cp cps ih =>
    obtain ⟨hcp, hcps⟩ := List.forall_mem_cons.mp h
    rw [List.flatMap_cons, List.flatMap_cons, u8to16_sequence_append (utf8Sequence_utf8Encode hcp), ih hcps,
      utf16_eq_utf16Encode, Option.map_some]

/-- Settles O39: a sequence at the head of the string is one scalar value, both ways. -/
theorem utf8ConversionIsExact : Obligations.Utf8ConversionIsExact := by
  intro x u
  constructor
  · exact exists_scalars_of_u8to16
  · rintro ⟨cps, hcps, rfl, rfl⟩
    exact u8to16_flatMap_utf8Encode cps hcps

end Sys2Proof.Machine
end

section
/-! The context's method (`43_context.md`): which steps set and clear it. -/

namespace Sys2Proof.Machine

/-- SETKEYS keeps the method of the context that it keys (R273, R281). -/
theorem keyedContext_method (o : Snapshot) (cls : MethodClass) (c : Context) (hcls : classify o.ctx.method = some cls)
    (hk : keyedContext o cls = some c) : c.method = o.ctx.method := by
  obtain ⟨kf, kt, _, _, hk'⟩ := keyedContext_of_classify o cls hcls
  cases hk.symm.trans hk'
  cases cls.usesTweak <;> rfl

/-- Settles O56: a step that changes the context is a reset or completes INIT, FREE or SETKEYS, and SETKEYS keeps the
method; the invariant says that INIT saw the current context. -/
theorem methodIsImmutable : Obligations.MethodIsImmutable := by
  intro s t hinv hstep hne
  rcases step_ctx s t hstep with hsame | ⟨hreset, habsent⟩ | ⟨i, hi, hmakes⟩
  · exact absurd (congrArg (·.method) hsame) hne
  · rw [habsent]
    exact .inr ⟨rfl, rfl, .inr hreset⟩
  · generalize t.ctx = c at hmakes hne ⊢
    cases hmakes with
    | init m hv =>
      rw [hinv.operands_ctx] at hv
      exact .inl ⟨hv, hi, rfl⟩
    | free _ => exact .inr ⟨rfl, rfl, .inl hi⟩
    | setkeys cls _ _ hcls hk =>
      have hkept := keyedContext_method s.operands cls c hcls hk
      rw [hinv.operands_ctx] at hkept
      exact absurd hkept hne

end Sys2Proof.Machine
end

section
/-! The reset state (`70_reset_and_hazards.md`): what the host sees of `State.fresh`, which is every reset's result. -/

namespace Sys2Proof.Machine

section
variable (cfg : Params) (mem : Memory) (host : HostSide) (draws : Nat)

/-- CTRL after a reset: no enable is set (R34, R68). -/
@[simp] theorem State.fresh_ctrlWord : (State.fresh cfg mem host draws).ctrlWord = 0 := by
  simp [State.ctrlWord]

/-- STATUS after a reset: Idle, no report, no context, and nothing Keyed (R35, R68). -/
@[simp] theorem State.fresh_statusWord : (State.fresh cfg mem host draws).statusWord = 0 := by
  have hfvek : (State.fresh cfg mem host draws).fvekKeyed = false := rfl
  have htweak : (State.fresh cfg mem host draws).tweakKeyed = false := rfl
  simp [State.statusWord, State.isBusy, hfvek, htweak, Context.absent]

/-- METHOD after a reset: no context exists (R37, R68). -/
@[simp] theorem State.fresh_methodWord : (State.fresh cfg mem host draws).methodWord = 0 := by
  simp [State.methodWord, Context.absent]

/-- IRQ after a reset: the line is low, as no enable is set (R67, R68). -/
@[simp] theorem State.fresh_irq : (State.fresh cfg mem host draws).irq = false := by
  simp [State.irq]

/-- Both columns of R68 but for IBUF and OBUF, which the caller gives. -/
theorem State.fresh_registersReset : registersReset (State.fresh cfg mem host draws) := by
  refine ⟨?flags, ?words, ?keys, ?context, ?engine⟩
  case context =>
    rw [State.fresh_ctx]
    exact ⟨rfl, rfl, State.fresh_methodWord .., Context.absent_sub⟩
  case flags | words | keys | engine => simp

end

/-- Settles O11: either reset is `State.fresh` over the empty memory, in which every byte is Unknown. -/
theorem resetRegisterValues : Obligations.ResetRegisterValues := by
  rintro r (rfl | ⟨s, rfl⟩)
  · exact ⟨State.fresh_registersReset .., Memory.read_nil⟩
  · exact ⟨State.fresh_registersReset .., Memory.read_nil⟩

end Sys2Proof.Machine
end

section
/-! The decoder and the encoder (`30_encoding.md`): the round trip, and the match and mask table. -/

namespace Sys2Proof

@[simp] theorem modeOf_modeBits (m : Mode) : modeOf (modeBits m) = m := by cases m <;> rfl

@[simp] theorem kselOf_kselBits (k : KeySel) : kselOf (kselBits k) = k := by cases k <;> rfl

/-- Settles O1: each field is read back from the command word, and MODE and KSEL from their bits. -/
theorem decodeEncodeRoundTrip : Obligations.DecodeEncodeRoundTrip := by
  intro i
  cases i <;> simp [decode, encode, Instr.opc, requireZero]

/-- Settles O2: the decoder drops no bit. -/
theorem decodedWordIsTheEncodersWord : Obligations.DecodedWordIsTheEncodersWord :=
  fun _ _ h => encode_of_decode h

/-! ## The match and mask table -/

/-- A field of a word that matches a row: the bits that the row's mask covers are the row's (R127). -/
theorem extractLsb'_of_matches_row {cw : Word} {i : Instr} (h : cw &&& rowMask i = rowMatch i) (lo n : Nat) :
    cw.extractLsb' lo n &&& (rowMask i).extractLsb' lo n = (rowMatch i).extractLsb' lo n := by
  rw [← BitVec.extractLsb'_and, h]

/-- OPC of a word that matches a row is the row's opcode: every mask covers OPC (R127). -/
theorem cwOpc_of_matches_row {cw : Word} {i : Instr} (h : cw &&& rowMask i = rowMatch i) : cwOpc cw = i.opc := by
  have hopc := extractLsb'_of_matches_row h 0 8
  have hmask : (rowMask i).extractLsb' 0 8 = BitVec.allOnes 8 := by cases i <;> simp only [rowMask] <;> decide
  have hmatch : (rowMatch i).extractLsb' 0 8 = i.opc := by cases i <;> simp only [rowMatch, Instr.opc] <;> decide
  rwa [hmask, hmatch, BitVec.and_allOnes] at hopc

/-- A field that a row's mask covers and that is 0 in the row is 0 in a word that matches the row. -/
theorem extractLsb'_eq_zero_of_matches_row {cw : Word} {i : Instr} (h : cw &&& rowMask i = rowMatch i) {lo n : Nat}
    (hmask : (rowMask i).extractLsb' lo n = BitVec.allOnes n) (hmatch : (rowMatch i).extractLsb' lo n = 0) :
    cw.extractLsb' lo n = 0 := by
  have hfield := extractLsb'_of_matches_row h lo n
  rwa [hmask, hmatch, BitVec.and_allOnes] at hfield

/-- A word that matches a row has only zeros in the fields the command does not use, so it decodes (R123, R127). -/
theorem decode_of_matches_row {cw : Word} {i : Instr} (h : cw &&& rowMask i = rowMatch i) :
    ∃ j, decode cw = .ok j ∧ j.opc = i.opc := by
  have hopc := cwOpc_of_matches_row h
  have hmode : (rowMask i).extractLsb' 8 2 = BitVec.allOnes 2 → cwMode cw = 0 := fun hm =>
    extractLsb'_eq_zero_of_matches_row h hm (by cases i <;> simp [rowMatch])
  have hksel : (rowMask i).extractLsb' 10 1 = BitVec.allOnes 1 → cwKsel cw = 0 := fun hm =>
    extractLsb'_eq_zero_of_matches_row h hm (by cases i <;> simp [rowMatch])
  have hrsv : cwRsv cw = 0 :=
    extractLsb'_eq_zero_of_matches_row h (by cases i <;> simp only [rowMask] <;> decide)
      (by cases i <;> simp [rowMatch])
  have himm : (rowMask i).extractLsb' 16 16 = BitVec.allOnes 16 → cwImm16 cw = 0 := fun hm =>
    extractLsb'_eq_zero_of_matches_row h hm (by cases i <;> simp [rowMatch])
  cases i with
  | init m =>
    simp only [rowMask] at hmode hksel
    simp [decode, hopc, Instr.opc, requireZero, hmode (by decide), hksel (by decide), hrsv]
  | free | setkeys | hash8 | hash16 | calckey =>
    simp only [rowMask] at hmode hksel himm
    simp [decode, hopc, Instr.opc, requireZero, hmode (by decide), hksel (by decide), hrsv, himm (by decide)]
  | crypt m | diffa m | diffb m =>
    simp only [rowMask] at hksel himm
    simp [decode, hopc, Instr.opc, requireZero, hksel (by decide), hrsv, himm (by decide)]
  | ecb m k | cbc m k =>
    simp only [rowMask] at himm
    simp [decode, hopc, Instr.opc, requireZero, hrsv, himm (by decide)]

/-- Settles O3: a decoding word matches its row; a matching word has the row's OPC, so two rows that match have one OPC, and
it has zeros in every unused field. -/
theorem decoderAgreesWithMatchTable : Obligations.DecoderAgreesWithMatchTable :=
  ⟨fun _ _ h => matches_row_of_decode h, fun _ _ h => decode_of_matches_row h,
    fun _ _ _ hi hj => (cwOpc_of_matches_row hi).symm.trans (cwOpc_of_matches_row hj)⟩

/-- Settles O5, one evaluation of the decoder per word. -/
theorem sampleCommandWords : Obligations.SampleCommandWords := by
  unfold Obligations.SampleCommandWords
  decide

end Sys2Proof
end

section
/-! The invariant (`00_scope.md` R10, `10_state.md`, `60_exceptions.md`): the reset state meets it and every step keeps it. -/

namespace Sys2Proof.Machine

/-! ## Listed reports -/

/-- Every listed report is an error: its CODE is not 0 (R340, R343). -/
theorem code_ne_none_of_listed {opc : Byte} {e : CmdError} (h : e ∈ listedReports opc) : e.code ≠ .none := by
  unfold listedReports at h
  split at h <;> simp only [List.mem_cons, List.not_mem_nil, or_false] at h <;>
    rcases h with rfl | rfl | rfl | rfl | rfl | rfl | rfl | rfl | rfl | rfl | rfl <;> decide

theorem errorWord_ne_zero {opc : Byte} {e : CmdError} (h : e.code ≠ .none) : errorWord opc e ≠ 0 := by
  intro h0
  have hcode := errorWord_code opc e
  rw [h0] at hcode
  revert hcode
  cases he : e.code <;> first | exact absurd he h | decide

/-- A report of the list makes ERROR a listed value that is not 0. -/
theorem errorListed_errorWord {opc : Byte} {e : CmdError} (h : e ∈ listedReports opc) : errorListed (errorWord opc e) := by
  refine .inr ⟨e, ?_, ?_⟩ <;> rw [errorWord_opc]
  exact h

/-- The report of a word that does not decode is listed for its OPC (R123, R343). -/
theorem decodeReport_mem_listedReports {cw : Word} {e : DecodeError} (h : decode cw = .error e) :
    decodeReport e ∈ listedReports (cwOpc cw) := by
  have hiff := decode_eq_reservedOpcode_iff cw
  unfold listedReports
  cases e with
  | reservedOpcode =>
    have hopc := hiff.1 h
    split
    case h_12 => exact List.mem_singleton.2 rfl
    all_goals omega
  | reservedBits =>
    have hopc : ¬ ((cwOpc cw).toNat = 0 ∨ 12 ≤ (cwOpc cw).toNat) := fun ho => by cases h.symm.trans (hiff.2 ho)
    split
    case h_12 =>
      simp only [imp_false] at *
      omega
    all_goals simp [decodeReport]

/-! ## Idle states -/

/-- While Idle the invariant's clauses on the command in progress say nothing. -/
theorem State.Inv.of_idle {t : State} (he : t.engine = .idle) (hcfg : t.cfg.legal) (hwf : t.mem.wf)
    (hbacked : ∀ c ∈ t.mem, backed t.cfg c.1) (hctx : t.ctx.wf) (hhidden : t.hidden = Hidden.zero)
    (hlisted : errorListed t.error) (herr : t.err = true → t.error ≠ 0) : t.Inv where
  cfg_legal := hcfg
  mem_wf := hwf
  mem_backed := hbacked
  ctx_wf := hctx
  hidden_zero := hhidden
  operands_current := t.operands_idle he
  busy_clear hb := by simp [t.isBusy_idle he] at hb
  error_listed := hlisted
  err_reported := herr

/-- A reset over legal parameters and well-formed buffers (R68). -/
theorem State.Inv.fresh {cfg : Params} {mem : Memory} (host : HostSide) (draws : Nat) (hcfg : cfg.legal) (hwf : mem.wf)
    (hbacked : ∀ c ∈ mem, backed cfg c.1) : (State.fresh cfg mem host draws).Inv :=
  .of_idle rfl hcfg hwf hbacked ⟨rfl, rfl, fun _ => rfl, rfl⟩ rfl (.inl rfl) (by simp)

/-- Settles O58: the default parameters are legal, whichever window the platform gives, and the buffers list nothing. -/
theorem resetMeetsInvariant : Obligations.ResetMeetsInvariant := by
  refine .fresh _ _ ⟨by decide, by decide, by decide, by decide, ?_, ?_⟩ Memory.wf_nil (by simp)
  · simp [Params.default]
  · simp [Params.default]

/-! ## The host's turn -/

theorem State.Inv.tick {s : State} {cw : Word} {snap : Snapshot} {n : Nat} (h : s.Inv)
    (he : s.engine = .busy cw snap (n + 1)) : (s.tick cw snap n).Inv where
  cfg_legal := h.cfg_legal
  mem_wf := h.mem_wf
  mem_backed := h.mem_backed
  ctx_wf := h.ctx_wf
  hidden_zero := h.hidden_zero
  operands_current := (s.operands_busy _ _ _ he).symm.trans h.operands_current
  busy_clear _ := h.busy_clear (s.isBusy_busy _ _ _ he)
  error_listed := h.error_listed
  err_reported := h.err_reported

/-- The invariant says nothing of the host, of the count of draws, of the enables and of OVR. -/
theorem State.Inv.host_side {s : State} (h : s.Inv) (host : HostSide) (draws : Nat) (a b c o : Bool) :
    State.Inv { s with host := host, draws := draws, ieDone := a, ieErr := b, ieOvr := c, ovr := o } :=
  ⟨h.cfg_legal, h.mem_wf, h.mem_backed, h.ctx_wf, h.hidden_zero, h.operands_current, h.busy_clear, h.error_listed,
    h.err_reported⟩

theorem State.Inv.hostAt {s : State} (h : s.Inv) (n : Nat) : (s.hostAt n).Inv := h.host_side _ _ _ _ _ _

theorem State.Inv.acknowledge {s : State} (h : s.Inv) (v : Word) : (s.acknowledge v).Inv where
  cfg_legal := h.cfg_legal
  mem_wf := h.mem_wf
  mem_backed := h.mem_backed
  ctx_wf := h.ctx_wf
  hidden_zero := h.hidden_zero
  operands_current := h.operands_current
  busy_clear hb := by
    obtain ⟨hd, he, h0⟩ := h.busy_clear hb
    simp [hd, he, h0]
  error_listed := h.error_listed
  err_reported he := h.err_reported (by simp at he; exact he.1)

theorem State.Inv.accept {s : State} (h : s.Inv) (cw : Word) : (s.accept cw).Inv where
  cfg_legal := h.cfg_legal
  mem_wf := h.mem_wf
  mem_backed := h.mem_backed
  ctx_wf := h.ctx_wf
  hidden_zero := h.hidden_zero
  operands_current := rfl
  busy_clear _ := ⟨rfl, rfl, rfl⟩
  error_listed := .inl rfl
  err_reported he := by simp at he

/-- What an abandoned command leaves of the buffers: what was listed before, or less (R382). -/
theorem State.abandon_cases (s : State) : s.abandon = s.mem ∨ ∃ n, s.abandon = s.mem.forget obufBase n := by
  unfold State.abandon
  split
  · exact .inl rfl
  · split
    · exact .inr ⟨_, rfl⟩
    · exact .inl rfl

theorem State.Inv.softReset {s : State} (h : s.Inv) : s.softReset.Inv := by
  refine .fresh _ _ h.cfg_legal ?_ ?_ <;> rcases s.abandon_cases with hm | ⟨n, hm⟩ <;> rw [hm]
  · exact h.mem_wf
  · exact Memory.wf_forget _ _ _ h.mem_wf
  · exact h.mem_backed
  · exact fun c hc => h.mem_backed c (Memory.mem_forget _ _ _ _ hc)

theorem State.Inv.powerOn {s : State} (h : s.Inv) : s.powerOn.Inv := .fresh _ _ h.cfg_legal Memory.wf_nil (by simp)

theorem targetOf_eq_ibuf {n off o : Nat} (h : targetOf n off = .ibuf o) : o = off ∧ ibufBase ≤ off ∧ off < ibufBase + n := by
  simp only [targetOf, ite_eq_iff, reduceCtorEq, and_false, false_or, or_false, Target.ibuf.injEq] at h
  omega

theorem targetOf_eq_obuf {n off o : Nat} (h : targetOf n off = .obuf o) : o = off ∧ obufBase ≤ off ∧ off < obufBase + n := by
  simp only [targetOf, ite_eq_iff, reduceCtorEq, and_false, false_or, or_false, Target.obuf.injEq] at h
  omega

/-- All four bytes of an aligned buffer word have storage (R92). -/
theorem backed_word {cfg : Params} {off a : Nat} (hcfg : cfg.legal) (h4 : off % 4 = 0) (hoff : backed cfg off)
    (h1 : off ≤ a) (h2 : a < off + 4) : backed cfg a := by
  obtain ⟨h16, _⟩ := hcfg
  simp only [backed, ibufBase, obufBase] at *
  omega

/-- A write of a buffer word while Idle keeps the invariant. -/
theorem State.Inv.writeWord {s : State} (h : s.Inv) (he : s.engine = .idle) (off : Nat) (v : Word) (h4 : off % 4 = 0)
    (hoff : backed s.cfg off) : State.Inv { s with mem := s.mem.writeBytes off (encLE32 v) } := by
  refine .of_idle he h.cfg_legal (Memory.wf_writeBytes _ _ _ h.mem_wf) (fun c hc => ?_) h.ctx_wf h.hidden_zero
    h.error_listed h.err_reported
  rcases Memory.mem_writeBytes _ _ _ _ hc with hc | ⟨h1, h2⟩
  · exact h.mem_backed c hc
  · exact backed_word h.cfg_legal h4 hoff h1 h2

/-- While Idle the invariant says nothing of the operand registers. -/
theorem State.Inv.operand_registers {s : State} (h : s.Inv) (he : s.engine = .idle) (z l : BitVec 16) (lo hi : Word)
    (f w p : ByteReg 32) (iv salt : ByteReg 16) :
    State.Inv { s with
      sectorSize := z, length := l, blkidxLo := lo, blkidxHi := hi, fvekStage := f, tweakStage := w, iv := iv, salt := salt, pwhash := p } :=
  .of_idle he h.cfg_legal h.mem_wf h.mem_backed h.ctx_wf h.hidden_zero h.error_listed h.err_reported

/-- A register write that is no hazard keeps the invariant: the operands, inputs and outputs are written while Idle. -/
theorem State.Inv.writeTarget {s : State} (h : s.Inv) (off : Nat) (v : Word) (h4 : off % 4 = 0)
    (hz : (s.isBusy && writeHazard (targetOf s.cfg.bufBytes off)) = false) :
    (writeTarget s (targetOf s.cfg.bufBytes off) v).Inv := by
  have hidle : writeHazard (targetOf s.cfg.bufBytes off) = true → s.engine = .idle := fun hw => by
    rw [hw, Bool.and_true] at hz
    cases he : s.engine with
    | idle => rfl
    | busy cw snap n => simp [s.isBusy_busy _ _ _ he] at hz
  cases hr : targetOf s.cfg.bufBytes off with
  | id | version | error | method | dkey | reserved => exact h
  | status => exact h.acknowledge v
  | ctrl =>
    rw [Machine.writeTarget, writeCtrl]
    split
    · exact h.softReset
    · exact h.host_side _ _ _ _ _ _
  | cmd =>
    rw [Machine.writeTarget, writeCmd]
    split
    · exact h.host_side _ _ _ _ _ true
    · exact h.accept v
  | sectorSize | length | blkidxLo | blkidxHi | fvekStage | tweakStage | iv | salt | pwhash =>
    exact h.operand_registers (hidle (by rw [hr]; rfl)) ..
  | ibuf o =>
    obtain ⟨rfl, h1, h2⟩ := targetOf_eq_ibuf hr
    exact h.writeWord (hidle (by rw [hr]; rfl)) o v h4 (.inl ⟨h1, h2⟩)
  | obuf o =>
    obtain ⟨rfl, h1, h2⟩ := targetOf_eq_obuf hr
    exact h.writeWord (hidle (by rw [hr]; rfl)) o v h4 (.inr ⟨h1, h2⟩)

theorem hostTurn_keeps_inv {s t : State} (h : s.Inv) (ht : hostTurn s = .next t) : t.Inv := by
  rcases hostTurn_cases s t ht with rfl | ⟨off, v, n, _, _, h4, hz, rfl⟩ | ⟨d, v, n, rfl⟩ | ⟨n, _, rfl⟩
  · exact h
  · exact (h.writeTarget off v h4 hz).hostAt n
  · exact h.host_side _ _ _ _ _ _
  · exact h.powerOn.hostAt n

/-! ## Completion -/

@[simp] theorem hiddenAfter_zero (i : Instr) : hiddenAfter i Hidden.zero = Hidden.zero := by cases i <;> rfl

theorem rejects_keeps_inv {i : Instr} {s t : State} (h : s.Inv) (hr : rejects i s) (ht : exec i s = .next t) : t.Inv := by
  obtain ⟨e, he, hx⟩ := hr
  cases ht.symm.trans hx
  exact .of_idle rfl h.cfg_legal h.mem_wf h.mem_backed h.ctx_wf (by simp [h.hidden_zero]) (errorListed_errorWord he)
    fun _ => errorWord_ne_zero (code_ne_none_of_listed he)

theorem exec_keeps_inv {i : Instr} {s t : State} (h : s.Inv) (ht : exec i s = .next t) : t.Inv := by
  have hhidden : hiddenAfter i s.hidden = Hidden.zero := by rw [h.hidden_zero, hiddenAfter_zero]
  rcases exec_outcomes i s with hr | ⟨hlen, y, hy, hx⟩ | ⟨S, hx, hS⟩ | ⟨_, hx⟩ | ⟨c, f, w, p, d, hc, hx⟩
  · exact rejects_keeps_inv h hr ht
  · cases ht.symm.trans hx
    refine .of_idle rfl h.cfg_legal (Memory.wf_writeBytes _ _ _ h.mem_wf) (fun c hc => ?_) h.ctx_wf hhidden
      h.error_listed h.err_reported
    rcases Memory.mem_writeBytes _ _ _ _ hc with hc | hc
    · exact h.mem_backed c hc
    · obtain ⟨_, h512, _⟩ := h.cfg_legal
      refine .inr ⟨hc.1, ?_⟩
      show c.1 < obufBase + s.cfg.bufBytes
      omega
  · cases ht.symm.trans hx
    have hlisted := hS (by rw [h.operands_ctx]; exact h.ctx_wf)
    exact .of_idle rfl h.cfg_legal (Memory.wf_forget _ _ _ h.mem_wf)
      (fun c hc => h.mem_backed c (Memory.mem_forget _ _ _ _ hc)) h.ctx_wf hhidden (errorListed_errorWord hlisted)
      fun _ => errorWord_ne_zero (code_ne_none_of_listed hlisted)
  · cases ht.symm.trans hx
  · cases ht.symm.trans hx
    exact .of_idle rfl h.cfg_legal h.mem_wf h.mem_backed (hc h.operands_ctx h.ctx_wf) hhidden h.error_listed h.err_reported

theorem runCommand_keeps_inv {cw : Word} {s t : State} (h : s.Inv) (ht : runCommand cw s = .next t) : t.Inv := by
  cases hd : decode cw with
  | ok i => exact exec_keeps_inv h ((runCommand_of_decode_ok hd s).symm.trans ht)
  | error e =>
    rw [runCommand_of_decode_error hd, rejectWord] at ht
    cases ht
    have hlisted := decodeReport_mem_listedReports hd
    split <;>
      exact .of_idle rfl h.cfg_legal h.mem_wf h.mem_backed h.ctx_wf (by simp [h.hidden_zero])
        (errorListed_errorWord hlisted) fun _ => errorWord_ne_zero (code_ne_none_of_listed hlisted)

/-- Settles O59: a step is the completion of a command or the host's turn, and each keeps every clause. -/
theorem everyStepKeepsInvariant : Obligations.EveryStepKeepsInvariant := by
  intro s t h ht
  rcases step_cases s with ⟨cw, snap, _, hs⟩ | ⟨cw, snap, n, he, hs⟩ | ⟨_, hs⟩
  · exact runCommand_keeps_inv h (hs.symm.trans ht)
  · exact hostTurn_keeps_inv (h.tick he) (hs.symm.trans ht)
  · exact hostTurn_keeps_inv h (hs.symm.trans ht)

end Sys2Proof.Machine
end

section
/-! The step, acceptance and completion (`30_encoding.md` R121, `70_reset_and_hazards.md` R395), and what a command that
succeeds does to the registers. -/

namespace Sys2Proof.Machine

/-! ## The step -/

theorem step_of_latency_left {s : State} {cw : Word} {snap : Snapshot} {n : Nat} (h : s.engine = .busy cw snap (n + 1)) :
    step s = hostTurn (s.tick cw snap n) := by
  simp [step, h]

theorem step_of_idle {s : State} (h : s.engine = .idle) : step s = hostTurn s := by
  simp [step, h]

/-- A host whose program has ended changes nothing (R366). -/
theorem hostTurn_of_ended {s : State} (h : s.host.prog[s.host.pc]? = none) : hostTurn s = .next s := by
  simp [hostTurn, h]

/-- Settles O6: the three branches of the step. -/
theorem stepRunsTheDecodedCommand : Obligations.StepRunsTheDecodedCommand :=
  ⟨fun s _ _ _ he hd => (step_of_latency_over he).trans (runCommand_of_decode_ok hd s),
    fun _ _ _ _ he => step_of_latency_left he, fun _ he => step_of_idle he, fun _ hh => hostTurn_of_ended hh⟩

/-! ## The engine under a turn of the host -/

/-- While Busy a register write leaves the engine as it is, unless it is a write of CTRL with SRST set (R122, R382). -/
theorem writeTarget_engine (s : State) (r : Target) (v : Word) (hb : s.isBusy = true) :
    (writeTarget s r v).engine = s.engine ∨
    (r = .ctrl ∧ v.getLsbD 31 = true ∧ (writeTarget s r v).engine = .idle) := by
  cases r with
  | ctrl =>
    rw [writeTarget, writeCtrl]
    split
    · next hv => exact .inr ⟨rfl, hv, rfl⟩
    · exact .inl rfl
  | cmd =>
    rw [writeTarget, writeCmd, if_pos hb]
    exact .inl rfl
  | _ => exact .inl (by simp only [writeTarget, State.acknowledge_engine])

/-- While Busy the host's turn leaves the engine as it is, unless its operation is a reset. -/
theorem hostTurn_engine (s t : State) (hb : s.isBusy = true) (ht : hostTurn s = .next t) :
    t.engine = s.engine ∨ (t.engine = .idle ∧ resetsNext s) := by
  rcases hostTurn_cases s t ht with rfl | ⟨off, v, n, hw, _, _, _, rfl⟩ | ⟨d, v, n, rfl⟩ | ⟨n, hop, rfl⟩
  · exact .inl rfl
  · rw [State.hostAt_engine]
    rcases writeTarget_engine s (targetOf s.cfg.bufBytes off) v hb with h | ⟨hr, hv, h⟩
    · exact .inl h
    · rw [targetOf_eq_ctrl _ _ hr] at hw
      exact .inr ⟨h, .inr ⟨v, hw, hv⟩⟩
  · exact .inl rfl
  · exact .inr ⟨rfl, .inl hop⟩

/-- Settles O7: the step counts the latency down, and the host's turn then keeps the engine unless it resets. -/
theorem eachStepBringsCompletionNearer : Obligations.EachStepBringsCompletionNearer := by
  intro s t cw snap n he ht
  rw [step_of_latency_left he] at ht
  exact hostTurn_engine (s.tick cw snap n) t rfl ht

/-! ## A host that waits -/

theorem run_succ_of_next (M : Host.Core) {s t : M.State} (h : M.step s = .next t) (k : Nat) :
    M.run (k + 1) s = M.run k t := by
  rw [Host.Core.run, h]

theorem run_one (M : Host.Core) (s : M.State) : M.run 1 s = M.step s := by
  rw [Host.Core.run]
  cases M.step s <;> rfl

/-- Settles O8: each step of a waiting host counts the latency down and changes nothing else. -/
theorem waitingHostSeesCompletion : Obligations.WaitingHostSeesCompletion := by
  intro s cw snap n he hh
  induction n generalizing s with
  | zero =>
    have hs : ({ s with engine := .busy cw snap 0 } : State) = s := by rw [← he]
    rw [hs]
    exact ⟨rfl, (run_one core s).trans (step_of_latency_over he)⟩
  | succ n ih =>
    have hstep : step s = .next (s.tick cw snap n) :=
      (step_of_latency_left he).trans (hostTurn_of_ended (s := s.tick cw snap n) hh)
    obtain ⟨hwait, hdone⟩ := ih (s.tick cw snap n) rfl hh
    exact ⟨(run_succ_of_next core hstep n).trans hwait, (run_succ_of_next core hstep (n + 1)).trans hdone⟩

/-! ## Acceptance -/

/-- Settles O9: the write is the acceptance, whose latency and draw are the witnesses. -/
theorem cmdWriteWhileIdleAccepts : Obligations.CmdWriteWhileIdleAccepts := by
  intro s cw he
  refine ⟨s.latencyOf cw, s.draws + 1, ?_⟩
  have htarget : targetOf s.cfg.bufBytes 0x0028 = .cmd := rfl
  rw [hostWrite_base s _ cw (by decide) (by decide), htarget]
  simp only [s.isBusy_idle he, Bool.false_and, Bool.false_eq_true, if_false, writeTarget, writeCmd]
  rfl

/-! ## What a command that succeeds does to the registers -/

/-- The state a command without output bytes leaves when it succeeds, before it completes (R51): INIT, FREE and SETKEYS
write the context, SETKEYS the staging groups, HASH8 and HASH16 PWHASH, and CALCKEY DKEY and its record. -/
inductive RegisterEffect (s : State) : Instr → State → Prop
  | init (m : BitVec 16) : RegisterEffect s (.init m) { s with ctx := ⟨true, m, .unset, .unset, .unset, .unset⟩ }
  | free : RegisterEffect s .free { s with ctx := Context.absent }
  | setkeys (c : Context) :
      RegisterEffect s .setkeys { s with ctx := c, fvekStage := zeroReg 32, tweakStage := zeroReg 32 }
  | hash8 (p : ByteReg 32) : RegisterEffect s .hash8 { s with pwhash := p }
  | hash16 (p : ByteReg 32) : RegisterEffect s .hash16 { s with pwhash := p }
  | calckey (d : ByteReg 32) : RegisterEffect s .calckey { s with dkey := d, hidden := s.hidden.clearKdf }

/-- Everything a command can do, with the registers it writes named (R51, R345, R346, R348). -/
theorem exec_effects (i : Instr) (s : State) :
    rejects i s ∨ writesOutput i s ∨ (∃ S, meetsUnset i s S) ∨ consumesUnknown i s ∨
    ∃ u, RegisterEffect s i u ∧ exec i s = .next u.succeed := by
  cases i with
  | init m =>
    rcases execInit_cases m s with h | ⟨_, h⟩
    · exact .inl h
    · exact .inr (.inr (.inr (.inr ⟨_, .init m, h⟩)))
  | free =>
    rcases execFree_cases s with h | ⟨_, h⟩
    · exact .inl h
    · exact .inr (.inr (.inr (.inr ⟨_, .free, h⟩)))
  | setkeys =>
    rcases execSetkeys_cases s with h | ⟨_, c, _, _, _, h⟩
    · exact .inl h
    · exact .inr (.inr (.inr (.inr ⟨_, .setkeys c, h⟩)))
  | crypt m =>
    rcases execCrypt_cases m s with h | ⟨_, h | ⟨S, h, _⟩ | h⟩
    · exact .inl h
    · exact .inr (.inl h)
    · exact .inr (.inr (.inl ⟨S, h⟩))
    · exact .inr (.inr (.inr (.inl h)))
  | ecb m k =>
    rcases execEcb_cases m k s with h | h | h | h
    · exact .inl h
    · exact .inr (.inl h)
    · exact .inr (.inr (.inl h))
    · exact .inr (.inr (.inr (.inl h)))
  | cbc m k =>
    rcases execCbc_cases m k s with h | ⟨_, h | h | h⟩
    · exact .inl h
    · exact .inr (.inl h)
    · exact .inr (.inr (.inl h))
    · exact .inr (.inr (.inr (.inl h)))
  | diffa m =>
    rcases execDiffa_cases m s with h | ⟨_, h | h⟩
    · exact .inl h
    · exact .inr (.inl h)
    · exact .inr (.inr (.inr (.inl h)))
  | diffb m =>
    rcases execDiffb_cases m s with h | ⟨_, h | h⟩
    · exact .inl h
    · exact .inr (.inl h)
    · exact .inr (.inr (.inr (.inl h)))
  | hash8 =>
    rcases execHash8_cases s with h | ⟨p, h⟩ | h
    · exact .inl h
    · exact .inr (.inr (.inr (.inr ⟨_, .hash8 p, h⟩)))
    · exact .inr (.inr (.inr (.inl h)))
  | hash16 =>
    rcases execHash16_cases s with h | ⟨p, h⟩ | h
    · exact .inl h
    · exact .inr (.inr (.inr (.inr ⟨_, .hash16 p, h⟩)))
    · exact .inr (.inr (.inr (.inl h)))
  | calckey =>
    obtain ⟨d, h⟩ := execCalckey_cases s
    exact .inr (.inr (.inr (.inr ⟨_, .calckey d, h⟩)))

/-! ## DKEY -/

theorem exec_dkey {i : Instr} {s t : State} (ht : exec i s = .next t) : t.dkey = s.dkey ∨ i = .calckey := by
  rcases exec_effects i s with ⟨e, _, h⟩ | ⟨y, _, h⟩ | ⟨S, h⟩ | ⟨_, h⟩ | ⟨u, hu, h⟩ <;> cases ht.symm.trans h
  · exact .inl rfl
  · exact .inl rfl
  · exact .inl rfl
  · cases hu with
    | calckey d => exact .inr rfl
    | _ => exact .inl rfl

theorem runCommand_dkey {cw : Word} {s t : State} (ht : runCommand cw s = .next t) :
    t.dkey = s.dkey ∨ decode cw = .ok .calckey := by
  cases hd : decode cw with
  | ok i =>
    rw [runCommand_of_decode_ok hd] at ht
    rcases exec_dkey ht with h | rfl
    · exact .inl h
    · exact .inr rfl
  | error e =>
    rw [runCommand_of_decode_error hd, rejectWord] at ht
    cases ht
    refine .inl ?_
    rw [State.failWith_dkey]
    split <;> rfl

/-- A register write keeps DKEY, unless it is a write of CTRL with SRST set (R47, R382). -/
theorem writeTarget_dkey (s : State) (r : Target) (v : Word) :
    (writeTarget s r v).dkey = s.dkey ∨
    (r = .ctrl ∧ v.getLsbD 31 = true ∧ (writeTarget s r v).dkey = zeroReg 32) := by
  cases r with
  | ctrl =>
    rw [writeTarget, writeCtrl]
    split
    · next hv => exact .inr ⟨rfl, hv, rfl⟩
    · exact .inl rfl
  | cmd =>
    rw [writeTarget, writeCmd]
    split <;> exact .inl rfl
  | _ => exact .inl (by simp only [writeTarget, State.acknowledge_dkey])

theorem hostTurn_dkey {s t : State} (ht : hostTurn s = .next t) :
    t.dkey = s.dkey ∨ (resetsNext s ∧ t.dkey = zeroReg 32) := by
  rcases hostTurn_cases s t ht with rfl | ⟨off, v, n, hw, _, _, _, rfl⟩ | ⟨d, v, n, rfl⟩ | ⟨n, hop, rfl⟩
  · exact .inl rfl
  · rw [State.hostAt_dkey]
    rcases writeTarget_dkey s (targetOf s.cfg.bufBytes off) v with h | ⟨hr, hv, h⟩
    · exact .inl h
    · rw [targetOf_eq_ctrl _ _ hr] at hw
      exact .inr ⟨.inr ⟨v, hw, hv⟩, h⟩
  · exact .inl rfl
  · exact .inr ⟨.inl hop, rfl⟩

/-- Settles O57: of the commands only CALCKEY writes DKEY, and of the host's operations only the resets. -/
theorem dkeyIsWrittenOnlyByCalckey : Obligations.DkeyIsWrittenOnlyByCalckey := by
  intro s t ht hne
  rcases step_cases s with ⟨cw, snap, he, hs⟩ | ⟨cw, snap, n, he, hs⟩ | ⟨he, hs⟩
  · exact .inl ⟨cw, snap, he, (runCommand_dkey (hs.symm.trans ht)).resolve_left hne⟩
  · exact .inr ((hostTurn_dkey (s := s.tick cw snap n) (hs.symm.trans ht)).resolve_left hne)
  · exact .inr ((hostTurn_dkey (hs.symm.trans ht)).resolve_left hne)

end Sys2Proof.Machine
end

section
/-! The register window (`10_state.md` section 3, `20_memory.md`): what the accesses of each register return and change,
Busy and Idle. -/

namespace Sys2Proof.Machine

/-! ## Words and their bytes -/

theorem byteOf_eq (w : Word) (k : Nat) : byteOf w k = (w >>> (8 * k)).setWidth 8 := by
  ext i hi
  simp [byteOf]

theorem le32_toNat (b0 b1 b2 b3 : Byte) :
    (le32 b0 b1 b2 b3).toNat = b0.toNat + 256 * b1.toNat + 65536 * b2.toNat + 16777216 * b3.toNat := by
  have h1 := append_toNat b3 b2
  have h2 := append_toNat (b3 ++ b2) b1
  refine (append_toNat (b3 ++ b2 ++ b1) b0).trans ?_
  omega

/-- Lane `k` of a little-endian word is its byte `k` (R95). -/
theorem le32_lane (f : Nat → Byte) {k : Nat} (hk : k < 4) :
    (le32 (f 0) (f 1) (f 2) (f 3) >>> (8 * k)).setWidth 8 = f k := by
  apply BitVec.eq_of_toNat_eq
  rw [BitVec.toNat_setWidth, BitVec.toNat_ushiftRight, le32_toNat, Nat.shiftRight_eq_div_pow]
  have : k = 0 ∨ k = 1 ∨ k = 2 ∨ k = 3 := by omega
  rcases this with rfl | rfl | rfl | rfl <;> omega

/-- A word is the little-endian word of its bytes (R95). -/
theorem le32_byteOf (w : Word) : le32 (byteOf w 0) (byteOf w 1) (byteOf w 2) (byteOf w 3) = w := by
  apply BitVec.eq_of_toNat_eq
  simp only [le32_toNat, byteOf, BitVec.extractLsb'_toNat, Nat.shiftRight_eq_div_pow]
  have := w.isLt
  omega

/-- Byte `k` of a byte-string register is lane k mod 4 of the word it lies in (R95). -/
theorem regWord_lane {n : Nat} (r : ByteReg n) {j k : Nat} (hk : k < n) (hj : k / 4 = j) :
    (regWord r j >>> (8 * (k % 4))).setWidth 8 = r[k] := by
  have hlane := le32_lane (fun i => r.toList.getD (4 * j + i) 0#8) (Nat.mod_lt k (by decide : 4 > 0))
  have hdiv : 4 * j + k % 4 = k := by omega
  refine hlane.trans ?_
  simp [hdiv, hk]

/-- The word just written is the word read back (R95). -/
theorem regWord_regSetWord {n : Nat} (r : ByteReg n) (j : Nat) (w : Word) (h : 4 * j + 3 < n) :
    regWord (regSetWord r j w) j = w := by
  have hbyte (i : Nat) (hi : i < 4) : (regSetWord r j w).toList.getD (4 * j + i) 0#8 = byteOf w i := by
    have hdiv : (4 * j + i) / 4 = j := by omega
    have hmod : (4 * j + i) % 4 = i := by omega
    have hlt : 4 * j + i < n := by omega
    simp [hlt, hdiv, hmod]
  have hfirst := hbyte 0 (by decide)
  rw [Nat.add_zero] at hfirst
  rw [regWord, hfirst, hbyte 1 (by decide), hbyte 2 (by decide), hbyte 3 (by decide), le32_byteOf]

/-- The bytes of a register after a word of it was written, as R95 gives them. -/
theorem regSetWord_byte {n : Nat} (r : ByteReg n) (j : Nat) (w : Word) (k : Nat) (hk : k < n) :
    (regSetWord r j w)[k] = if k / 4 = j then (w >>> (8 * (k % 4))).setWidth 8 else r[k] := by
  rw [regSetWord_getElem, byteOf_eq]

/-- A 16-bit register read as a word, after a word was written to it (R38, R39). -/
theorem zero_append_setWidth (v : Word) : (0 : BitVec 16) ++ v.setWidth 16 = v &&& 0xFFFF := by
  apply BitVec.eq_of_toNat_eq
  have hzero : (0 : BitVec 16).toNat = 0 := rfl
  have hmask : (0xFFFF : Word).toNat = 2 ^ 16 - 1 := rfl
  rw [append_toNat, hzero, BitVec.toNat_and, hmask, Nat.and_two_pow_sub_one_eq_mod, BitVec.toNat_setWidth]
  omega

/-- A 16-bit value read as a word has zeros above it (R37). -/
theorem zero_append_eq_setWidth (m : BitVec 16) : (0 : BitVec 16) ++ m = m.setWidth 32 := by
  apply BitVec.eq_of_toNat_eq
  have hzero : (0 : BitVec 16).toNat = 0 := rfl
  have := m.isLt
  rw [append_toNat, hzero, BitVec.toNat_setWidth]
  omega

/-! ## Accesses by register -/

/-- A read of a register that is no hazard. -/
theorem hostRead_target {s : State} {off : Nat} {r : Target} (h1 : off < 0x4000) (h4 : off % 4 = 0)
    (hr : targetOf s.cfg.bufBytes off = r) (hz : (s.isBusy && readHazard r) = false) :
    hostRead s .w32 (s.cfg.base + off) = .ok (readTarget s r, { s with draws := s.draws + readDraws r }) := by
  rw [hostRead_base s off h1 h4, hr, if_neg (by simp [hz])]

/-- A read that is no hazard and draws no free value changes nothing (R98). -/
theorem hostRead_target_same {s : State} {off : Nat} {r : Target} (h1 : off < 0x4000) (h4 : off % 4 = 0)
    (hr : targetOf s.cfg.bufBytes off = r) (hz : (s.isBusy && readHazard r) = false) (hd : readDraws r = 0) :
    hostRead s .w32 (s.cfg.base + off) = .ok (readTarget s r, s) := by
  rw [hostRead_target h1 h4 hr hz, hd]
  rfl

/-- A write of a register that is no hazard. -/
theorem hostWrite_target {s : State} {off : Nat} {r : Target} (h1 : off < 0x4000) (h4 : off % 4 = 0)
    (hr : targetOf s.cfg.bufBytes off = r) (hz : (s.isBusy && writeHazard r) = false) (v : Word) :
    hostWrite s .w32 (s.cfg.base + off) v = .ok (writeTarget s r v) := by
  rw [hostWrite_base s off v h1 h4, hr, if_neg (by simp [hz])]

/-- While Idle nothing is a hazard (R390). -/
theorem no_hazard_of_idle {s : State} (h : s.engine = .idle) (b : Bool) : (s.isBusy && b) = false := by
  simp [s.isBusy_idle h]

/-- A register that is no hazard is none in any state. -/
theorem no_hazard_of_false (s : State) {b : Bool} (h : b = false) : (s.isBusy && b) = false := by
  rw [h, Bool.and_false]

/-- Settles O13: both registers are no hazard, and their writes are ignored. -/
theorem identificationRegisters : Obligations.IdentificationRegisters := fun s v =>
  ⟨hostRead_target_same (r := .id) (by decide) (by decide) rfl (no_hazard_of_false s rfl) rfl,
    hostRead_target_same (r := .version) (by decide) (by decide) rfl (no_hazard_of_false s rfl) rfl,
    hostWrite_target (r := .id) (by decide) (by decide) rfl (no_hazard_of_false s rfl) v,
    hostWrite_target (r := .version) (by decide) (by decide) rfl (no_hazard_of_false s rfl) v⟩

/-- METHOD as the context's code, 0 without a context (R37). -/
theorem methodWord_eq (s : State) : s.methodWord = if s.ctx.valid = true then s.ctx.method.setWidth 32 else 0 := by
  unfold State.methodWord
  split
  · exact zero_append_eq_setWidth _
  · rfl

/-- Settles O14: the offsets are reserved or name a register whose write is ignored. -/
theorem reservedAndReadOnlyOffsets : Obligations.ReservedAndReadOnlyOffsets := by
  intro s v off hcap h4
  obtain ⟨_, _, _, _, _, hdkey, _⟩ := targetOf_group s.cfg.bufBytes off h4 hcap
  refine ⟨fun hoff => ?reserved, fun hoff => ?ignored, ?error, ?method, fun ⟨h1, h2, he⟩ => ?dkey⟩
  case reserved =>
    have hr : targetOf s.cfg.bufBytes off = .reserved := targetOf_reserved _ off h4 hcap (by omega)
    exact ⟨hostRead_target_same (by omega) h4 hr (no_hazard_of_false s rfl) rfl,
      hostWrite_target (by omega) h4 hr (no_hazard_of_false s rfl) v⟩
  case ignored =>
    rcases hoff with rfl | rfl | ⟨h1, h2, he⟩
    · exact hostWrite_target (r := .error) (by decide) h4 rfl (no_hazard_of_false s rfl) v
    · exact hostWrite_target (r := .method) (by decide) h4 rfl (no_hazard_of_false s rfl) v
    · exact hostWrite_target (by omega) h4 (hdkey h1 h2) (no_hazard_of_idle he _) v
  case error =>
    rintro rfl
    exact hostRead_target_same (r := .error) (by decide) h4 rfl (no_hazard_of_false s rfl) rfl
  case method =>
    rintro rfl
    rw [← methodWord_eq]
    exact hostRead_target_same (r := .method) (by decide) h4 rfl (no_hazard_of_false s rfl) rfl
  case dkey =>
    exact ⟨_, hostRead_target_same (by omega) h4 (hdkey h1 h2) (no_hazard_of_idle he _) rfl,
      fun k hk hj => regWord_lane s.dkey hk hj⟩

/-! ## Writable registers -/

/-- CTRL read after its enables were written (R34). -/
theorem ctrlWord_of_enables (v : Word) :
    (0 : BitVec 29) ++ BitVec.ofBool (v.getLsbD 2) ++ BitVec.ofBool (v.getLsbD 1) ++ BitVec.ofBool (v.getLsbD 0) =
      v &&& 0x7 := by
  apply BitVec.eq_of_toNat_eq
  have hzero : (0 : BitVec 29).toNat = 0 := rfl
  have hmask : (0x7 : Word).toNat = 2 ^ 3 - 1 := rfl
  have hbit (i : Nat) : (BitVec.ofBool (v.getLsbD i)).toNat = v.toNat / 2 ^ i % 2 := by
    rw [BitVec.toNat_ofBool, ← BitVec.testBit_toNat, Nat.toNat_testBit]
  rw [BitVec.toNat_and, hmask, Nat.and_two_pow_sub_one_eq_mod]
  simp only [append_toNat, hzero, hbit]
  omega

/-- The offsets below the buffers do not depend on their size. -/
theorem targetOf_below_buffers (n : Nat) {off : Nat} (h : off < 0x1000) : targetOf n off = targetOf 0 off := by
  have hlt : off < ibufBase := h
  simp only [targetOf, if_pos hlt]

/-! The words of the register groups, whatever the size of the buffers. -/

theorem targetOf_fvekStage (n : Nat) {j : Nat} (hj : j < 8) : targetOf n (0x40 + 4 * j) = .fvekStage j := by
  obtain ⟨h, _⟩ := targetOf_group 0 (0x40 + 4 * j) (by omega) (by decide)
  rw [targetOf_below_buffers n (by omega), h (by omega) (by omega)]
  congr 1
  omega

theorem targetOf_tweakStage (n : Nat) {j : Nat} (hj : j < 8) : targetOf n (0x60 + 4 * j) = .tweakStage j := by
  obtain ⟨_, h, _⟩ := targetOf_group 0 (0x60 + 4 * j) (by omega) (by decide)
  rw [targetOf_below_buffers n (by omega), h (by omega) (by omega)]
  congr 1
  omega

theorem targetOf_iv (n : Nat) {j : Nat} (hj : j < 4) : targetOf n (0x80 + 4 * j) = .iv j := by
  obtain ⟨_, _, h, _⟩ := targetOf_group 0 (0x80 + 4 * j) (by omega) (by decide)
  rw [targetOf_below_buffers n (by omega), h (by omega) (by omega)]
  congr 1
  omega

theorem targetOf_salt (n : Nat) {j : Nat} (hj : j < 4) : targetOf n (0x90 + 4 * j) = .salt j := by
  obtain ⟨_, _, _, h, _⟩ := targetOf_group 0 (0x90 + 4 * j) (by omega) (by decide)
  rw [targetOf_below_buffers n (by omega), h (by omega) (by omega)]
  congr 1
  omega

theorem targetOf_pwhash (n : Nat) {j : Nat} (hj : j < 8) : targetOf n (0xA0 + 4 * j) = .pwhash j := by
  obtain ⟨_, _, _, _, h, _⟩ := targetOf_group 0 (0xA0 + 4 * j) (by omega) (by decide)
  rw [targetOf_below_buffers n (by omega), h (by omega) (by omega)]
  congr 1
  omega

/-- A register written while Idle, and read back: the value read is that of the state the write leaves. -/
theorem write_then_read {s : State} (t : State) {off : Nat} {r : Target} {v w : Word} (ht : writeTarget s r v = t)
    (h1 : off < 0x4000) (h4 : off % 4 = 0) (hr : ∀ n, targetOf n off = r) (he : s.engine = .idle)
    (het : t.engine = .idle) (hcfg : t.cfg = s.cfg) (hd : readDraws r = 0) (hw : readTarget t r = w) :
    hostWrite s .w32 (s.cfg.base + off) v = .ok t ∧ hostRead t .w32 (s.cfg.base + off) = .ok (w, t) := by
  rw [← ht, hostWrite_target h1 h4 (hr _) (no_hazard_of_idle he _) v, ht, ← hcfg,
    hostRead_target_same h1 h4 (hr _) (no_hazard_of_idle het _) hd, hw]
  exact ⟨rfl, rfl⟩

/-- Settles O15: each register is stored by its write and read back from the state the write leaves. -/
theorem writableRegistersReadBack : Obligations.WritableRegistersReadBack := by
  intro s v
  refine ⟨fun hsrst => ?ctrl, fun he => ⟨?sectorSize, ?length, ?blkidxLo, ?blkidxHi, fun j hj => ?iv, fun j hj => ?salt,
    fun j hj => ?pwhash⟩⟩
  case ctrl =>
    refine ⟨_, ?_, rfl, ?_⟩
    · rw [hostWrite_target (r := .ctrl) (by decide) (by decide) rfl (no_hazard_of_false s rfl) v, writeTarget, writeCtrl,
        if_neg (Bool.eq_false_iff.1 hsrst)]
    · refine (hostRead_target_same (r := .ctrl) (by decide) (by decide) rfl (no_hazard_of_false _ rfl) rfl).trans ?_
      rw [readTarget, State.ctrlWord, ctrlWord_of_enables]
  case sectorSize =>
    obtain ⟨hw, hr⟩ := write_then_read { s with sectorSize := v.setWidth 16 } (off := 0x18) (r := .sectorSize) rfl (by decide) (by decide)
      (fun _ => rfl) he he rfl rfl (zero_append_setWidth v)
    exact ⟨_, hw, rfl, hr⟩
  case length =>
    obtain ⟨hw, hr⟩ := write_then_read { s with length := v.setWidth 16 } (off := 0x1C) (r := .length) rfl (by decide) (by decide)
      (fun _ => rfl) he he rfl rfl (zero_append_setWidth v)
    exact ⟨_, hw, rfl, hr⟩
  case blkidxLo =>
    obtain ⟨hw, hr⟩ := write_then_read { s with blkidxLo := v } (off := 0x20) (r := .blkidxLo) rfl (by decide) (by decide)
      (fun _ => rfl) he he rfl rfl rfl
    exact ⟨_, hw, rfl, hr⟩
  case blkidxHi =>
    obtain ⟨hw, hr⟩ := write_then_read { s with blkidxHi := v } (off := 0x24) (r := .blkidxHi) rfl (by decide) (by decide)
      (fun _ => rfl) he he rfl rfl rfl
    exact ⟨_, hw, rfl, hr⟩
  case iv =>
    obtain ⟨hw, hr⟩ := write_then_read { s with iv := regSetWord s.iv j v } (r := .iv j) rfl (by omega) (by omega)
      (fun n => targetOf_iv n hj) he he rfl rfl (regWord_regSetWord s.iv j v (by omega))
    exact ⟨_, _, hw, rfl, hr, regSetWord_byte s.iv j v⟩
  case salt =>
    obtain ⟨hw, hr⟩ := write_then_read { s with salt := regSetWord s.salt j v } (r := .salt j) rfl (by omega) (by omega)
      (fun n => targetOf_salt n hj) he he rfl rfl (regWord_regSetWord s.salt j v (by omega))
    exact ⟨_, _, hw, rfl, hr, regSetWord_byte s.salt j v⟩
  case pwhash =>
    obtain ⟨hw, hr⟩ := write_then_read { s with pwhash := regSetWord s.pwhash j v } (r := .pwhash j) rfl (by omega) (by omega)
      (fun n => targetOf_pwhash n hj) he he rfl rfl (regWord_regSetWord s.pwhash j v (by omega))
    exact ⟨_, _, hw, rfl, hr, regSetWord_byte s.pwhash j v⟩

/-- Settles O16: a staging word is stored as every register word is, and its read returns 0. -/
theorem stagingWritesAreLittleEndian : Obligations.StagingWritesAreLittleEndian := by
  intro s v j he hj
  have hfvek := targetOf_fvekStage s.cfg.bufBytes hj
  have htweak := targetOf_tweakStage s.cfg.bufBytes hj
  exact ⟨⟨_, hostWrite_target (by omega) (by omega) hfvek (no_hazard_of_idle he _) v, regSetWord_byte s.fvekStage j v,
      hostRead_target_same (by omega) (by omega) hfvek (no_hazard_of_false s rfl) rfl⟩,
    ⟨_, hostWrite_target (by omega) (by omega) htweak (no_hazard_of_idle he _) v, regSetWord_byte s.tweakStage j v,
      hostRead_target_same (by omega) (by omega) htweak (no_hazard_of_false s rfl) rfl⟩⟩

/-! ## The buffers -/

/-- A buffer word is written while Idle: its four bytes are known, least significant first, and no other changes (R95). -/
theorem read_writeBytes_encLE32 (m : Memory) (off : Nat) (v : Word) :
    (∀ k, k < 4 → (m.writeBytes off (encLE32 v)).read (off + k) = some ((v >>> (8 * k)).setWidth 8)) ∧
    ∀ a, a < off ∨ off + 4 ≤ a → (m.writeBytes off (encLE32 v)).read a = m.read a := by
  refine ⟨fun k hk => ?_, fun a ha => ?_⟩
  · rw [Memory.read_writeBytes, encLE32_length, if_pos (by omega), Nat.add_sub_cancel_left, ← byteOf_eq]
    have : k = 0 ∨ k = 1 ∨ k = 2 ∨ k = 3 := by omega
    rcases this with rfl | rfl | rfl | rfl <;> rfl
  · rw [Memory.read_writeBytes, encLE32_length, if_neg (by omega)]

/-- A known byte of a buffer word is read in its lane (R54, R95). -/
theorem bufferWord_lane {s : State} {off k : Nat} {b : Byte} (hk : k < 4) (hb : s.mem.read (off + k) = some b) :
    (bufferWord s off >>> (8 * k)).setWidth 8 = b := by
  have hlane : bufferLane s off k = b := by simp [bufferLane, hb]
  exact (le32_lane (bufferLane s off) hk).trans hlane

/-- Settles O17: the offset is a word of IBUF or of OBUF, which are written and read alike. -/
theorem buffersAreLittleEndian : Obligations.BuffersAreLittleEndian := by
  intro s v off he hcap h4 hoff
  obtain ⟨_, _, _, _, _, _, hibuf, hobuf⟩ := targetOf_group s.cfg.bufBytes off h4 hcap
  obtain ⟨hwrite, hframe⟩ := read_writeBytes_encLE32 s.mem off v
  rcases hoff with ⟨h1, h2⟩ | ⟨h1, h2⟩
  · have hr := hibuf h1 (by omega)
    exact ⟨⟨_, hostWrite_target (by omega) h4 hr (no_hazard_of_idle he _) v, hwrite, hframe⟩,
      ⟨_, _, hostRead_target (by omega) h4 hr (no_hazard_of_idle he _), fun k b hk hb => bufferWord_lane hk hb⟩⟩
  · have hr := hobuf h1 (by omega)
    exact ⟨⟨_, hostWrite_target (by omega) h4 hr (no_hazard_of_idle he _) v, hwrite, hframe⟩,
      ⟨_, _, hostRead_target (by omega) h4 hr (no_hazard_of_idle he _), fun k b hk hb => bufferWord_lane hk hb⟩⟩

/-! ## STATUS and CTRL, bit by bit -/

theorem SubCtx.isKeyed_iff (c : SubCtx) : c.isKeyed = true ↔ c ≠ .unset := by cases c <;> simp [SubCtx.isKeyed]

/-- The bits of STATUS (R35). -/
theorem statusWord_bits (s : State) :
    s.statusWord.getLsbD 0 = s.isBusy ∧ s.statusWord.getLsbD 1 = s.done ∧ s.statusWord.getLsbD 2 = s.err ∧
    s.statusWord.getLsbD 3 = s.ovr ∧ s.statusWord.getLsbD 4 = s.ctx.valid ∧ s.statusWord.getLsbD 5 = s.fvekKeyed ∧
    s.statusWord.getLsbD 6 = s.tweakKeyed ∧ ∀ k, 7 ≤ k → s.statusWord.getLsbD k = false := by
  refine ⟨?_, ?_, ?_, ?_, ?_, ?_, ?_, fun k hk => ?above⟩
  case above =>
    simp only [State.statusWord, BitVec.getLsbD_append]
    repeat rw [if_neg (by omega)]
    exact BitVec.getLsbD_zero
  all_goals
    simp only [State.statusWord, BitVec.getLsbD_append]
    simp

/-- The bits of CTRL (R34). -/
theorem ctrlWord_bits (s : State) :
    s.ctrlWord.getLsbD 0 = s.ieDone ∧ s.ctrlWord.getLsbD 1 = s.ieErr ∧ s.ctrlWord.getLsbD 2 = s.ieOvr ∧
    ∀ k, 3 ≤ k → s.ctrlWord.getLsbD k = false := by
  refine ⟨?_, ?_, ?_, fun k hk => ?above⟩
  case above =>
    simp only [State.ctrlWord, BitVec.getLsbD_append]
    repeat rw [if_neg (by omega)]
    exact BitVec.getLsbD_zero
  all_goals
    simp only [State.ctrlWord, BitVec.getLsbD_append]
    simp

theorem State.fvekKeyed_iff (s : State) :
    s.fvekKeyed = true ↔ s.ctx.fvekEnc ≠ .unset ∧ s.ctx.fvekDec ≠ .unset := by
  simp only [State.fvekKeyed, Bool.and_eq_true, SubCtx.isKeyed_iff]

theorem State.tweakKeyed_iff (s : State) :
    s.tweakKeyed = true ↔ s.ctx.tweakEnc ≠ .unset ∧ s.ctx.tweakDec ≠ .unset := by
  simp only [State.tweakKeyed, Bool.and_eq_true, SubCtx.isKeyed_iff]

theorem hostRead_ctrl (s : State) : hostRead s .w32 (s.cfg.base + 0x0008) = .ok (s.ctrlWord, s) :=
  hostRead_target_same (r := .ctrl) (by decide) (by decide) rfl (no_hazard_of_false s rfl) rfl

theorem hostRead_status (s : State) : hostRead s .w32 (s.cfg.base + 0x000C) = .ok (s.statusWord, s) :=
  hostRead_target_same (r := .status) (by decide) (by decide) rfl (no_hazard_of_false s rfl) rfl

/-- Settles O18: the bits of STATUS, and the write is the acknowledgement. -/
theorem statusReadAndAcknowledge : Obligations.StatusReadAndAcknowledge := by
  intro s v
  obtain ⟨hbusy, hdone, herr, hovr, hvalid, hfvek, htweak, hrest⟩ := statusWord_bits s
  exact ⟨⟨_, hostRead_status s, hbusy, hdone, herr, hovr, hvalid, hfvek ▸ s.fvekKeyed_iff, htweak ▸ s.tweakKeyed_iff, hrest⟩,
    ⟨_, _, _, hostWrite_target (r := .status) (by decide) (by decide) rfl (no_hazard_of_false s rfl) v, rfl, rfl, rfl⟩⟩

/-! ## What the host cannot see -/

/-- No register shows key bytes: it shows of the context what `Context.looksLike` keeps, and whether the engine is Idle. -/
theorem readTarget_sameButKeys {s t : State} (h : sameButKeys s t) (r : Target) :
    s.isBusy = t.isBusy ∧ readTarget s r = readTarget t r := by
  obtain ⟨f, w, c, g, e, rfl, ⟨hvalid, hmethod, hfe, hfd, hte, htd⟩, hidle⟩ := h
  have hbusy : s.isBusy = State.isBusy { s with fvekStage := f, tweakStage := w, ctx := c, hidden := g, engine := e } := by
    cases hs : s.engine with
    | idle =>
      obtain rfl := hidle.2 hs
      rw [State.isBusy_idle _ hs, State.isBusy_idle _ rfl]
    | busy cw snap n =>
      cases e with
      | idle => cases (hidle.1 rfl).symm.trans hs
      | busy cw' snap' n' => rw [State.isBusy_busy _ _ _ _ hs, State.isBusy_busy _ _ _ _ rfl]
  refine ⟨hbusy, ?_⟩
  cases r with
  | status =>
    simp only [readTarget, State.statusWord, State.fvekKeyed, State.tweakKeyed, ← hbusy, hfe, hfd, hte, htd, hvalid]
  | method => simp only [readTarget, State.methodWord, hvalid, hmethod]
  | _ => rfl

/-- Settles O20: a read returns a register's value or faults by the engine's being Busy, and IRQ is a function of flags. -/
theorem keyBytesAreNeverReadable : Obligations.KeyBytesAreNeverReadable := by
  intro s t h
  have hview := readTarget_sameButKeys h
  obtain ⟨f, w, c, g, e, rfl, _⟩ := h
  refine ⟨rfl, fun width a => ?_⟩
  unfold hostRead
  cases locate s.cfg width a with
  | error _ => rfl
  | ok off =>
    obtain ⟨hbusy, hread⟩ := hview (targetOf s.cfg.bufBytes off)
    simp only [← hbusy, hread]
    split <;> rfl

/-! ## Faults and hazards -/

theorem locate_narrow_or_misaligned (cfg : Params) {w : Width} {off : Nat} (h : off < 0x4000)
    (hw : w ≠ .w32 ∨ off % 4 ≠ 0) : locate cfg w (cfg.base + off) = .error .busError := by
  unfold locate
  rw [Nat.add_sub_cancel_left, if_neg (by omega), if_neg]
  rintro ⟨h1, h2⟩
  exact hw.elim (fun hne => hne h1) fun hne => hne h2

/-- Settles O21: the access is located before anything else. -/
theorem narrowOrMisalignedAccessFaults : Obligations.NarrowOrMisalignedAccessFaults := by
  intro s w off v h hw
  have hl := locate_narrow_or_misaligned s.cfg h hw
  simp only [hostRead, hostWrite, hl, and_self]

/-- The offsets whose reads are hazards while Busy: operands, inputs and outputs (R390). -/
def operandOffset (n off : Nat) : Prop :=
  (0x18 ≤ off ∧ off < 0x28) ∨ (0x80 ≤ off ∧ off < 0xE0) ∨ (0x1000 ≤ off ∧ off < 0x1000 + n) ∨
    (0x2000 ≤ off ∧ off < 0x2000 + n)

/-- The offsets of the staging groups, whose writes alone are hazards (R390). -/
def stagingOffset (off : Nat) : Prop := 0x40 ≤ off ∧ off < 0x80

/-- The hazards by offset; a read that is none draws no free value. -/
theorem hazards_of_offset {n off : Nat} (h4 : off % 4 = 0) (hn : n ≤ 4096) (h1 : off < 0x4000) :
    (readHazard (targetOf n off) = true ↔ operandOffset n off) ∧
    (writeHazard (targetOf n off) = true ↔ operandOffset n off ∨ stagingOffset off) ∧
    (¬ operandOffset n off → readDraws (targetOf n off) = 0) := by
  unfold operandOffset stagingOffset
  obtain ⟨hfvek, htweak, hiv, hsalt, hpwhash, hdkey, hibuf, hobuf⟩ := targetOf_group n off h4 hn
  have hreserved := targetOf_reserved n off h4 hn
  have hcontrol := targetOf_control n off h4
  have hgroup : off < 0x2C ∨ (0x40 ≤ off ∧ off < 0x60) ∨ (0x60 ≤ off ∧ off < 0x80) ∨ (0x80 ≤ off ∧ off < 0x90) ∨
      (0x90 ≤ off ∧ off < 0xA0) ∨ (0xA0 ≤ off ∧ off < 0xC0) ∨ (0xC0 ≤ off ∧ off < 0xE0) ∨
      (0x1000 ≤ off ∧ off < 0x1000 + n) ∨ (0x2000 ≤ off ∧ off < 0x2000 + n) ∨
      ((0x2C ≤ off ∧ off < 0x40) ∨ (0xE0 ≤ off ∧ off < 0x1000) ∨ (0x1000 + n ≤ off ∧ off < 0x2000) ∨
        0x2000 + n ≤ off) := by omega
  rcases hgroup with h | ⟨a, b⟩ | ⟨a, b⟩ | ⟨a, b⟩ | ⟨a, b⟩ | ⟨a, b⟩ | ⟨a, b⟩ | ⟨a, b⟩ | ⟨a, b⟩ | h
  · obtain ⟨_, hr, hw, hd⟩ := hcontrol h
    rw [hr, hw, hd]
    omega
  · rw [hfvek a b]
    simp only [readHazard, writeHazard, readDraws, Bool.false_eq_true, true_iff, false_iff]
    exact ⟨by omega, by omega, fun _ => trivial⟩
  · rw [htweak a b]
    simp only [readHazard, writeHazard, readDraws, Bool.false_eq_true, true_iff, false_iff]
    exact ⟨by omega, by omega, fun _ => trivial⟩
  · rw [hiv a b]
    simp only [readHazard, writeHazard, readDraws, true_iff]
    omega
  · rw [hsalt a b]
    simp only [readHazard, writeHazard, readDraws, true_iff]
    omega
  · rw [hpwhash a b]
    simp only [readHazard, writeHazard, readDraws, true_iff]
    omega
  · rw [hdkey a b]
    simp only [readHazard, writeHazard, readDraws, true_iff]
    omega
  · rw [hibuf a b]
    simp only [readHazard, writeHazard, readDraws, true_iff]
    omega
  · rw [hobuf a b]
    simp only [readHazard, writeHazard, readDraws, true_iff]
    omega
  · rw [hreserved h]
    simp only [readHazard, writeHazard, readDraws, Bool.false_eq_true, false_iff]
    exact ⟨by omega, by omega, fun _ => trivial⟩

/-- Settles O22: the hazards by offset, and an access that is none goes through. -/
theorem hazardsAreExactlyTheListedAccesses : Obligations.HazardsAreExactlyTheListedAccesses := by
  intro s off v hb hcap h1 h4
  obtain ⟨hread, hwrite, hdraws⟩ := hazards_of_offset h4 hcap h1
  refine ⟨fun h => ?_, fun h => ?_, fun h => ?_, fun h h' => ?_⟩
  · rw [hostRead_base s off h1 h4, hb, hread.2 h]
    rfl
  · exact ⟨_, hostRead_target_same h1 h4 rfl (no_hazard_of_false s (Bool.eq_false_iff.2 (mt hread.1 h))) (hdraws h)⟩
  · rw [hostWrite_base s off v h1 h4, hb, hwrite.2 h]
    rfl
  · exact ⟨_, hostWrite_target h1 h4 rfl (no_hazard_of_false s (Bool.eq_false_iff.2 (mt hwrite.1 (not_or.2 ⟨h, h'⟩)))) v⟩

/-- Settles O23: while Busy the invariant gives DONE, ERR and ERROR, and the snapshot's context is the current one. -/
theorem busyReadsAreDefined : Obligations.BusyReadsAreDefined := by
  intro s cw snap n hinv he
  have hctx : s.ctx = snap.ctx := by rw [← hinv.operands_ctx, s.operands_busy _ _ _ he]
  have hb := s.isBusy_busy _ _ _ he
  obtain ⟨hdone, herr, herror⟩ := hinv.busy_clear hb
  obtain ⟨_, _, habsent, _⟩ := hinv.ctx_wf
  refine ⟨⟨_, hostRead_ctrl s, ctrlWord_bits s⟩, ⟨_, hostRead_status s, ?status⟩, ?error, ?method, ?cmd, ?staging⟩
  case status =>
    obtain ⟨b0, b1, b2, b3, b4, b5, b6, hrest⟩ := statusWord_bits s
    rw [← hctx]
    exact ⟨b0.trans hb, b1.trans hdone, b2.trans herr, b3, b4, b5 ▸ s.fvekKeyed_iff, b6 ▸ s.tweakKeyed_iff, hrest⟩
  case error =>
    rw [← herror]
    exact hostRead_target_same (r := .error) (by decide) (by decide) rfl (no_hazard_of_false s rfl) rfl
  case method =>
    have hmethod : s.methodWord = snap.ctx.method.setWidth 32 := by
      rw [methodWord_eq, ← hctx]
      split
      · rfl
      · next hv => rw [habsent (Bool.eq_false_iff.2 hv)]; rfl
    rw [← hmethod]
    exact hostRead_target_same (r := .method) (by decide) (by decide) rfl (no_hazard_of_false s rfl) rfl
  case cmd => exact hostRead_target_same (r := .cmd) (by decide) (by decide) rfl (no_hazard_of_false s rfl) rfl
  case staging =>
    intro off h1 h2 h4
    obtain ⟨hfvek, htweak, _⟩ := targetOf_group 0 off h4 (by decide)
    have hbelow := targetOf_below_buffers s.cfg.bufBytes (off := off) (by omega)
    rcases Nat.lt_or_ge off 0x60 with h | h
    · exact hostRead_target_same (by omega) h4 (hbelow.trans (hfvek h1 h)) (no_hazard_of_false s rfl) rfl
    · exact hostRead_target_same (by omega) h4 (hbelow.trans (htweak h h2)) (no_hazard_of_false s rfl) rfl

end Sys2Proof.Machine
end

section
/-! Every command (`60_exceptions.md` R345, R346, R348, `20_memory.md` R100): its checks and its input, what it writes, what a
failing one leaves, and what an abandoned one leaves (`70_reset_and_hazards.md` R382). -/

namespace Sys2Proof.Machine

/-! ## Checks, input and output -/

/-- The four shapes of a command: a failed check, which writes no byte; a buffer transform after its checks; a hash command
after its checks; and a command with neither input nor output (R99, R100). -/
theorem exec_shapes (i : Instr) (s : State) :
    (obufBytes s.cfg s.operands i = 0 ∧ ∃ e, exec i s = reject (s.leftBy i) i e) ∨
    (obufBytes s.cfg s.operands i = outputBytes s.operands i ∧ inputBytes s.operands i = outputBytes s.operands i ∧
      ∃ f, exec i s = transformBuffer (s.leftBy i) i (outputBytes s.operands i) f) ∨
    (obufBytes s.cfg s.operands i = 0 ∧ outputBytes s.operands i = 0 ∧
      ∃ k, exec i s = withInput s (inputBytes s.operands i) k) ∨
    (obufBytes s.cfg s.operands i = 0 ∧ outputBytes s.operands i = 0 ∧ inputBytes s.operands i = 0) := by
  cases i with
  | init m => exact .inr (.inr (.inr ⟨rfl, rfl, rfl⟩))
  | free => exact .inr (.inr (.inr ⟨rfl, rfl, rfl⟩))
  | setkeys => exact .inr (.inr (.inr ⟨rfl, rfl, rfl⟩))
  | calckey => exact .inr (.inr (.inr ⟨rfl, rfl, rfl⟩))
  | crypt m =>
    cases hc : cryptChecks s.cfg.bufBytes m s.operands with
    | error e => exact .inl ⟨by simp only [obufBytes, hc, writtenAfter], e, by simp only [exec, execCrypt, hc]; rfl⟩
    | ok d =>
      exact .inr (.inl ⟨by simp only [obufBytes, hc, writtenAfter, outputBytes], rfl, _,
        by simp only [exec, execCrypt, hc]; rfl⟩)
  | ecb m k =>
    cases hc : ecbChecks m s.operands with
    | error e => exact .inl ⟨by simp only [obufBytes, hc, writtenAfter], e, by simp only [exec, execEcb, hc]; rfl⟩
    | ok d =>
      exact .inr (.inl ⟨by simp only [obufBytes, hc, writtenAfter, outputBytes], rfl, _,
        by simp only [exec, execEcb, hc]; rfl⟩)
  | cbc m k =>
    cases hc : cbcChecks s.cfg.bufBytes m s.operands with
    | error e => exact .inl ⟨by simp only [obufBytes, hc, writtenAfter], e, by simp only [exec, execCbc, hc]; rfl⟩
    | ok d =>
      exact .inr (.inl ⟨by simp only [obufBytes, hc, writtenAfter, outputBytes], rfl, _,
        by simp only [exec, execCbc, hc]; rfl⟩)
  | diffa m =>
    cases hc : diffuserChecks s.cfg.bufBytes m s.operands with
    | error e =>
      exact .inl ⟨by simp only [obufBytes, hc, writtenAfter], e, by simp only [exec, execDiffa, diffuserCommand, hc]; rfl⟩
    | ok d =>
      exact .inr (.inl ⟨by simp only [obufBytes, hc, writtenAfter, outputBytes], rfl, _,
        by simp only [exec, execDiffa, diffuserCommand, hc]; rfl⟩)
  | diffb m =>
    cases hc : diffuserChecks s.cfg.bufBytes m s.operands with
    | error e =>
      exact .inl ⟨by simp only [obufBytes, hc, writtenAfter], e, by simp only [exec, execDiffb, diffuserCommand, hc]; rfl⟩
    | ok d =>
      exact .inr (.inl ⟨by simp only [obufBytes, hc, writtenAfter, outputBytes], rfl, _,
        by simp only [exec, execDiffb, diffuserCommand, hc]; rfl⟩)
  | hash8 =>
    cases hc : lengthCheck s.cfg.bufBytes s.operands.length.toNat true 1 none with
    | some e => exact .inl ⟨rfl, e, by simp only [exec, execHash8, hc]; rfl⟩
    | none => exact .inr (.inr (.inl ⟨rfl, rfl, _, by simp only [exec, execHash8, hc]; rfl⟩))
  | hash16 =>
    cases hc : lengthCheck s.cfg.bufBytes s.operands.length.toNat true 2 none with
    | some e => exact .inl ⟨rfl, e, by simp only [exec, execHash16, hc]; rfl⟩
    | none => exact .inr (.inr (.inl ⟨rfl, rfl, _, by simp only [exec, execHash16, hc]; rfl⟩))

theorem onlyReports_of_exec_reject {i : Instr} {s : State} {e : CmdError} (h : exec i s = reject (s.leftBy i) i e) :
    onlyReports i s (errorWord i.opc e) :=
  onlyReports_of_reject i s e _ h rfl

/-- A buffer transform whose input is not all known faults. -/
theorem transformBuffer_none {s : State} {i : Instr} {n : Nat} {f : List Byte → Except CmdError (List Byte)}
    (h : s.readIbuf n = none) : transformBuffer s i n f = .fault .unknownInput :=
  withInput_none s n _ h

/-- Settles O49: a command reads all its input at once, after its checks. -/
theorem unknownInputIsNeverUsed : Obligations.UnknownInputIsNeverUsed := by
  intro i s k hk hunknown
  have hnone : s.readIbuf (inputBytes s.operands i) = none := (s.readIbuf_eq_none _).2 ⟨k, hk, hunknown⟩
  rcases exec_shapes i s with ⟨_, e, h⟩ | ⟨_, hin, f, h⟩ | ⟨_, _, c, h⟩ | ⟨_, _, h0⟩
  · exact .inr ⟨_, onlyReports_of_exec_reject h⟩
  · rw [hin] at hnone
    exact .inl (h.trans (transformBuffer_none hnone))
  · exact .inl (h.trans (withInput_none s _ c hnone))
  · omega

/-- Settles O50: the one outcome that is no completion consumes an Unknown byte. -/
theorem everyCommandCompletes : Obligations.EveryCommandCompletes := by
  intro i s hknown
  rcases exec_effects i s with ⟨e, _, h⟩ | ⟨y, _, h⟩ | ⟨S, h⟩ | ⟨hnone, _⟩ | ⟨u, _, h⟩
  · exact ⟨_, h, rfl, rfl⟩
  · exact ⟨_, h, rfl, rfl⟩
  · exact ⟨_, h, rfl, rfl⟩
  · obtain ⟨k, hk, hunknown⟩ := (s.readIbuf_eq_none _).1 hnone
    obtain ⟨b, hb⟩ := hknown k hk
    cases hunknown.symm.trans hb
  · exact ⟨_, h, rfl, rfl⟩

/-! ## What a command leaves -/

theorem sameBytesOutsideObuf_of_forget {s t : State} {n : Nat} (h : t.mem = s.mem.forget obufBase n) :
    sameBytesOutsideObuf n s t := by
  intro a ha
  rw [h, Memory.read_forget, if_neg (by omega)]

theorem obufUnknown_of_forget {s t : State} {n : Nat} (h : t.mem = s.mem.forget obufBase n) : obufUnknown n t := by
  intro k hk
  rw [h, Memory.read_forget, if_pos (by omega)]

theorem sameBytesOutsideObuf_of_write {s t : State} {y : List Byte} (h : t.mem = s.mem.writeBytes obufBase y) :
    sameBytesOutsideObuf y.length s t := by
  intro a ha
  rw [h, Memory.read_writeBytes, if_neg (by omega)]

/-- Settles O51: a command that newly sets ERR failed a check or met an Unset sub-context. -/
theorem failingCommandChangesOnlyItsReport : Obligations.FailingCommandChangesOnlyItsReport := by
  intro i s t hwf ht hs herr
  rcases exec_outcomes i s with ⟨e, he, h⟩ | ⟨_, y, _, h⟩ | ⟨S, h, hS⟩ | ⟨_, h⟩ | ⟨c, f, w, p, d, _, h⟩ <;>
    cases ht.symm.trans h
  · obtain ⟨_, hregs, hsecrets, hhidden, hbytes⟩ := s.failWith_leavesOnlyReport (hiddenAfter i s.hidden) i.opc e
    exact ⟨⟨e, he, rfl⟩, rfl, rfl, hregs, hsecrets, hhidden, .inl hbytes⟩
  · cases hs.symm.trans herr
  · exact ⟨⟨_, hS hwf, rfl⟩, rfl, rfl, by simp [sameHostRegisters], by simp [sameSecrets, sameStaging], rfl,
      .inr ⟨errorWord_code _ _, obufUnknown_of_forget (s := s) rfl, sameBytesOutsideObuf_of_forget rfl⟩⟩
  · cases hs.symm.trans herr

/-- Settles O52: a failed check and a cipher failure write no register but the report, a transform writes its output, and
every other command writes the registers that `RegisterEffect` names. -/
theorem commandsWriteOnlyTheirRegisters : Obligations.CommandsWriteOnlyTheirRegisters := by
  intro i s t ht
  rcases exec_effects i s with ⟨e, _, h⟩ | ⟨y, hy, h⟩ | ⟨S, h⟩ | ⟨_, h⟩ | ⟨u, hu, h⟩ <;> cases ht.symm.trans h
  · exact ⟨by simp [sameHostRegisters], fun _ _ => rfl, fun hne => absurd rfl hne, fun hne => absurd ⟨rfl, rfl⟩ hne,
      fun hne => absurd rfl hne, fun hne => absurd rfl hne, rfl⟩
  · exact ⟨by simp [sameHostRegisters], hy ▸ sameBytesOutsideObuf_of_write rfl, fun hne => absurd rfl hne,
      fun hne => absurd ⟨rfl, rfl⟩ hne, fun hne => absurd rfl hne, fun hne => absurd rfl hne, rfl⟩
  · exact ⟨by simp [sameHostRegisters], sameBytesOutsideObuf_of_forget rfl, fun hne => absurd rfl hne,
      fun hne => absurd ⟨rfl, rfl⟩ hne, fun hne => absurd rfl hne, fun hne => absurd rfl hne, rfl⟩
  · cases hu <;> simp [sameHostRegisters, sameBytesOutsideObuf, sameStaging, hiddenAfter]

/-! ## An abandoned command -/

/-- The buffers after a soft reset of a Busy machine whose word decodes (R382). -/
theorem abandon_of_decode_ok {s : State} {cw : Word} {snap : Snapshot} {n : Nat} {i : Instr}
    (he : s.engine = .busy cw snap n) (hd : decode cw = .ok i) :
    s.abandon = s.mem.forget obufBase (obufBytes s.cfg snap i) := by
  simp [State.abandon, he, hd]

theorem abandon_of_decode_error {s : State} {cw : Word} {snap : Snapshot} {n : Nat} {e : DecodeError}
    (he : s.engine = .busy cw snap n) (hd : decode cw = .error e) : s.abandon = s.mem := by
  simp [State.abandon, he, hd]

theorem abandon_of_idle {s : State} (he : s.engine = .idle) : s.abandon = s.mem := by
  simp [State.abandon, he]

/-- Making no byte Unknown changes nothing. -/
theorem read_forget_zero (m : Memory) (a b : Nat) : (m.forget a 0).read b = m.read b := by
  rw [Memory.read_forget, if_neg (by omega)]

/-- Of a command that would only have reported, abandonment changes no byte: a transform that only reports met an Unset
sub-context, and what it makes Unknown was Unknown before. -/
theorem read_forget_of_onlyReports {i : Instr} {s : State} {w : Word} (hs : s.err = false) (h : onlyReports i s w) (a : Nat) :
    (s.mem.forget obufBase (obufBytes s.cfg s.operands i)).read a = s.mem.read a := by
  obtain ⟨t, ht, ⟨_, _, herr, _⟩, _, _, _, hbytes⟩ := h
  rcases exec_shapes i s with ⟨h0, _⟩ | ⟨hn, _, f, hf⟩ | ⟨h0, _⟩ | ⟨h0, _⟩
  · rw [h0, read_forget_zero]
  · rw [hn]
    rcases transformBuffer_cases (s.leftBy i) i (outputBytes s.operands i) f with
      ⟨x, y, _, _, hx⟩ | ⟨x, e, _, _, hx⟩ | ⟨_, hx⟩ <;> cases ht.symm.trans (hf.trans hx)
    · cases hs.symm.trans herr
    · exact hbytes a
  · rw [h0, read_forget_zero]
  · rw [h0, read_forget_zero]

/-- A command that would have done more than report would have written its whole output. -/
theorem obufBytes_of_not_onlyReports {i : Instr} {s : State} (h : ¬ ∃ w, onlyReports i s w) :
    obufBytes s.cfg s.operands i = outputBytes s.operands i := by
  rcases exec_shapes i s with ⟨_, e, he⟩ | ⟨hn, _⟩ | ⟨h0, h1, _⟩ | ⟨h0, h1, _⟩
  · exact absurd ⟨_, onlyReports_of_exec_reject he⟩ h
  · exact hn
  · rw [h0, h1]
  · rw [h0, h1]

theorem hostWrite_srst (s : State) (v : Word) (hv : v.getLsbD 31 = true) :
    hostWrite s .w32 (s.cfg.base + 0x0008) v = .ok s.softReset := by
  rw [hostWrite_target (r := .ctrl) (by decide) (by decide) rfl (no_hazard_of_false s rfl) v, writeTarget, writeCtrl,
    if_pos hv]

/-- Settles O12: the write is the soft reset, whose registers are fresh and whose buffers are those the abandoned command
leaves. -/
theorem softResetEffect : Obligations.SoftResetEffect := by
  intro s v hv
  refine ⟨_, hostWrite_srst s v hv, State.fresh_registersReset .., rfl, rfl, fun he a => ?_, fun cw snap n he =>
    ⟨fun i hd => ?_, fun e hd a => ?_⟩⟩
  · exact congrArg (Memory.read · a) (abandon_of_idle he)
  · have hmem : s.softReset.mem = s.mem.forget obufBase (obufBytes s.cfg snap i) := abandon_of_decode_ok he hd
    rw [← s.operands_busy _ _ _ he] at hmem ⊢
    refine ⟨fun hs ⟨w, hw⟩ a => ?_, fun hnot => ?_⟩
    · rw [hmem, read_forget_of_onlyReports hs hw]
    · rw [obufBytes_of_not_onlyReports hnot] at hmem
      exact ⟨obufUnknown_of_forget hmem, sameBytesOutsideObuf_of_forget hmem⟩
  · exact congrArg (Memory.read · a) (abandon_of_decode_error he hd)

end Sys2Proof.Machine
end

section
/-! INIT, FREE and SETKEYS (`43_context.md`), and the reports of every command's checks (`60_exceptions.md` R344). -/

namespace Sys2Proof.Machine

/-! ## INIT and FREE -/

/-- METHOD of a valid context is its code (R37). -/
theorem methodWord_of_valid {s : State} (h : s.ctx.valid = true) : s.methodWord = s.ctx.method.setWidth 32 := by
  rw [methodWord_eq, if_pos h]

theorem exec_init {s : State} (m : BitVec 16) (h : s.operands.ctx.valid = false) :
    exec (.init m) s = .next (State.succeed { s with ctx := ⟨true, m, .unset, .unset, .unset, .unset⟩ }) := by
  simp [exec, execInit, h]

theorem exec_free {s : State} (h : s.operands.ctx.valid = true) :
    exec .free s = .next (State.succeed { s with ctx := Context.absent }) := by
  simp [exec, execFree, h]

/-- Settles O24: INIT replaces the context and completes. -/
theorem initCreatesContext : Obligations.InitCreatesContext := by
  intro m s hv
  refine ⟨_, exec_init m hv, ?_, rfl, rfl, methodWord_of_valid rfl, fun S => by cases S <;> rfl, ?_, ?_, rfl, rfl, rfl,
    fun _ => rfl⟩
  · simp [finished]
  · simp [sameHostRegisters]
  · simp [sameStaging]

/-- Settles O25: FREE replaces the context by none and completes. -/
theorem freeDestroysContext : Obligations.FreeDestroysContext := by
  intro s hv
  refine ⟨_, exec_free hv, ?_, rfl, rfl, ?_, Context.absent_sub, ?_, ?_, rfl, rfl, rfl, fun _ => rfl⟩
  · simp [finished]
  · rw [methodWord_eq]
    rfl
  · simp [sameHostRegisters]
  · simp [sameStaging]

/-! ## SETKEYS -/

/-- SetKey of a supported size: a key of that size, made of the first bytes of the staging value (R165). -/
theorem setKey_of_size (kb : ByteReg 32) {bits : Nat} (h : bits = 128 ∨ bits = 256) :
    ∃ k, setKey kb bits = some (.keyed k) ∧ k.bits = bits ∧ k.bytes = kb.toList.take (bits / 8) := by
  rcases h with rfl | rfl
  · refine ⟨_, rfl, rfl, ?_⟩
    have hreg : regOfBytes 16 kb.toList = regOfBytes 16 (kb.toList.take 16) := by
      ext k hk
      simp [hk, show k < 32 by omega]
    show (regOfBytes 16 kb.toList).toList = kb.toList.take 16
    rw [hreg, regOfBytes_take_toList 16 _ (by simp)]
  · refine ⟨.k256 kb, rfl, rfl, ?_⟩
    show kb.toList = kb.toList.take 32
    rw [List.take_of_length_le (by simp)]

/-- A key is its size and its bytes. -/
theorem AesKey.ext_bits_bytes {a b : AesKey} (hbits : a.bits = b.bits) (hbytes : a.bytes = b.bytes) : a = b := by
  cases a <;> cases b <;> simp_all [AesKey.bits, AesKey.bytes, Vector.toList_inj]

/-- SetKey looks at the bytes of its size only (R165, R284). -/
theorem setKey_congr {f g : ByteReg 32} {bits : Nat} (hb : bits = 128 ∨ bits = 256)
    (h : f.toList.take (bits / 8) = g.toList.take (bits / 8)) : setKey f bits = setKey g bits := by
  obtain ⟨k, hk, hkbits, hkbytes⟩ := setKey_of_size f hb
  obtain ⟨l, hl, hlbits, hlbytes⟩ := setKey_of_size g hb
  rw [hk, hl, AesKey.ext_bits_bytes (hkbits.trans hlbits.symm) (hkbytes.trans (h.trans hlbytes.symm))]

/-- SETKEYS under a Diffuser method keys all four sub-contexts (R281). -/
theorem keyedContext_of_tweak {o : Snapshot} {bits : Nat} {kf kt : AesKey} (hf : setKey o.fvekStage bits = some (.keyed kf))
    (ht : setKey o.tweakStage bits = some (.keyed kt)) :
    keyedContext o ⟨bits, true, true⟩ = some { o.ctx with
      fvekEnc := .keyed kf, fvekDec := .keyed kf, tweakEnc := .keyed kt, tweakDec := .keyed kt } := by
  simp [keyedContext, hf, ht]

/-- SETKEYS under a non-Diffuser method keys the FVEK pair (R281). -/
theorem keyedContext_of_no_tweak {o : Snapshot} {bits : Nat} {kf : AesKey} (hf : setKey o.fvekStage bits = some (.keyed kf)) :
    keyedContext o ⟨bits, false, false⟩ = some { o.ctx with fvekEnc := .keyed kf, fvekDec := .keyed kf } := by
  simp [keyedContext, hf]

theorem exec_setkeys {s : State} {cls : MethodClass} {c : Context} (hv : s.operands.ctx.valid = true)
    (hcls : classify s.operands.ctx.method = some cls) (hk : keyedContext s.operands cls = some c) :
    exec .setkeys s = .next (State.succeed { s with ctx := c, fvekStage := zeroReg 32, tweakStage := zeroReg 32 }) := by
  simp [exec, execSetkeys, hv, hcls, hk]

/-- The classes of the four supported methods, as O26 lists them. -/
theorem classify_of_listed {m : BitVec 16} {bits : Nat} {diffuser : Bool}
    (h : (m = 0x8000 ∧ bits = 128 ∧ diffuser = true) ∨ (m = 0x8001 ∧ bits = 256 ∧ diffuser = true) ∨
      (m = 0x8002 ∧ bits = 128 ∧ diffuser = false) ∨ (m = 0x8003 ∧ bits = 256 ∧ diffuser = false)) :
    classify m = some ⟨bits, diffuser, diffuser⟩ ∧ (bits = 128 ∨ bits = 256) := by
  rcases h with ⟨rfl, rfl, rfl⟩ | ⟨rfl, rfl, rfl⟩ | ⟨rfl, rfl, rfl⟩ | ⟨rfl, rfl, rfl⟩
  · exact ⟨rfl, .inl rfl⟩
  · exact ⟨rfl, .inr rfl⟩
  · exact ⟨rfl, .inl rfl⟩
  · exact ⟨rfl, .inr rfl⟩

/-- The Diffuser methods (R270, R272). -/
theorem classify_diffuser {m : BitVec 16} (h : m = 0x8000 ∨ m = 0x8001) :
    ∃ bits, classify m = some ⟨bits, true, true⟩ ∧ (bits = 128 ∨ bits = 256) := by
  rcases h with rfl | rfl
  · exact ⟨128, rfl, .inl rfl⟩
  · exact ⟨256, rfl, .inr rfl⟩

/-- The non-Diffuser methods (R270, R272). -/
theorem classify_nonDiffuser {m : BitVec 16} (h : m = 0x8002 ∨ m = 0x8003) :
    ∃ bits, classify m = some ⟨bits, false, false⟩ ∧ (bits = 128 ∨ bits = 256) := by
  rcases h with rfl | rfl
  · exact ⟨128, rfl, .inl rfl⟩
  · exact ⟨256, rfl, .inr rfl⟩

/-- Settles O26: the class of the method says which pairs are keyed, and SetKey what each key is. -/
theorem setkeysInstallsKeys : Obligations.SetkeysInstallsKeys := by
  intro s bits diffuser hv hm
  obtain ⟨hcls, hbits⟩ := classify_of_listed hm
  obtain ⟨kf, hf, hfbits, hfbytes⟩ := setKey_of_size s.operands.fvekStage hbits
  obtain ⟨kt, ht, htbits, htbytes⟩ := setKey_of_size s.operands.tweakStage hbits
  cases diffuser with
  | true =>
    exact ⟨_, kf, exec_setkeys hv hcls (keyedContext_of_tweak hf ht), by simp [finished], hfbits, hfbytes, rfl, rfl,
      fun _ => ⟨kt, htbits, htbytes, rfl, rfl⟩, fun h => by simp at h, hv, rfl, rfl, rfl, by simp [sameHostRegisters], rfl,
      rfl, rfl, fun _ => rfl⟩
  | false =>
    exact ⟨_, kf, exec_setkeys hv hcls (keyedContext_of_no_tweak hf), by simp [finished], hfbits, hfbytes, rfl, rfl,
      fun h => by simp at h, fun _ => ⟨rfl, rfl⟩, hv, rfl, rfl, rfl, by simp [sameHostRegisters], rfl, rfl, rfl,
      fun _ => rfl⟩

/-! ## Old keys and unused staging bytes -/

/-- What an abandoned command would have written does not depend on keys. -/
theorem obufBytes_keys (cfg : Params) (snap : Snapshot) (a b c d : SubCtx) (i : Instr) :
    obufBytes cfg { snap with
      ctx := { snap.ctx with fvekEnc := a, fvekDec := b, tweakEnc := c, tweakDec := d } } i = obufBytes cfg snap i := by
  cases i <;> rfl

/-- Settles O53: FREE and the resets replace the context, and SETKEYS the pairs its method uses; what is abandoned depends on
no key. -/
theorem oldKeysLeaveNoTrace : Obligations.OldKeysLeaveNoTrace := by
  intro s cw snap n a b c d a' b' c' d' he hv old
  have hop : s.operands = snap := s.operands_busy _ _ _ he
  have hvs : s.operands.ctx.valid = true := by rw [hop]; exact hv
  refine ⟨?free, rfl, fun v hsrst => ?softReset, fun hm => ?diffuser, fun hm => ?nonDiffuser⟩
  case free => exact (exec_free (s := old) hv).trans (exec_free hvs).symm
  case softReset =>
    have habandon : old.abandon = s.abandon := by
      cases hd : decode cw with
      | ok i => rw [abandon_of_decode_ok rfl hd, abandon_of_decode_ok he hd, ← obufBytes_keys s.cfg snap a' b' c' d' i]
      | error e => rw [abandon_of_decode_error rfl hd, abandon_of_decode_error he hd]
    have hreset : old.softReset = s.softReset := by rw [State.softReset, habandon, State.softReset]
    exact (hostWrite_srst old v hsrst).trans ((congrArg _ hreset).trans (hostWrite_srst s v hsrst).symm)
  case diffuser =>
    obtain ⟨bits, hcls, hbits⟩ := classify_diffuser hm
    obtain ⟨kf, hf, _⟩ := setKey_of_size snap.fvekStage hbits
    obtain ⟨kt, ht, _⟩ := setKey_of_size snap.tweakStage hbits
    have hs := exec_setkeys (s := s) hvs (by rw [hop]; exact hcls) (by rw [hop]; exact keyedContext_of_tweak hf ht)
    exact (exec_setkeys (s := old) hv hcls (keyedContext_of_tweak hf ht)).trans hs.symm
  case nonDiffuser =>
    obtain ⟨bits, hcls, hbits⟩ := classify_nonDiffuser hm
    obtain ⟨kf, hf, _⟩ := setKey_of_size snap.fvekStage hbits
    have hs := exec_setkeys (s := s) hvs (by rw [hop]; exact hcls) (by rw [hop]; exact keyedContext_of_no_tweak hf)
    exact ⟨_, hs, by simp, by simp, exec_setkeys (s := old) hv hcls (keyedContext_of_no_tweak hf)⟩

/-- Settles O54: SETKEYS reads of the snapshot's staging values what SetKey reads, and clears the registers. -/
theorem unusedStagingBytesHaveNoEffect : Obligations.UnusedStagingBytesHaveNoEffect := by
  intro s cw snap n f w f' w' he hv other
  have hop : s.operands = snap := s.operands_busy _ _ _ he
  have hvs : s.operands.ctx.valid = true := by rw [hop]; exact hv
  refine ⟨fun hm hf hw => ?short, fun hm hf => ?noTweak, fun hm heq => ?long⟩
  case short =>
    have hcls : classify snap.ctx.method = some ⟨128, true, true⟩ := by rw [hm]; rfl
    obtain ⟨kf, hkf, _⟩ := setKey_of_size snap.fvekStage (bits := 128) (.inl rfl)
    obtain ⟨kt, hkt, _⟩ := setKey_of_size snap.tweakStage (bits := 128) (.inl rfl)
    have hs := exec_setkeys (s := s) hvs (by rw [hop]; exact hcls) (by rw [hop]; exact keyedContext_of_tweak hkf hkt)
    exact (exec_setkeys (s := other) hv hcls (keyedContext_of_tweak ((setKey_congr (.inl rfl) hf).trans hkf)
      ((setKey_congr (.inl rfl) hw).trans hkt))).trans hs.symm
  case noTweak =>
    subst hf
    obtain ⟨bits, hcls, hbits⟩ := classify_nonDiffuser hm
    obtain ⟨kf, hkf, _⟩ := setKey_of_size snap.fvekStage hbits
    have hs := exec_setkeys (s := s) hvs (by rw [hop]; exact hcls) (by rw [hop]; exact keyedContext_of_no_tweak hkf)
    exact (exec_setkeys (s := other) hv hcls (keyedContext_of_no_tweak hkf)).trans hs.symm
  case long =>
    have hcls : classify snap.ctx.method = some ⟨256, true, true⟩ := by rw [hm]; rfl
    have hs := exec_setkeys (s := s) hvs (by rw [hop]; exact hcls) (by rw [hop]; exact keyedContext_of_tweak rfl rfl)
    have ho := exec_setkeys (s := other) hv hcls (keyedContext_of_tweak rfl rfl)
    have hctx := congrArg State.ctx (Host.Outcome.next.inj (ho.symm.trans (heq.trans hs)))
    obtain ⟨_, _, hfvek, _, htweak, _⟩ := Context.mk.inj hctx
    exact ⟨AesKey.k256.inj (SubCtx.keyed.inj hfvek), AesKey.k256.inj (SubCtx.keyed.inj htweak)⟩

end Sys2Proof.Machine
end

section
/-! The reports of the commands' checks, in their order (`30_encoding.md` R124, R131, `60_exceptions.md` R344). -/

namespace Sys2Proof.Machine

/-! ## What the checks answer -/

/-- A defined MODE has a direction (R124). -/
theorem directionOf_of_defined {mode : Mode} (h : mode.defined = true) : ∃ d, directionOf mode = some d := by
  cases mode with
  | decrypt => exact ⟨.decrypt, rfl⟩
  | encrypt => exact ⟨.encrypt, rfl⟩
  | reserved2 | reserved3 => cases h

theorem ecbChecks_of_reserved {mode : Mode} (o : Snapshot) (h : directionOf mode = none) :
    ecbChecks mode o = .error errUnsupportedMode := by
  simp [ecbChecks, h]

theorem ecbChecks_of_absent {mode : Mode} {d : Direction} {o : Snapshot} (h : directionOf mode = some d)
    (hv : o.ctx.valid = false) : ecbChecks mode o = .error errNoContext := by
  simp [ecbChecks, h, hv]

theorem ecbChecks_of_valid {mode : Mode} {d : Direction} {o : Snapshot} (h : directionOf mode = some d)
    (hv : o.ctx.valid = true) : ecbChecks mode o = .ok d := by
  simp [ecbChecks, h, hv]

theorem cbcChecks_of_ecb_error {mode : Mode} {o : Snapshot} {e : CmdError} (cap : Nat) (h : ecbChecks mode o = .error e) :
    cbcChecks cap mode o = .error e := by
  simp [cbcChecks, h]

theorem cbcChecks_of_length_error {mode : Mode} {o : Snapshot} {d : Direction} {cap : Nat} {e : CmdError}
    (h : ecbChecks mode o = .ok d) (hl : lengthCheck cap o.length.toNat false 16 none = some e) :
    cbcChecks cap mode o = .error e := by
  simp [cbcChecks, h, hl]

theorem cryptChecks_of_ecb_error {mode : Mode} {o : Snapshot} {e : CmdError} (cap : Nat) (h : ecbChecks mode o = .error e) :
    cryptChecks cap mode o = .error e := by
  simp [cryptChecks, h]

theorem cryptChecks_of_unsupported {mode : Mode} {o : Snapshot} {d : Direction} (cap : Nat) (h : ecbChecks mode o = .ok d)
    (hm : classify o.ctx.method = none) : cryptChecks cap mode o = .error errUnsupportedMethod := by
  simp [cryptChecks, h, hm]

theorem cryptChecks_of_length_error {mode : Mode} {o : Snapshot} {d : Direction} {cls : MethodClass} {cap : Nat}
    {e : CmdError} (h : ecbChecks mode o = .ok d) (hm : classify o.ctx.method = some cls)
    (hl : lengthCheck cap o.length.toNat true 16 (sectorOperand cls o) = some e) : cryptChecks cap mode o = .error e := by
  simp [cryptChecks, h, hm, hl]

theorem diffuserChecks_of_length_error {mode : Mode} {o : Snapshot} {d : Direction} {cap : Nat} {e : CmdError}
    (h : directionOf mode = some d) (hl : lengthCheck cap o.length.toNat true 16 none = some e) :
    diffuserChecks cap mode o = .error e := by
  simp [diffuserChecks, h, hl]

/-! ## The first length check that fails (R131) -/

section
variable (cap len : Nat) (minOne : Bool) (granule : Nat) (sector : Option Nat)

theorem lengthCheck_tooLarge (h : cap < len) :
    lengthCheck cap len minOne granule sector = some (errLength .lengthTooLarge) := by
  simp [lengthCheck, h]

theorem lengthCheck_zero : lengthCheck cap 0 true granule sector = some (errLength .lengthZero) := by
  simp [lengthCheck]

theorem lengthCheck_notMultiple (h : len ≤ cap) (hg : len % granule ≠ 0) :
    lengthCheck cap len minOne granule sector = some (errLength .lengthNotMultiple) := by
  have h0 : ¬ (minOne = true ∧ len = 0) := by
    rintro ⟨_, rfl⟩
    exact hg (Nat.zero_mod granule)
  unfold lengthCheck
  rw [if_neg (by omega), if_neg h0, if_pos hg]

theorem lengthCheck_notSector {n : Nat} (h : len ≤ cap) (h0 : len ≠ 0) (hg : len % granule = 0) (hn : len ≠ n) :
    lengthCheck cap len minOne granule (some n) = some (errLength .lengthNotSector) := by
  simp [lengthCheck, h0, hg, hn, Nat.not_lt.2 h]

end

/-! ## The report each command makes of a failed check -/

section
variable {s : State} {mode : Mode} {k : KeySel} {e : CmdError} {w : Word}

theorem onlyReports_crypt (h : cryptChecks s.cfg.bufBytes mode s.operands = .error e) (hw : errorWord 0x04 e = w) :
    onlyReports (.crypt mode) s w :=
  onlyReports_of_reject _ s e w (by simp only [exec, execCrypt, h]; rfl) hw

theorem onlyReports_ecb (h : ecbChecks mode s.operands = .error e) (hw : errorWord 0x05 e = w) :
    onlyReports (.ecb mode k) s w :=
  onlyReports_of_reject _ s e w (by simp only [exec, execEcb, h]; rfl) hw

theorem onlyReports_cbc (h : cbcChecks s.cfg.bufBytes mode s.operands = .error e) (hw : errorWord 0x06 e = w) :
    onlyReports (.cbc mode k) s w :=
  onlyReports_of_reject _ s e w (by simp only [exec, execCbc, h]; rfl) hw

theorem onlyReports_diffa (h : diffuserChecks s.cfg.bufBytes mode s.operands = .error e) (hw : errorWord 0x07 e = w) :
    onlyReports (.diffa mode) s w :=
  onlyReports_of_reject _ s e w (by simp only [exec, execDiffa, diffuserCommand, h]; rfl) hw

theorem onlyReports_diffb (h : diffuserChecks s.cfg.bufBytes mode s.operands = .error e) (hw : errorWord 0x08 e = w) :
    onlyReports (.diffb mode) s w :=
  onlyReports_of_reject _ s e w (by simp only [exec, execDiffb, diffuserCommand, h]; rfl) hw

theorem onlyReports_hash8 (h : lengthCheck s.cfg.bufBytes s.operands.length.toNat true 1 none = some e)
    (hw : errorWord 0x09 e = w) : onlyReports .hash8 s w :=
  onlyReports_of_reject _ s e w (by simp only [exec, execHash8, h]; rfl) hw

theorem onlyReports_hash16 (h : lengthCheck s.cfg.bufBytes s.operands.length.toNat true 2 none = some e)
    (hw : errorWord 0x0A e = w) : onlyReports .hash16 s w :=
  onlyReports_of_reject _ s e w (by simp only [exec, execHash16, h]; rfl) hw

end

/-! ## The context, the method and the mode -/

/-- Settles O27: the context is checked before the length and the keys. -/
theorem contextErrorsAreReported : Obligations.ContextErrorsAreReported := by
  intro s m mode k hd
  obtain ⟨d, hdir⟩ := directionOf_of_defined hd
  refine ⟨fun hv => ?_, fun hv => ?_⟩
  · exact onlyReports_of_reject _ s errContextAlreadyValid _ (by simp only [exec, execInit, hv, if_true]; rfl)
      (show errorWord 0x01 errContextAlreadyValid = _ by decide)
  · have hecb := ecbChecks_of_absent hdir hv
    have hnot : ¬ s.operands.ctx.valid = true := Bool.eq_false_iff.1 hv
    exact ⟨onlyReports_of_reject _ s errNoContext _ (by simp only [exec, execFree, if_neg hnot]; rfl) (by decide),
      onlyReports_of_reject _ s errNoContext _ (by simp only [exec, execSetkeys, if_neg hnot]; rfl) (by decide),
      onlyReports_crypt (cryptChecks_of_ecb_error _ hecb) (by decide), onlyReports_ecb hecb (by decide),
      onlyReports_cbc (cbcChecks_of_ecb_error _ hecb) (by decide)⟩

theorem classify_unsupported {m : BitVec 16} (h0 : m ≠ 0x8000) (h1 : m ≠ 0x8001) (h2 : m ≠ 0x8002) (h3 : m ≠ 0x8003) :
    classify m = none := by
  simp only [classify, if_neg h0, if_neg h1, if_neg h2, if_neg h3]

/-- Settles O28: CRYPT checks the method before the length, and SETKEYS has no class to make keys for. -/
theorem unsupportedMethodIsReported : Obligations.UnsupportedMethodIsReported := by
  intro s mode hd hv h0 h1 h2 h3
  obtain ⟨d, hdir⟩ := directionOf_of_defined hd
  have hcls := classify_unsupported h0 h1 h2 h3
  exact ⟨onlyReports_of_reject _ s errInvalidKeySize _
      (by simp only [exec, execSetkeys, if_pos hv, hcls, Option.bind_none]; rfl) (by decide),
    onlyReports_crypt (cryptChecks_of_unsupported _ (ecbChecks_of_valid hdir hv) hcls) (by decide)⟩

/-- Settles O29: MODE is the first check of the five commands. -/
theorem unsupportedModeIsReported : Obligations.UnsupportedModeIsReported := by
  intro s mode k hmode
  have hnone : directionOf mode = none := by rcases hmode with rfl | rfl <;> rfl
  have hecb := ecbChecks_of_reserved s.operands hnone
  have hdiff : diffuserChecks s.cfg.bufBytes mode s.operands = .error errUnsupportedMode := by
    simp only [diffuserChecks, hnone]
  exact ⟨onlyReports_crypt (cryptChecks_of_ecb_error _ hecb) (by decide), onlyReports_ecb hecb (by decide),
    onlyReports_cbc (cbcChecks_of_ecb_error _ hecb) (by decide), onlyReports_diffa hdiff (by decide),
    onlyReports_diffb hdiff (by decide)⟩

/-! ## The length -/

/-- A supported method has a class; the Diffuser methods' class compares LENGTH with SECTOR_SIZE (R301). -/
theorem classify_supported {m : BitVec 16} (h : m = 0x8000 ∨ m = 0x8001 ∨ m = 0x8002 ∨ m = 0x8003) :
    ∃ cls, classify m = some cls ∧ (m = 0x8000 ∨ m = 0x8001 → cls.usesDiffuser = true) := by
  rcases h with rfl | rfl | rfl | rfl
  · exact ⟨_, rfl, fun _ => rfl⟩
  · exact ⟨_, rfl, fun _ => rfl⟩
  · exact ⟨_, rfl, fun h => absurd h (by decide)⟩
  · exact ⟨_, rfl, fun h => absurd h (by decide)⟩

/-- Settles O30: MODE is defined and the context and the method are given, so the first length check that fails is
the report. -/
theorem lengthErrorsInOrder : Obligations.LengthErrorsInOrder := by
  intro s mode k hd n cap supported diffuser
  obtain ⟨d, hdir⟩ := directionOf_of_defined hd
  have hdiff {e : CmdError} (h : lengthCheck cap n true 16 none = some e) :
      diffuserChecks s.cfg.bufBytes mode s.operands = .error e := diffuserChecks_of_length_error hdir h
  have hcbc {e : CmdError} (h : lengthCheck cap n false 16 none = some e) (hv : s.operands.ctx.valid = true) :
      cbcChecks s.cfg.bufBytes mode s.operands = .error e := cbcChecks_of_length_error (ecbChecks_of_valid hdir hv) h
  have hcrypt {e : CmdError} (hs : supported)
      (h : ∀ cls, classify s.operands.ctx.method = some cls →
        lengthCheck cap n true 16 (sectorOperand cls s.operands) = some e) :
      cryptChecks s.cfg.bufBytes mode s.operands = .error e := by
    obtain ⟨hv, hm⟩ := hs
    obtain ⟨cls, hcls, _⟩ := classify_supported hm
    exact cryptChecks_of_length_error (ecbChecks_of_valid hdir hv) hcls (h cls hcls)
  refine ⟨fun hlarge => ?tooLarge, fun hzero => ?zero, fun hle hmod => ?notMultiple,
    fun hle h0 hmod hs hdm hsector => ?notSector⟩
  case tooLarge =>
    have hlen (b : Bool) (g : Nat) (x : Option Nat) := lengthCheck_tooLarge cap n b g x hlarge
    exact ⟨onlyReports_diffa (hdiff (hlen ..)) (by decide), onlyReports_diffb (hdiff (hlen ..)) (by decide),
      onlyReports_hash8 (hlen ..) (by decide), onlyReports_hash16 (hlen ..) (by decide),
      fun hv => onlyReports_cbc (hcbc (hlen ..) hv) (by decide),
      fun hs => onlyReports_crypt (hcrypt hs fun _ _ => hlen ..) (by decide)⟩
  case zero =>
    have hlen (g : Nat) (x : Option Nat) : lengthCheck cap n true g x = some (errLength .lengthZero) := by
      rw [hzero]
      exact lengthCheck_zero cap g x
    exact ⟨onlyReports_diffa (hdiff (hlen ..)) (by decide), onlyReports_diffb (hdiff (hlen ..)) (by decide),
      onlyReports_hash8 (hlen ..) (by decide), onlyReports_hash16 (hlen ..) (by decide),
      fun hs => onlyReports_crypt (hcrypt hs fun _ _ => hlen ..) (by decide)⟩
  case notMultiple =>
    have hlen (b : Bool) (x : Option Nat) := lengthCheck_notMultiple cap n b 16 x hle hmod
    exact ⟨onlyReports_diffa (hdiff (hlen ..)) (by decide), onlyReports_diffb (hdiff (hlen ..)) (by decide),
      fun hodd => onlyReports_hash16 (lengthCheck_notMultiple cap n true 2 none hle hodd) (by decide),
      fun hv => onlyReports_cbc (hcbc (hlen ..) hv) (by decide),
      fun hs => onlyReports_crypt (hcrypt hs fun _ _ => hlen ..) (by decide)⟩
  case notSector =>
    refine onlyReports_crypt (hcrypt hs fun cls hcls => ?_) (by decide : errorWord 0x04 (errLength .lengthNotSector) = _)
    obtain ⟨cls', hcls', hdiffuser⟩ := classify_supported hs.2
    cases hcls.symm.trans hcls'
    rw [sectorOperand, if_pos (hdiffuser hdm)]
    exact lengthCheck_notSector cap n true 16 hle h0 hmod hsector

end Sys2Proof.Machine
end

section
/-! The commands that succeed, and the cipher failure: ECB and CBC (`40_aes.md` R170, R171, R346), DIFFA and DIFFB
(`41_diffuser.md` R210, R211), HASH8, HASH16 and CALCKEY (`42_kdf.md` R240 to R245). -/

namespace Sys2Proof.Machine

/-! ## Checks that pass -/

theorem cbcChecks_of_valid {mode : Mode} {d : Direction} {o : Snapshot} {cap : Nat} (h : directionOf mode = some d)
    (hv : o.ctx.valid = true) (hcap : o.length.toNat ≤ cap) (h16 : o.length.toNat % 16 = 0) :
    cbcChecks cap mode o = .ok d := by
  have hl : lengthCheck cap o.length.toNat false 16 none = none :=
    (lengthCheck_eq_none ..).2 ⟨hcap, by simp, h16, by simp⟩
  simp [cbcChecks, ecbChecks_of_valid h hv, hl]

theorem diffuserChecks_of_length {mode : Mode} {d : Direction} {o : Snapshot} {cap : Nat} (h : directionOf mode = some d)
    (hcap : o.length.toNat ≤ cap) (h0 : o.length.toNat ≠ 0) (h16 : o.length.toNat % 16 = 0) :
    diffuserChecks cap mode o = .ok d := by
  have hl : lengthCheck cap o.length.toNat true 16 none = none :=
    (lengthCheck_eq_none ..).2 ⟨hcap, fun _ => h0, h16, by simp⟩
  simp [diffuserChecks, h, hl]

/-! ## ECB -/

section
variable {s : State} {mode : Mode} {k : KeySel} {d : Direction} {S : SubId}

theorem exec_ecb (h : directionOf mode = some d) (hv : s.operands.ctx.valid = true) :
    exec (.ecb mode k) s = transformBuffer s (.ecb mode k) 16 (ecbBytes s.operands.ctx (selectSub k d)) := by
  simp only [exec, execEcb, ecbChecks_of_valid h hv]

/-- ECB with the selected sub-context Keyed (R170). -/
theorem onlyWritesObuf_ecb {key : AesKey} {x : Block} (h : directionOf mode = some d) (hS : selectSub k d = S)
    (hv : s.operands.ctx.valid = true) (hx : ibufHolds s.operands x.toList) (hk : s.operands.ctx.sub S = .keyed key) :
    onlyWritesObuf (.ecb mode k) s (blockTransform S key x).toList s.hidden := by
  refine onlyWritesObuf_of_transform _ s 16 _ s.hidden x.toList _ (exec_ecb h hv) hx (by simp) ?_
  simp [ecbBytes, ecb, hS, hk, regOfBytes_toList]

/-- ECB with the selected sub-context Unset (R164, R346). -/
theorem onlyReportsAndForgets_ecb {x : List Byte} {w : Word} (h : directionOf mode = some d) (hS : selectSub k d = S)
    (hv : s.operands.ctx.valid = true) (hx : ibufHolds s.operands x) (hl : x.length = 16)
    (hk : s.operands.ctx.sub S = .unset) (hw : errorWord 0x05 (errKeyNotSet S) = w) :
    onlyReportsAndForgets (.ecb mode k) s w 16 s.hidden := by
  refine onlyReportsAndForgets_of_transform _ s 16 _ s.hidden x _ w (exec_ecb h hv) hx hl.symm ?_ hw
  simp [ecbBytes, ecb, hS, hk]

end

/-- Settles O31: each selection is ECB with its sub-context. -/
theorem ecbTransformsOneBlock : Obligations.EcbTransformsOneBlock := fun _ _ _ hv hx =>
  ⟨fun hk => onlyWritesObuf_ecb (S := .fvekEnc) rfl rfl hv hx hk, fun hk => onlyWritesObuf_ecb (S := .fvekDec) rfl rfl hv hx hk,
    fun hk => onlyWritesObuf_ecb (S := .tweakEnc) rfl rfl hv hx hk,
    fun hk => onlyWritesObuf_ecb (S := .tweakDec) rfl rfl hv hx hk⟩

/-! ## CBC -/

section
variable {s : State} {mode : Mode} {k : KeySel} {d : Direction} {S : SubId} {x : List Byte}

theorem exec_cbc (h : directionOf mode = some d) (hv : s.operands.ctx.valid = true)
    (hl : s.operands.length.toNat = x.length) (hcap : x.length ≤ s.cfg.bufBytes) (h16 : x.length % 16 = 0) :
    exec (.cbc mode k) s =
      transformBuffer s (.cbc mode k) x.length (cbcBytes s.operands.ctx k d s.operands.iv) := by
  have hchecks : cbcChecks s.cfg.bufBytes mode s.operands = .ok d :=
    cbcChecks_of_valid h hv (by omega) (by omega)
  simp only [exec, execCbc, hchecks, hl]

/-- CBC with the selected sub-context Keyed (R171). -/
theorem onlyWritesObuf_cbc {y : List Byte} (h : directionOf mode = some d) (hv : s.operands.ctx.valid = true)
    (hx : ibufHolds s.operands x) (hl : s.operands.length.toNat = x.length) (hcap : x.length ≤ s.cfg.bufBytes)
    (h16 : x.length % 16 = 0) (hy : cbcBytes s.operands.ctx k d s.operands.iv x = .ok y) :
    onlyWritesObuf (.cbc mode k) s y s.hidden :=
  onlyWritesObuf_of_transform _ s x.length _ s.hidden x y (exec_cbc h hv hl hcap h16) hx rfl hy

/-- CBC with the selected sub-context Unset (R164, R346). -/
theorem onlyReportsAndForgets_cbc {w : Word} (h : directionOf mode = some d) (hS : selectSub k d = S)
    (hv : s.operands.ctx.valid = true) (hx : ibufHolds s.operands x) (hl : s.operands.length.toNat = x.length)
    (hcap : x.length ≤ s.cfg.bufBytes) (h16 : x.length % 16 = 0) (hk : s.operands.ctx.sub S = .unset)
    (hw : errorWord 0x06 (errKeyNotSet S) = w) : onlyReportsAndForgets (.cbc mode k) s w x.length s.hidden := by
  refine onlyReportsAndForgets_of_transform _ s x.length _ s.hidden x (errKeyNotSet S) w (exec_cbc h hv hl hcap h16) hx rfl
    ?_ hw
  subst hS
  cases d with
  | encrypt => exact cbcEnc_unset _ _ _ _ hk
  | decrypt => exact cbcDec_unset _ _ _ _ hk

end

/-- Settles O32: both selections of a direction chain the same block transform. -/
theorem cbcChainsBlocks : Obligations.CbcChainsBlocks := by
  intro s key x hv hx hl hcap h16
  exact ⟨⟨_, isCbcEncryption_chain (cipher key) s.operands.iv x h16,
      fun hk => onlyWritesObuf_cbc rfl hv hx hl hcap h16 (cbcEnc_keyed _ .fvekEnc _ _ key hk),
      fun hk => onlyWritesObuf_cbc rfl hv hx hl hcap h16 (cbcEnc_keyed _ .tweakEnc _ _ key hk)⟩,
    ⟨_, isCbcDecryption_chain (invCipher key) s.operands.iv x h16,
      fun hk => onlyWritesObuf_cbc rfl hv hx hl hcap h16 (cbcDec_keyed _ .fvekDec _ _ key hk),
      fun hk => onlyWritesObuf_cbc rfl hv hx hl hcap h16 (cbcDec_keyed _ .tweakDec _ _ key hk)⟩⟩

/-- Settles O33: the report names the sub-context that MODE and KSEL select. -/
theorem unsetSubcontextFails : Obligations.UnsetSubcontextFails := by
  intro s hv
  refine ⟨fun x hx hl => ⟨fun hk => ?_, fun hk => ?_, fun hk => ?_, fun hk => ?_⟩,
    fun y hy hl hcap h16 => ⟨fun hk => ?_, fun hk => ?_, fun hk => ?_, fun hk => ?_⟩⟩
  · exact onlyReportsAndForgets_ecb (S := .fvekEnc) rfl rfl hv hx hl hk (by decide)
  · exact onlyReportsAndForgets_ecb (S := .fvekDec) rfl rfl hv hx hl hk (by decide)
  · exact onlyReportsAndForgets_ecb (S := .tweakEnc) rfl rfl hv hx hl hk (by decide)
  · exact onlyReportsAndForgets_ecb (S := .tweakDec) rfl rfl hv hx hl hk (by decide)
  · exact onlyReportsAndForgets_cbc (S := .fvekEnc) rfl rfl hv hy hl hcap h16 hk (by decide)
  · exact onlyReportsAndForgets_cbc (S := .fvekDec) rfl rfl hv hy hl hcap h16 hk (by decide)
  · exact onlyReportsAndForgets_cbc (S := .tweakEnc) rfl rfl hv hy hl hcap h16 hk (by decide)
  · exact onlyReportsAndForgets_cbc (S := .tweakDec) rfl rfl hv hy hl hcap h16 hk (by decide)

/-! ## DIFFA and DIFFB -/

section
variable {s : State} {mode : Mode} {d : Direction} {x : List Byte}

theorem onlyWritesObuf_diffa (h : directionOf mode = some d) (hx : ibufHolds s.operands x)
    (hl : s.operands.length.toNat = x.length) (hcap : x.length ≤ s.cfg.bufBytes) (h0 : x.length ≠ 0)
    (h16 : x.length % 16 = 0) : onlyWritesObuf (.diffa mode) s (diffA d x) s.hidden := by
  rw [← hl] at hcap h0 h16
  refine onlyWritesObuf_of_transform _ s _ (fun x => .ok (diffA d x)) s.hidden x _ ?_ hx hl rfl
  simp only [exec, execDiffa, diffuserCommand, diffuserChecks_of_length h hcap h0 h16]

theorem onlyWritesObuf_diffb (h : directionOf mode = some d) (hx : ibufHolds s.operands x)
    (hl : s.operands.length.toNat = x.length) (hcap : x.length ≤ s.cfg.bufBytes) (h0 : x.length ≠ 0)
    (h16 : x.length % 16 = 0) : onlyWritesObuf (.diffb mode) s (diffB d x) s.hidden := by
  rw [← hl] at hcap h0 h16
  refine onlyWritesObuf_of_transform _ s _ (fun x => .ok (diffB d x)) s.hidden x _ ?_ hx hl rfl
  simp only [exec, execDiffb, diffuserCommand, diffuserChecks_of_length h hcap h0 h16]

end

/-- Settles O34: neither command looks at the context, and each transform keeps the length. -/
theorem diffuserCommandsTransformBuffer : Obligations.DiffuserCommandsTransformBuffer := fun _ x hx hl hcap h0 h16 =>
  ⟨onlyWritesObuf_diffa (d := .encrypt) rfl hx hl hcap h0 h16, onlyWritesObuf_diffa (d := .decrypt) rfl hx hl hcap h0 h16,
    onlyWritesObuf_diffb (d := .encrypt) rfl hx hl hcap h0 h16, onlyWritesObuf_diffb (d := .decrypt) rfl hx hl hcap h0 h16,
    diffAEnc_length x h16, diffADec_length x h16, diffBEnc_length x h16, diffBDec_length x h16⟩

/-! ## HASH8 and HASH16 -/

/-- A hash command's length check passes when LENGTH is a multiple of its code unit (R131). -/
theorem lengthCheck_hash {cap len granule : Nat} (hcap : len ≤ cap) (h0 : len ≠ 0) (hg : len % granule = 0) :
    lengthCheck cap len true granule none = none :=
  (lengthCheck_eq_none ..).2 ⟨hcap, fun _ => h0, hg, by simp⟩

/-- What a hash command that succeeds leaves: PWHASH, and its completion. -/
theorem pwhash_frame (s : State) (p : ByteReg 32) :
    let t := State.succeed { s with pwhash := p }
    finished s t ∧ t.pwhash = p ∧ sameHostRegisters s t ∧ t.ctx = s.ctx ∧ sameStaging s t ∧ t.dkey = s.dkey ∧
      t.hidden = s.hidden ∧ sameBytes s t := by
  simp [finished, sameHostRegisters, sameStaging, sameBytes]

/-- Settles O38: with a legal length and known input the hash commands hash what they read. -/
theorem hashCommandsWritePwhash : Obligations.HashCommandsWritePwhash := by
  intro s x hx hl hcap h0
  have hread : s.readIbuf s.operands.length.toNat = some x := by
    rw [hl]
    exact s.readIbuf_of_ibufHolds x hx
  have hlen8 : lengthCheck s.cfg.bufBytes s.operands.length.toNat true 1 none = none :=
    lengthCheck_hash (by omega) (by omega) (Nat.mod_one _)
  refine ⟨fun h2 => ⟨_, ?_, pwhash_frame s (pwHash x)⟩, fun u hu => ⟨_, ?_, pwhash_frame s (pwHash u)⟩, fun hu => ?_⟩
  · have hlen16 : lengthCheck s.cfg.bufBytes s.operands.length.toNat true 2 none = none :=
      lengthCheck_hash (by omega) (by omega) (by omega)
    simp only [exec, execHash16, hlen16, withInput_some s _ _ x hread]
  · simp only [exec, execHash8, hlen8, withInput_some s _ _ x hread, hu]
  · refine onlyReports_of_reject _ s errBadUtf8 _ ?_ (by decide)
    simp only [exec, execHash8, hlen8, withInput_some s _ _ x hread, hu]
    rfl

/-! ## CALCKEY -/

/-- The running hash before round `c` (R239, R243). -/
def runningHash (cfg : Params) (pwh : ByteReg 32) (salt : ByteReg 16) (c : Nat) : KdfRecord :=
  Nat.repeat (kdfRound cfg.kdfLayout) c (kdfStart cfg.kdfLayout pwh salt)

theorem runningHash_step (cfg : Params) (pwh : ByteReg 32) (salt : ByteReg 16) (c : Nat) :
    runningHash cfg pwh salt (c + 1) = kdfRound cfg.kdfLayout (runningHash cfg pwh salt c) := by
  rw [runningHash, Nat.repeat, runningHash]

/-- The record keeps the password hash and the salt, and counts the rounds (R246). -/
theorem runningHash_fields (cfg : Params) (pwh : ByteReg 32) (salt : ByteReg 16) (c : Nat) :
    (runningHash cfg pwh salt c).pwh = pwh ∧ (runningHash cfg pwh salt c).salt = salt ∧
    (runningHash cfg pwh salt c).counter = BitVec.ofNat 64 c := by
  induction c with
  | zero => exact ⟨kdfStart_pwh .., kdfStart_salt .., kdfStart_counter ..⟩
  | succ c ih =>
    obtain ⟨hpwh, hsalt, hcounter⟩ := ih
    rw [runningHash_step, kdfRound_pwh, kdfRound_salt, kdfRound_counter, hcounter, BitVec.ofNat_add]
    exact ⟨hpwh, hsalt, rfl⟩

/-- Each round hashes its layout's message with the round's number (R239, R243). -/
theorem runningHash_last_succ (cfg : Params) (pwh : ByteReg 32) (salt : ByteReg 16) (c : Nat) :
    (runningHash cfg pwh salt (c + 1)).last =
      sha256 (roundMessage cfg.kdfLayout (runningHash cfg pwh salt c).last pwh salt c) := by
  obtain ⟨hpwh, hsalt, hcounter⟩ := runningHash_fields cfg pwh salt c
  rw [runningHash_step, kdfRound_last]
  cases cfg.kdfLayout <;> simp only [kdfMessage, roundMessage, hpwh, hsalt, hcounter]

/-- Settles O41: the key stretch is the run of the running hash. -/
theorem calckeyStretchesKey : Obligations.CalckeyStretchesKey := by
  intro s
  refine ⟨_, fun c => (runningHash s.cfg s.operands.pwhash s.operands.salt c).last, fun hl => ?_, fun hl => ?_,
    fun c _ => runningHash_last_succ _ _ _ c, rfl, ?_, rfl, ?_, rfl, ?_, rfl, rfl, fun _ => rfl⟩
  · simp only [runningHash, Nat.repeat, hl, kdfStart_last_bde88]
  · simp only [runningHash, Nat.repeat, hl, kdfStart_last_doc56]
  · simp [finished]
  · simp [sameHostRegisters]
  · simp [sameStaging]

end Sys2Proof.Machine
end

section
/-! The diffusers (`41_diffuser.md`): one pass word by word, the word view of a buffer, and the laws R207 and R208. -/

namespace Sys2Proof.Machine

/-! ## Updates of one word -/

/-- A pass's update: word `i` moves by `op` of the term at `i`. `addAt` and `subAt` are the two of them. -/
def moveAt (op : Word → Word → Word) (term : List Word → Nat → Word) (d : List Word) (i : Nat) : List Word :=
  d.set i (op (d.getD i 0) (term d i))

theorem addAt_eq_moveAt (term : List Word → Nat → Word) : addAt term = moveAt (· + ·) term := rfl

theorem subAt_eq_moveAt (term : List Word → Nat → Word) : subAt term = moveAt (· - ·) term := rfl

section
variable (op : Word → Word → Word) (term : List Word → Nat → Word)

@[simp] theorem moveAt_length (d : List Word) (i : Nat) : (moveAt op term d i).length = d.length := by simp [moveAt]

theorem moveAt_getD_same {d : List Word} {i : Nat} (h : i < d.length) :
    (moveAt op term d i).getD i 0 = op (d.getD i 0) (term d i) := by
  simp [moveAt, h]

theorem moveAt_getD_other {d : List Word} {i k : Nat} (h : k ≠ i) : (moveAt op term d i).getD k 0 = d.getD k 0 := by
  simp [moveAt, List.getElem?_set_ne (Ne.symm h)]

@[simp] theorem foldl_moveAt_length (l : List Nat) (d : List Word) : (l.foldl (moveAt op term) d).length = d.length := by
  induction l generalizing d with
  | nil => rfl
  | cons i l ih => simp [ih]

/-- A pass over positions leaves the other positions' words. -/
theorem foldl_moveAt_getD_other (l : List Nat) (d : List Word) {k : Nat} (h : k ∉ l) :
    (l.foldl (moveAt op term) d).getD k 0 = d.getD k 0 := by
  induction l generalizing d with
  | nil => rfl
  | cons i l ih =>
    rw [List.mem_cons, not_or] at h
    obtain ⟨hki, hkl⟩ := h
    rw [List.foldl_cons, ih _ hkl, moveAt_getD_other _ _ hki]

/-- A pass that visits each position once: position `i` moves by the term over the words as the positions visited before
it left them, which is as the whole pass leaves them. -/
theorem foldl_moveAt_getD {pre post : List Nat} {i : Nat} {d : List Word} (hnodup : (pre ++ i :: post).Nodup)
    (hi : i < d.length) :
    ((pre ++ i :: post).foldl (moveAt op term) d).getD i 0 = op (d.getD i 0) (term (pre.foldl (moveAt op term) d) i) ∧
    ∀ k, (pre.foldl (moveAt op term) d).getD k 0 =
      if k ∈ pre then ((pre ++ i :: post).foldl (moveAt op term) d).getD k 0 else d.getD k 0 := by
  rw [List.nodup_append] at hnodup
  obtain ⟨_, hpost, hdisjoint⟩ := hnodup
  have hipost : i ∉ post := (List.nodup_cons.1 hpost).1
  have hipre : i ∉ pre := fun h => hdisjoint i h i (List.mem_cons_self ..) rfl
  simp only [List.foldl_append, List.foldl_cons]
  refine ⟨?_, fun k => ?_⟩
  · rw [foldl_moveAt_getD_other _ _ _ _ hipost, moveAt_getD_same _ _ (by simpa using hi),
      foldl_moveAt_getD_other _ _ _ _ hipre]
  · split
    · next hk =>
      have hki : k ≠ i := fun h => hipre (h ▸ hk)
      have hkpost : k ∉ post := fun h => hdisjoint k hk k (List.mem_cons_of_mem _ h) rfl
      rw [foldl_moveAt_getD_other _ _ _ _ hkpost, moveAt_getD_other _ _ hki]
    · next hk => rw [foldl_moveAt_getD_other _ _ _ _ hk]

end

/-! ## One pass -/

/-- The terms of both diffusers: one neighbour's word XORed with another's, rotated (R203, R205). -/
def neighbourTerm (p q : Nat → Nat) (rot : Nat → Nat) (d : List Word) (i : Nat) : Word :=
  d.getD (p i) 0 ^^^ (d.getD (q i) 0).rotateLeft (rot i)

theorem termA_eq (n : Nat) : termA n = neighbourTerm (fun i => (i + 2 * n - 2) % n) (fun i => (i + 2 * n - 5) % n) rotA := rfl

theorem termB_eq (n : Nat) : termB n = neighbourTerm (fun i => (i + 2) % n) (fun i => (i + 5) % n) rotB := rfl

/-- The positions below `n`, cut at one of them. -/
theorem range_eq_append_cons {n i : Nat} (h : i < n) :
    List.range n = List.range i ++ i :: (List.range (n - (i + 1))).map (i + 1 + ·) := by
  obtain ⟨m, rfl⟩ : ∃ m, n = i + 1 + m := ⟨n - (i + 1), by omega⟩
  rw [List.range_add, List.range_succ, List.append_assoc, List.singleton_append, Nat.add_sub_cancel_left]

section
variable {n i : Nat} {d : List Word} (p q rot : Nat → Nat) (hd : d.length = n) (hi : i < n)
include hd hi

/-- One pass of a decrypt direction, word by word: a neighbour below `i` is read as the pass leaves it (R203, R205). -/
theorem passUp_getD :
    let out := passUp (neighbourTerm p q rot) n d
    let up (k : Nat) : Word := if k < i then out.getD k 0 else d.getD k 0
    out.getD i 0 = d.getD i 0 + (up (p i) ^^^ (up (q i)).rotateLeft (rot i)) := by
  have hnodup : (List.range n).Nodup := List.nodup_range
  have hout : passUp (neighbourTerm p q rot) n d = (List.range n).foldl (moveAt (· + ·) (neighbourTerm p q rot)) d := rfl
  rw [range_eq_append_cons hi] at hnodup hout
  obtain ⟨hmove, hread⟩ := foldl_moveAt_getD (· + ·) (neighbourTerm p q rot) hnodup (hd ▸ hi)
  rw [← hout] at hmove hread
  simp only [List.mem_range] at hread
  simp only [hmove, neighbourTerm, hread]

/-- One pass of an encrypt direction, word by word: a neighbour above `i` is read as the pass leaves it (R204, R206). -/
theorem passDown_getD (hp : p i < n) (hq : q i < n) :
    let out := passDown (neighbourTerm p q rot) n d
    let down (k : Nat) : Word := if i < k then out.getD k 0 else d.getD k 0
    out.getD i 0 = d.getD i 0 - (down (p i) ^^^ (down (q i)).rotateLeft (rot i)) := by
  have hnodup : (List.range n).reverse.Nodup := List.nodup_reverse.2 List.nodup_range
  have hout : passDown (neighbourTerm p q rot) n d =
      (List.range n).reverse.foldl (moveAt (· - ·) (neighbourTerm p q rot)) d := rfl
  rw [range_eq_append_cons hi, List.reverse_append, List.reverse_cons, List.append_assoc, List.singleton_append] at hnodup hout
  obtain ⟨hmove, hread⟩ := foldl_moveAt_getD (· - ·) (neighbourTerm p q rot) hnodup (hd ▸ hi)
  have habove (k : Nat) (hk : k < n) : k ∈ ((List.range (n - (i + 1))).map (i + 1 + ·)).reverse ↔ i < k := by
    simp only [List.mem_reverse, List.mem_map, List.mem_range]
    exact ⟨fun ⟨a, _, ha⟩ => by omega, fun h => ⟨k - (i + 1), by omega, by omega⟩⟩
  rw [← hout] at hmove hread
  simp only [hmove, neighbourTerm, hread, habove _ hp, habove _ hq]

end

/-! ## Words and bytes -/

@[simp] theorem encLE32_le32 (b0 b1 b2 b3 : Byte) : encLE32 (le32 b0 b1 b2 b3) = [b0, b1, b2, b3] := by
  have hlane (k : Nat) (hk : k < 4) := le32_lane (fun i => [b0, b1, b2, b3].getD i 0#8) hk
  simp only [encLE32, byteOf_eq]
  exact congr (congrArg _ (hlane 0 (by decide))) (congr (congrArg _ (hlane 1 (by decide)))
    (congr (congrArg _ (hlane 2 (by decide))) (congrArg (· :: []) (hlane 3 (by decide)))))

/-- Reading the words back that were written (R201). -/
theorem leWords_flatMap_encLE32 (ws : List Word) : leWords ws.length (ws.flatMap encLE32) = ws := by
  induction ws with
  | nil => rfl
  | cons w ws ih =>
    have hdrop : (encLE32 w ++ ws.flatMap encLE32).drop 4 = ws.flatMap encLE32 := rfl
    rw [List.flatMap_cons, List.length_cons, leWords, hdrop, ih]
    exact congrArg (· :: ws) (le32_byteOf w)

/-- Writing the words back that were read (R201). -/
theorem flatMap_encLE32_leWords (n : Nat) (x : List Byte) (h : x.length = 4 * n) : (leWords n x).flatMap encLE32 = x := by
  induction n generalizing x with
  | zero => exact (List.length_eq_zero_iff.1 (by omega)).symm
  | succ n ih =>
    match x, h with
    | b0 :: b1 :: b2 :: b3 :: r, h =>
      have hr : r.length = 4 * n := by simp only [List.length_cons] at h; omega
      simp [leWords, ih r hr]

/-- Byte `k` of the string of words is byte k mod 4 of word k / 4 (R201). -/
theorem flatMap_encLE32_getD (d : List Word) {k : Nat} (h : k < 4 * d.length) :
    (d.flatMap encLE32).getD k 0#8 = ((d.getD (k / 4) 0) >>> (8 * (k % 4))).setWidth 8 := by
  induction d generalizing k with
  | nil => simp at h
  | cons w d ih =>
    rw [List.length_cons] at h
    rcases Nat.lt_or_ge k 4 with hk | hk
    · have hlane : (encLE32 w).getD k 0#8 = byteOf w k := by
        have : k = 0 ∨ k = 1 ∨ k = 2 ∨ k = 3 := by omega
        rcases this with rfl | rfl | rfl | rfl <;> rfl
      rw [List.flatMap_cons, List.getD_append _ _ _ _ (by simpa using hk), hlane, byteOf_eq, Nat.div_eq_of_lt hk,
        Nat.mod_eq_of_lt hk]
      rfl
    · obtain ⟨j, rfl⟩ : ∃ j, k = j + 4 := ⟨k - 4, by omega⟩
      have hdiv : (j + 4) / 4 = j / 4 + 1 := by omega
      have hmod : (j + 4) % 4 = j % 4 := by omega
      rw [List.flatMap_cons, List.getD_append_right _ _ _ _ (by simp), encLE32_length, Nat.add_sub_cancel, ih (by omega),
        hdiv, hmod, List.getD_cons_succ]

/-- The word view of a buffer is the words whose string it is (R201). -/
theorem isWordsOf_iff (x : List Byte) (d : List Word) : isWordsOf x d ↔ x = d.flatMap encLE32 := by
  constructor
  · rintro ⟨hlen, hbyte⟩
    refine List.ext_getElem (by rw [flatMap_encLE32_length, hlen]) fun k h1 h2 => ?_
    have hk := (hbyte k h1).trans (flatMap_encLE32_getD d (by omega)).symm
    rwa [List.getD_eq_getElem _ _ h1, List.getD_eq_getElem _ _ h2] at hk
  · rintro rfl
    exact ⟨flatMap_encLE32_length d, fun k hk => flatMap_encLE32_getD d (by rwa [flatMap_encLE32_length] at hk)⟩

/-- A transform of a buffer is a transform of its words (R201). -/
theorem onWords_flatMap (f : Nat → List Word → List Word) (d : List Word) :
    onWords f (d.flatMap encLE32) = (f d.length d).flatMap encLE32 := by
  have hlen : (d.flatMap encLE32).length / 4 = d.length := by
    rw [flatMap_encLE32_length]
    omega
  rw [onWords, hlen, leWords_flatMap_encLE32]

/-- A buffer of whole blocks is the string of its words. -/
theorem exists_words {x : List Byte} (h : x.length % 16 = 0) (h16 : 16 ≤ x.length) :
    ∃ d : List Word, x = d.flatMap encLE32 ∧ 4 ≤ d.length ∧ d.length % 4 = 0 := by
  refine ⟨leWords (x.length / 4) x, (flatMap_encLE32_leWords _ x (by omega)).symm, ?_, ?_⟩ <;> rw [leWords_length] <;> omega

/-! ## R201 to R206 -/

theorem rotA_eq (i : Nat) : rotA i = if i % 4 = 0 then 9 else if i % 4 = 2 then 13 else 0 := by
  have : i % 4 = 0 ∨ i % 4 = 1 ∨ i % 4 = 2 ∨ i % 4 = 3 := by omega
  rcases this with h | h | h | h <;> simp [rotA, h]

theorem rotB_eq (i : Nat) : rotB i = if i % 4 = 1 then 10 else if i % 4 = 3 then 25 else 0 := by
  have : i % 4 = 0 ∨ i % 4 = 1 ∨ i % 4 = 2 ∨ i % 4 = 3 := by omega
  rcases this with h | h | h | h <;> simp [rotB, h]

/-- Settles O35: a pass moves each word by its term, and a transform is a number of passes over the words. -/
theorem diffuserWordRecurrence : Obligations.DiffuserWordRecurrence := by
  refine ⟨fun n d i hn h4 hd hi => ?pass, fun x d _ _ hx => ?transform⟩
  case pass =>
    have hpos : 0 < n := by omega
    have htwo : (i + n - 2) % n = (i + 2 * n - 2) % n := by
      rw [show i + 2 * n - 2 = i + n - 2 + n by omega, Nat.add_mod_right]
    dsimp only
    rw [htwo, ← rotA_eq, ← rotB_eq, termA_eq, termB_eq]
    exact ⟨passUp_getD _ _ _ hd hi, passDown_getD _ _ _ hd hi (Nat.mod_lt _ hpos) (Nat.mod_lt _ hpos),
      passUp_getD _ _ _ hd hi, passDown_getD _ _ _ hd hi (Nat.mod_lt _ hpos) (Nat.mod_lt _ hpos)⟩
  case transform =>
    obtain rfl := (isWordsOf_iff x d).1 hx
    simp only [isWordsOf_iff]
    exact ⟨onWords_flatMap _ d, onWords_flatMap _ d, onWords_flatMap _ d, onWords_flatMap _ d⟩

/-! ## The two directions undo each other (R207) -/

theorem repeat_succ_apply {α : Type} (f : α → α) (n : Nat) (a : α) : Nat.repeat f (n + 1) a = Nat.repeat f n (f a) := by
  induction n with
  | zero => rfl
  | succ n ih => exact congrArg f ih

/-- Repetitions undo each other on a set that the first map keeps and on which the second undoes it. -/
theorem repeat_repeat_cancel {α : Type} {f g : α → α} {P : α → Prop} (hkeep : ∀ a, P a → P (f a))
    (hcancel : ∀ a, P a → g (f a) = a) (n : Nat) {a : α} (ha : P a) : Nat.repeat g n (Nat.repeat f n a) = a := by
  induction n generalizing a with
  | zero => rfl
  | succ n ih => rw [repeat_succ_apply f, Nat.repeat, ih (hkeep a ha), hcancel a ha]

section
variable {op op' : Word → Word → Word} (p q rot : Nat → Nat)

/-- A term does not read the word it moves, so the opposite move takes the word back. -/
theorem moveAt_moveAt_cancel (hop : ∀ a t, op' (op a t) t = a) (d : List Word) {i : Nat} (hp : p i ≠ i) (hq : q i ≠ i) :
    moveAt op' (neighbourTerm p q rot) (moveAt op (neighbourTerm p q rot) d i) i = d := by
  have hterm : neighbourTerm p q rot (moveAt op (neighbourTerm p q rot) d i) i = neighbourTerm p q rot d i := by
    simp only [neighbourTerm, moveAt_getD_other _ _ hp, moveAt_getD_other _ _ hq]
  rcases Nat.lt_or_ge i d.length with hi | hi
  · rw [moveAt, hterm, moveAt_getD_same _ _ hi, hop, moveAt, List.set_set]
    simp [hi]
  · simp only [moveAt, List.set_eq_of_length_le hi]

/-- A pass over positions and the opposite pass over the reversed positions. -/
theorem foldl_moveAt_cancel (hop : ∀ a t, op' (op a t) t = a) (l : List Nat) (d : List Word) (hp : ∀ i ∈ l, p i ≠ i)
    (hq : ∀ i ∈ l, q i ≠ i) :
    l.reverse.foldl (moveAt op' (neighbourTerm p q rot)) (l.foldl (moveAt op (neighbourTerm p q rot)) d) = d := by
  induction l generalizing d with
  | nil => rfl
  | cons i l ih =>
    obtain ⟨hpi, hpl⟩ := List.forall_mem_cons.1 hp
    obtain ⟨hqi, hql⟩ := List.forall_mem_cons.1 hq
    rw [List.foldl_cons, List.reverse_cons, List.foldl_append, ih _ hpl hql, List.foldl_cons, List.foldl_nil,
      moveAt_moveAt_cancel p q rot hop d hpi hqi]

/-- The neighbours of a position below `n` are other positions. -/
def apart (n : Nat) : Prop := ∀ i, i < n → p i ≠ i ∧ q i ≠ i

theorem passDown_passUp {n : Nat} (h : apart p q n) (d : List Word) :
    passDown (neighbourTerm p q rot) n (passUp (neighbourTerm p q rot) n d) = d :=
  foldl_moveAt_cancel p q rot (op := (· + ·)) (op' := (· - ·)) (fun a t => BitVec.add_sub_cancel a t) (List.range n) d
    (fun i hi => (h i (List.mem_range.1 hi)).1) (fun i hi => (h i (List.mem_range.1 hi)).2)

theorem passUp_passDown {n : Nat} (h : apart p q n) (d : List Word) :
    passUp (neighbourTerm p q rot) n (passDown (neighbourTerm p q rot) n d) = d := by
  have hcancel := foldl_moveAt_cancel p q rot (op := (· - ·)) (op' := (· + ·)) (fun a t => BitVec.sub_add_cancel a t)
    (List.range n).reverse d (fun i hi => (h i (List.mem_range.1 (List.mem_reverse.1 hi))).1)
    (fun i hi => (h i (List.mem_range.1 (List.mem_reverse.1 hi))).2)
  rwa [List.reverse_reverse] at hcancel

end

/-- Turning by a distance that is no multiple of `n` moves every position. -/
theorem add_mod_ne {n i m : Nat} (hi : i < n) (hm : ¬ n ∣ m) : (i + m) % n ≠ i := by
  intro h
  have hmod : i ≡ i + m [MOD n] := by rw [Nat.ModEq, h, Nat.mod_eq_of_lt hi]
  rw [Nat.modEq_iff_dvd' (Nat.le_add_right i m), Nat.add_sub_cancel_left] at hmod
  exact hm hmod

/-- The distances 2 and 5 are no multiple of the number of words (R201). -/
theorem not_dvd_distances {n : Nat} (hn : 4 ≤ n) (h4 : n % 4 = 0) : ¬ n ∣ 2 ∧ ¬ n ∣ 5 := by
  refine ⟨fun h => ?_, fun h => ?_⟩
  · have := Nat.le_of_dvd (by decide) h
    omega
  · have hle := Nat.le_of_dvd (by decide) h
    obtain rfl : n = 4 := by omega
    exact absurd h (by decide)

theorem apart_termB {n : Nat} (hn : 4 ≤ n) (h4 : n % 4 = 0) :
    apart (fun i => (i + 2) % n) (fun i => (i + 5) % n) n := by
  obtain ⟨h2, h5⟩ := not_dvd_distances hn h4
  exact fun i hi => ⟨add_mod_ne hi h2, add_mod_ne hi h5⟩

theorem apart_termA {n : Nat} (hn : 4 ≤ n) (h4 : n % 4 = 0) :
    apart (fun i => (i + 2 * n - 2) % n) (fun i => (i + 2 * n - 5) % n) n := by
  obtain ⟨h2, h5⟩ := not_dvd_distances hn h4
  have hback {k : Nat} (hk : k ≤ 2 * n) (hnk : ¬ n ∣ k) : ¬ n ∣ 2 * n - k := fun h => by
    have hdvd := Nat.dvd_sub (Nat.dvd_mul_left n 2) h
    rw [Nat.sub_sub_self hk] at hdvd
    exact hnk hdvd
  refine fun i hi => ⟨?_, ?_⟩
  · show (i + 2 * n - 2) % n ≠ i
    rw [Nat.add_sub_assoc (by omega)]
    exact add_mod_ne hi (hback (by omega) h2)
  · show (i + 2 * n - 5) % n ≠ i
    rw [Nat.add_sub_assoc (by omega)]
    exact add_mod_ne hi (hback (by omega) h5)

/-- Two transforms of a buffer, by repeated passes that undo each other. -/
theorem onWords_repeat_cancel {f g : Nat → List Word → List Word} (c : Nat) (d : List Word)
    (hlen : ∀ e, (f d.length e).length = e.length) (hcancel : ∀ e : List Word, g d.length (f d.length e) = e) :
    onWords (fun n => Nat.repeat (g n) c) (onWords (fun n => Nat.repeat (f n) c) (d.flatMap encLE32)) =
      d.flatMap encLE32 := by
  rw [onWords_flatMap, onWords_flatMap, repeat_length _ hlen,
    repeat_repeat_cancel (P := fun _ => True) (fun _ _ => trivial) (fun e _ => hcancel e) c trivial]

/-- Settles O36: a term reads two other words, so a pass and the opposite pass in the opposite order undo each other. -/
theorem diffusersInvert : Obligations.DiffusersInvert := by
  intro x h h16
  obtain ⟨d, rfl, hn, h4⟩ := exists_words h h16
  have hA := apart_termA hn h4
  have hB := apart_termB hn h4
  exact ⟨onWords_repeat_cancel aCycles d (passDown_length _ _) (passUp_passDown _ _ rotA hA),
    onWords_repeat_cancel aCycles d (passUp_length _ _) (passDown_passUp _ _ rotA hA),
    onWords_repeat_cancel bCycles d (passDown_length _ _) (passUp_passDown _ _ rotB hB),
    onWords_repeat_cancel bCycles d (passUp_length _ _) (passDown_passUp _ _ rotB hB)⟩

/-! ## Fixed buffers (R208) -/

/-- A word that every rotation leaves as it is. -/
def rotationFixed (w : Word) : Prop := ∀ r, r < 32 → w.rotateLeft r = w

section
variable {n : Nat} {w : Word} {p q rot : Nat → Nat}

/-- Among equal words that rotation leaves alone every term is 0. -/
theorem neighbourTerm_replicate (hw : rotationFixed w) {i : Nat} (hp : p i < n) (hq : q i < n) (hr : rot i < 32) :
    neighbourTerm p q rot (List.replicate n w) i = 0 := by
  simp [neighbourTerm, hp, hq, hw _ hr]

theorem foldl_moveAt_replicate {op : Word → Word → Word} (hop : ∀ a, op a 0 = a) (hw : rotationFixed w)
    (hp : ∀ i, p i < n) (hq : ∀ i, q i < n) (hr : ∀ i, rot i < 32) (l : List Nat) (hl : ∀ i ∈ l, i < n) :
    l.foldl (moveAt op (neighbourTerm p q rot)) (List.replicate n w) = List.replicate n w := by
  induction l with
  | nil => rfl
  | cons i l ih =>
    obtain ⟨hi, hl⟩ := List.forall_mem_cons.1 hl
    have hmove : moveAt op (neighbourTerm p q rot) (List.replicate n w) i = List.replicate n w := by
      rw [moveAt, neighbourTerm_replicate hw (hp i) (hq i) (hr i), hop]
      simp [hi]
    rw [List.foldl_cons, hmove, ih hl]

end

theorem repeat_fixed {α : Type} {f : α → α} {a : α} (h : f a = a) (n : Nat) : Nat.repeat f n a = a := by
  induction n with
  | zero => rfl
  | succ n ih => rw [Nat.repeat, ih, h]

theorem rotA_lt (i : Nat) : rotA i < 32 := by
  rw [rotA_eq]
  split_ifs <;> decide

theorem rotB_lt (i : Nat) : rotB i < 32 := by
  rw [rotB_eq]
  split_ifs <;> decide

theorem flatMap_encLE32_replicate {w : Word} {b : Byte} (h : encLE32 w = List.replicate 4 b) (n : Nat) :
    (List.replicate n w).flatMap encLE32 = List.replicate (4 * n) b := by
  induction n with
  | zero => rfl
  | succ n ih =>
    rw [List.replicate_succ, List.flatMap_cons, ih, h, List.replicate_append_replicate]
    congr 1
    omega

/-- Settles O37: the words of the buffer are equal and rotation leaves them alone, so every pass adds or subtracts 0. -/
theorem diffuserFixedBuffers : Obligations.DiffuserFixedBuffers := by
  intro n b hn hb
  obtain ⟨w, hw, hbytes⟩ : ∃ w : Word, rotationFixed w ∧ encLE32 w = List.replicate 4 b := by
    rcases hb with rfl | rfl
    · exact ⟨0, by unfold rotationFixed; decide, by decide⟩
    · exact ⟨0xFFFFFFFF, by unfold rotationFixed; decide, by decide⟩
  have hwords : List.replicate (16 * n) b = (List.replicate (4 * n) w).flatMap encLE32 := by
    rw [flatMap_encLE32_replicate hbytes]
    congr 1
    omega
  have hpos : 0 < 4 * n := by omega
  have hup (p q : Nat → Nat) {rot : Nat → Nat} (hr : ∀ i, rot i < 32) :=
    foldl_moveAt_replicate (op := (· + ·)) BitVec.add_zero hw (fun i => Nat.mod_lt (p i) hpos) (fun i => Nat.mod_lt (q i) hpos)
      hr (List.range (4 * n)) fun i hi => List.mem_range.1 hi
  have hdown (p q : Nat → Nat) {rot : Nat → Nat} (hr : ∀ i, rot i < 32) :=
    foldl_moveAt_replicate (op := (· - ·)) BitVec.sub_zero hw (fun i => Nat.mod_lt (p i) hpos) (fun i => Nat.mod_lt (q i) hpos)
      hr (List.range (4 * n)).reverse fun i hi => List.mem_range.1 (List.mem_reverse.1 hi)
  have hfixed {f : Nat → List Word → List Word} (c : Nat)
      (hf : f (4 * n) (List.replicate (4 * n) w) = List.replicate (4 * n) w) :
      onWords (fun m => Nat.repeat (f m) c) (List.replicate (16 * n) b) = List.replicate (16 * n) b := by
    rw [hwords, onWords_flatMap, List.length_replicate, repeat_fixed hf]
  exact ⟨hfixed aCycles (hdown _ _ rotA_lt), hfixed aCycles (hup _ _ rotA_lt), hfixed bCycles (hdown _ _ rotB_lt),
    hfixed bCycles (hup _ _ rotB_lt)⟩

end Sys2Proof.Machine
end

section
/-! AES (`40_aes.md`): InvCipher and Cipher undo each other, what a block of a chained text depends on, and the key schedule
and the rounds byte by byte. -/

namespace Sys2Proof.Machine

/-! ## The round transformations undone -/

/-- The steps of `gmul`, over the bits of a sum: a bit set in both adds the same value twice. -/
theorem foldl_bits_xor (f : Nat → Byte) (b c : Byte) (l : List Nat) (x y : Byte) :
    l.foldl (fun acc k => if (b ^^^ c).getLsbD k then acc ^^^ f k else acc) (x ^^^ y) =
      l.foldl (fun acc k => if b.getLsbD k then acc ^^^ f k else acc) x ^^^
        l.foldl (fun acc k => if c.getLsbD k then acc ^^^ f k else acc) y := by
  induction l generalizing x y with
  | nil => rfl
  | cons k l ih =>
    have hstep : (if (b ^^^ c).getLsbD k then x ^^^ y ^^^ f k else x ^^^ y) =
        (if b.getLsbD k then x ^^^ f k else x) ^^^ (if c.getLsbD k then y ^^^ f k else y) := by
      rw [BitVec.getLsbD_xor]
      cases b.getLsbD k <;> cases c.getLsbD k
      · rfl
      · exact BitVec.xor_assoc ..
      · show x ^^^ y ^^^ f k = x ^^^ f k ^^^ y
        ac_rfl
      · show x ^^^ y = (x ^^^ f k) ^^^ (y ^^^ f k)
        rw [show (x ^^^ f k) ^^^ (y ^^^ f k) = x ^^^ y ^^^ (f k ^^^ f k) by ac_rfl, BitVec.xor_self, BitVec.xor_zero]
    simp only [List.foldl_cons, hstep, ih]

/-- Multiplication in GF(2^8) distributes over addition (R153). -/
theorem gmul_xor (a b c : Byte) : gmul a (b ^^^ c) = gmul a b ^^^ gmul a c := by
  have hfold := foldl_bits_xor (fun k => Nat.repeat xtime k a) b c (List.range 8) 0#8 0#8
  rwa [BitVec.xor_zero] at hfold

/-- Rows count modulo 4. -/
theorem columnByte_add_four (s : Block) (k : Fin 16) (d : Nat) : columnByte s k (d + 4) = columnByte s k d := by
  unfold columnByte
  congr 1
  omega

/-- MixColumns, seen from any row of the column (R157). -/
theorem columnByte_mixColumns (s : Block) (k : Fin 16) (d : Nat) :
    columnByte (mixColumns s) k d =
      gmul 2 (columnByte s k d) ^^^ gmul 3 (columnByte s k (d + 1)) ^^^ columnByte s k (d + 2) ^^^ columnByte s k (d + 3) := by
  have hrow (e : Nat) : ((k.val % 4 + d) % 4 + e) % 4 = (k.val % 4 + (d + e)) % 4 := by omega
  have hcol : ((k.val % 4 + d) % 4 + 4 * (k.val / 4)) / 4 = k.val / 4 := by omega
  have hself : ((k.val % 4 + d) % 4 + 4 * (k.val / 4)) % 4 = (k.val % 4 + d) % 4 := by omega
  simp only [columnByte, mixColumns, Vector.getElem_ofFn, hcol, hself]
  simp only [hrow, Nat.add_zero, Nat.mod_mod]

/-- The matrix of InvMixColumns times that of MixColumns is 1: the coefficients of the four bytes of a column. -/
theorem invMix_mix_coefficients (a : Byte) :
    gmul 14 (gmul 2 a) ^^^ gmul 11 a ^^^ gmul 13 a ^^^ gmul 9 (gmul 3 a) = a ∧
    gmul 14 (gmul 3 a) ^^^ gmul 11 (gmul 2 a) ^^^ gmul 13 a ^^^ gmul 9 a = 0#8 ∧
    gmul 14 a ^^^ gmul 11 (gmul 3 a) ^^^ gmul 13 (gmul 2 a) ^^^ gmul 9 a = 0#8 ∧
    gmul 14 a ^^^ gmul 11 a ^^^ gmul 13 (gmul 3 a) ^^^ gmul 9 (gmul 2 a) = 0#8 := by
  revert a
  decide

/-- A byte of InvMixColumns after MixColumns: the coefficients collected byte by byte. -/
theorem invMix_mix_byte (a b c d : Byte) :
    gmul 14 (gmul 2 a ^^^ gmul 3 b ^^^ c ^^^ d) ^^^ gmul 11 (gmul 2 b ^^^ gmul 3 c ^^^ d ^^^ a) ^^^
      gmul 13 (gmul 2 c ^^^ gmul 3 d ^^^ a ^^^ b) ^^^ gmul 9 (gmul 2 d ^^^ gmul 3 a ^^^ b ^^^ c) = a := by
  obtain ⟨ha, _, _, _⟩ := invMix_mix_coefficients a
  obtain ⟨_, hb, _, _⟩ := invMix_mix_coefficients b
  obtain ⟨_, _, hc, _⟩ := invMix_mix_coefficients c
  obtain ⟨_, _, _, hd⟩ := invMix_mix_coefficients d
  simp only [gmul_xor]
  calc _ = (gmul 14 (gmul 2 a) ^^^ gmul 11 a ^^^ gmul 13 a ^^^ gmul 9 (gmul 3 a)) ^^^
      (gmul 14 (gmul 3 b) ^^^ gmul 11 (gmul 2 b) ^^^ gmul 13 b ^^^ gmul 9 b) ^^^
      (gmul 14 c ^^^ gmul 11 (gmul 3 c) ^^^ gmul 13 (gmul 2 c) ^^^ gmul 9 c) ^^^
      (gmul 14 d ^^^ gmul 11 d ^^^ gmul 13 (gmul 3 d) ^^^ gmul 9 (gmul 2 d)) := by ac_rfl
    _ = a := by rw [ha, hb, hc, hd, BitVec.xor_zero, BitVec.xor_zero, BitVec.xor_zero]

theorem columnByte_zero (s : Block) (k : Fin 16) : columnByte s k 0 = s[k] := by
  unfold columnByte
  congr 1
  omega

theorem invMixColumns_mixColumns (s : Block) : invMixColumns (mixColumns s) = s := by
  ext k hk : 1
  simp only [invMixColumns, Vector.getElem_ofFn, columnByte_mixColumns]
  simp only [Nat.zero_add, Nat.reduceAdd, columnByte_add_four s ⟨k, hk⟩ 0, columnByte_add_four s ⟨k, hk⟩ 1,
    columnByte_add_four s ⟨k, hk⟩ 2]
  rw [invMix_mix_byte]
  exact columnByte_zero s ⟨k, hk⟩

theorem invShiftRows_shiftRows (s : Block) : invShiftRows (shiftRows s) = s := by
  ext k hk : 1
  simp only [invShiftRows, shiftRows, Vector.getElem_ofFn]
  congr 1
  omega

theorem invSubBytes_subBytes (s : Block) : invSubBytes (subBytes s) = s := by
  ext k hk : 1
  simp [invSubBytes, subBytes]

/-- InvShiftRows and InvSubBytes take SubBytes and ShiftRows back. -/
theorem invSub_invShift_shift_sub (s : Block) : invSubBytes (invShiftRows (shiftRows (subBytes s))) = s := by
  rw [invShiftRows_shiftRows, invSubBytes_subBytes]

/-! ## InvCipher and Cipher -/

/-- A round of InvCipher takes the same round of Cipher back, between the substitutions (R158, R159). -/
theorem invCipherRound_cipherRound (w : List KeyWord) (s : Block) (r : Nat) :
    invCipherRound w (shiftRows (subBytes (cipherRound w s r))) r = shiftRows (subBytes s) := by
  rw [invCipherRound, invSub_invShift_shift_sub, cipherRound, xorReg_xorReg_cancel, invMixColumns_mixColumns]

/-- The rounds of InvCipher, in the opposite order, take the rounds of Cipher back. -/
theorem foldl_invCipherRound_cipherRound (w : List KeyWord) (l : List Nat) (s : Block) :
    l.reverse.foldl (invCipherRound w) (shiftRows (subBytes (l.foldl (cipherRound w) s))) = shiftRows (subBytes s) := by
  induction l generalizing s with
  | nil => rfl
  | cons r l ih =>
    rw [List.foldl_cons, List.reverse_cons, List.foldl_append, ih, List.foldl_cons, List.foldl_nil,
      invCipherRound_cipherRound]

theorem invCipher_cipher (key : AesKey) (x : Block) : invCipher key (cipher key x) = x := by
  unfold invCipher cipher
  dsimp only
  rw [xorReg_xorReg_cancel, foldl_invCipherRound_cipherRound, invSub_invShift_shift_sub, xorReg_xorReg_cancel]

theorem finite_block : Finite Block := by
  have : Finite Byte := .of_equiv _ BitVec.equivFin.symm.toEquiv
  refine Finite.of_injective (fun (x : Block) (k : Fin 16) => x[k]) fun x y h => ?_
  ext k hk : 1
  exact congrFun h ⟨k, hk⟩

/-- A left inverse on the finite set of blocks is a right inverse. -/
theorem cipher_invCipher (key : AesKey) (x : Block) : cipher key (invCipher key x) = x := by
  have := finite_block
  have hleft : Function.LeftInverse (invCipher key) (cipher key) := invCipher_cipher key
  exact hleft.rightInverse_of_surjective (Finite.surjective_of_injective hleft.injective) x

/-- Settles O47: each round is taken back by its inverse, and blocks are finitely many. -/
theorem invCipherInvertsCipher : Obligations.InvCipherInvertsCipher :=
  fun key x => ⟨invCipher_cipher key x, cipher_invCipher key x⟩

/-! ## Chaining -/

/-- CBC decryption under the other sub-context of a key takes CBC encryption back (R169). -/
theorem cbcDec_cbcEnc {c : Context} {S T : SubId} {key : AesKey} (hS : blockTransform S = cipher)
    (hT : blockTransform T = invCipher) (hE : c.sub S = .keyed key) (hD : c.sub T = .keyed key) (iv : Block) {p : List Byte}
    (hp : p.length % 16 = 0) :
    ∃ y, cbcEnc c S iv p = .ok y ∧ y.length = p.length ∧ cbcDec c T iv y = .ok p := by
  refine ⟨_, cbcEnc_keyed c S iv p key hE, by simp; omega, ?_⟩
  have hlen : (bytesOfBlocks (chainEncrypt (blockTransform S key) iv (blocksOf (p.length / 16) p))).length / 16 =
      (chainEncrypt (blockTransform S key) iv (blocksOf (p.length / 16) p)).length := by simp
  rw [cbcDec_keyed c T iv _ key hD, hlen, blocksOf_bytesOfBlocks, hS, hT,
    chainDecrypt_chainEncrypt _ _ (invCipher_cipher key), bytesOfBlocks_blocksOf _ _ (by omega)]

/-- What CBC encryption answers: block `j` is the transform of block `j` of the input and the block before it (R167). -/
theorem blockAt_cbcEnc {c : Context} {S : SubId} {iv : Block} {p y : List Byte} (h : cbcEnc c S iv p = .ok y) :
    ∃ key, c.sub S = .keyed key ∧ ∀ j, j < p.length / 16 →
      blockAt y j = blockTransform S key (xorReg (blockAt p j) (if j = 0 then iv else blockAt y (j - 1))) := by
  cases hk : c.sub S with
  | unset => cases h.symm.trans (cbcEnc_unset c S iv p hk)
  | keyed key =>
    obtain rfl := Except.ok.inj (h.symm.trans (cbcEnc_keyed c S iv p key hk))
    refine ⟨key, rfl, fun j hj => ?_⟩
    rw [blockAt_bytesOfBlocks _ _ (by simpa using hj), chainEncrypt_getElem _ iv _ j (by simpa using hj),
      blocksOf_getElem _ _ _ hj]
    by_cases h0 : j = 0
    · rw [dif_pos h0, if_pos h0]
    · rw [dif_neg h0, if_neg h0, blockAt_bytesOfBlocks _ _ (by simp; omega)]

/-- What CBC decryption answers: block `j` is the transform of block `j` of the input, and the block before it (R168). -/
theorem blockAt_cbcDec {c : Context} {S : SubId} {iv : Block} {x y : List Byte} (h : cbcDec c S iv x = .ok y) :
    ∃ key, c.sub S = .keyed key ∧ ∀ j, j < x.length / 16 →
      blockAt y j = xorReg (blockTransform S key (blockAt x j)) (if j = 0 then iv else blockAt x (j - 1)) := by
  cases hk : c.sub S with
  | unset => cases h.symm.trans (cbcDec_unset c S iv x hk)
  | keyed key =>
    obtain rfl := Except.ok.inj (h.symm.trans (cbcDec_keyed c S iv x key hk))
    refine ⟨key, rfl, fun j hj => ?_⟩
    rw [blockAt_bytesOfBlocks _ _ (by simpa using hj), chainDecrypt_getElem _ iv _ j (by simpa using hj),
      blocksOf_getElem _ _ _ hj]
    by_cases h0 : j = 0
    · rw [dif_pos h0, if_pos h0]
    · rw [dif_neg h0, if_neg h0, blocksOf_getElem _ _ _ (by omega)]

theorem blockAt_cbcEnc_congr {c : Context} {S : SubId} {iv : Block} {p p' y y' : List Byte} (h : cbcEnc c S iv p = .ok y)
    (h' : cbcEnc c S iv p' = .ok y') (j : Nat) (hj : j < p.length / 16) (hj' : j < p'.length / 16)
    (hsame : ∀ i, i ≤ j → blockAt p i = blockAt p' i) : blockAt y j = blockAt y' j := by
  obtain ⟨key, hk, hy⟩ := blockAt_cbcEnc h
  obtain ⟨key', hk', hy'⟩ := blockAt_cbcEnc h'
  cases hk.symm.trans hk'
  induction j with
  | zero => rw [hy 0 hj, hy' 0 hj', hsame 0 (le_refl 0), if_pos rfl, if_pos rfl]
  | succ j ih =>
    have hprev := ih (by omega) (by omega) fun i hi => hsame i (by omega)
    rw [hy _ hj, hy' _ hj', hsame _ (le_refl _), if_neg (by omega), if_neg (by omega), Nat.add_sub_cancel, hprev]

/-- Settles O48: the first law from `invCipher_cipher`, the other two from what each block is. -/
theorem cbcLaws : Obligations.CbcLaws := by
  refine ⟨fun c k key iv p hE hD hp => ?_, fun c S iv p p' y y' j h h' hj hj' hsame => ?_,
    fun c S iv iv' x x' y y' j h h' hj hj' hsame hiv hprev => ?_⟩
  · obtain ⟨y, henc, _, hdec⟩ := cbcDec_cbcEnc (by cases k <;> rfl) (by cases k <;> rfl) hE hD iv hp
    exact ⟨y, henc, hdec⟩
  · exact blockAt_cbcEnc_congr h h' j hj hj' hsame
  · obtain ⟨key, hk, hy⟩ := blockAt_cbcDec h
    obtain ⟨key', hk', hy'⟩ := blockAt_cbcDec h'
    cases hk.symm.trans hk'
    rw [hy j hj, hy' j hj', hsame]
    by_cases h0 : j = 0
    · rw [if_pos h0, if_pos h0, hiv h0]
    · rw [if_neg h0, if_neg h0, hprev h0]

end Sys2Proof.Machine
end

section
/-! KeyExpansion and Cipher byte by byte (`40_aes.md` R152, R156 to R158). -/

namespace Sys2Proof.Machine

/-! ## Lists grown newest first -/

/-- A list grown at its head, as KeyExpansion and the message schedule of SHA-256 are: read from the back, it begins with
what stood there before, and each further element is made of the elements before it, the newest first. -/
theorem growth_getD {α : Type} (z : α) (f : List α → Nat → α) (init : List α) (m : Nat) :
    let out := ((List.range' init.length m).foldl (fun acc i => f acc i :: acc) init).reverse
    out.length = init.length + m ∧ (∀ i, i < init.length → out.getD i z = init.reverse.getD i z) ∧
    ∀ i, init.length ≤ i → i < init.length + m →
      ∃ acc : List α, out.getD i z = f acc i ∧ ∀ j, j < i → acc.getD j z = out.getD (i - 1 - j) z := by
  induction m with
  | zero => exact ⟨by simp, fun i _ => rfl, fun i h1 h2 => by omega⟩
  | succ m ih =>
    obtain ⟨hlen, hold, hnew⟩ := ih
    rw [List.range'_concat, List.foldl_append]
    generalize (List.range' init.length m).foldl (fun acc i => f acc i :: acc) init = acc at hlen hold hnew
    simp only [Nat.one_mul, List.foldl_cons, List.foldl_nil, List.reverse_cons]
    rw [List.length_reverse] at hlen
    have hbefore (i : Nat) (hi : i < init.length + m) (x : α) : (acc.reverse ++ [x]).getD i z = acc.reverse.getD i z :=
      List.getD_append _ _ _ _ (by rw [List.length_reverse]; omega)
    refine ⟨by simp; omega, fun i hi => (hbefore i (by omega) _).trans (hold i hi), fun i h1 h2 => ?_⟩
    rcases Nat.lt_or_ge i (init.length + m) with hi | hi
    · obtain ⟨prev, hval, hprev⟩ := hnew i h1 hi
      exact ⟨prev, (hbefore i hi _).trans hval, fun j hj => (hprev j hj).trans (hbefore _ (by omega) _).symm⟩
    · obtain rfl : i = init.length + m := by omega
      refine ⟨acc, ?_, fun j hj => ?_⟩
      · rw [List.getD_append_right _ _ _ _ (by rw [List.length_reverse]; omega), List.length_reverse, hlen, Nat.sub_self]
        rfl
      · rw [hbefore _ (by omega), List.getD_eq_getElem _ _ (by omega), List.getD_eq_getElem _ _ (by simp; omega),
          List.getElem_reverse]
        congr 1
        omega

/-! ## The key schedule -/

theorem toList_getD {n : Nat} (v : ByteReg n) {k : Nat} (h : k < n) : v.toList.getD k 0#8 = v[k] := by simp [h]

theorem keyWords_length (n : Nat) (bs : List Byte) : (keyWords n bs).length = n := by
  induction n generalizing bs with
  | zero => rfl
  | succ n ih => simp [keyWords, ih]

/-- Byte `j` of a key word built of four bytes. -/
theorem keyWord_getElem (f : Nat → Byte) {j : Nat} (hj : j < 4) : (keyWord (f 0) (f 1) (f 2) (f 3))[j] = f j := by
  have : j = 0 ∨ j = 1 ∨ j = 2 ∨ j = 3 := by omega
  rcases this with rfl | rfl | rfl | rfl <;> rfl

/-- The key's own words, byte by byte (R152). -/
theorem keyWords_getD (n : Nat) (bs : List Byte) {i j : Nat} (hi : i < n) (hj : j < 4) :
    ((keyWords n bs).getD i (zeroReg 4))[j] = bs.getD (4 * i + j) 0#8 := by
  induction n generalizing bs i with
  | zero => omega
  | succ n ih =>
    cases i with
    | zero =>
      rw [Nat.mul_zero, Nat.zero_add]
      exact keyWord_getElem (fun k => bs.getD k 0#8) hj
    | succ i =>
      rw [keyWords, List.getD_cons_succ, ih (bs.drop 4) (by omega)]
      simp only [List.getD_eq_getElem?_getD, List.getElem?_drop]
      congr 2
      omega

/-- The two key sizes (R151). -/
theorem AesKey.sizes (key : AesKey) : (key.nk = 4 ∧ key.nr = 10) ∨ (key.nk = 8 ∧ key.nr = 14) := by
  cases key
  · exact .inl ⟨rfl, rfl⟩
  · exact .inr ⟨rfl, rfl⟩

/-- KeyExpansion word by word: the key's words, then the XOR of two words before (R156). -/
theorem keyExpansion_words (key : AesKey) :
    (keyExpansion key).length = 4 * (key.nr + 1) ∧
    (∀ i, i < key.nk → (keyExpansion key).getD i (zeroReg 4) = (keyWords key.nk key.bytes).getD i (zeroReg 4)) ∧
    ∀ i, key.nk ≤ i → i < 4 * (key.nr + 1) → (keyExpansion key).getD i (zeroReg 4) =
      xorReg ((keyExpansion key).getD (i - key.nk) (zeroReg 4))
        (scheduleCore key.nk i ((keyExpansion key).getD (i - 1) (zeroReg 4))) := by
  have hsize := key.sizes
  have hsum : key.nk + (4 * (key.nr + 1) - key.nk) = 4 * (key.nr + 1) := by omega
  have hinit : (keyWords key.nk key.bytes).reverse.length = key.nk := by rw [List.length_reverse, keyWords_length]
  have hgrowth := growth_getD (zeroReg 4) (fun acc i => xorReg (acc.getD (key.nk - 1) (zeroReg 4))
    (scheduleCore key.nk i (acc.getD 0 (zeroReg 4)))) (keyWords key.nk key.bytes).reverse (4 * (key.nr + 1) - key.nk)
  rw [hinit, hsum, List.reverse_reverse] at hgrowth
  obtain ⟨hlen, hold, hnew⟩ := hgrowth
  refine ⟨hlen, hold, fun i h1 h2 => ?_⟩
  obtain ⟨acc, hval, hprev⟩ := hnew i h1 h2
  have hback := hprev (key.nk - 1) (by omega)
  rw [show i - 1 - (key.nk - 1) = i - key.nk by omega] at hback
  refine hval.trans ?_
  rw [hback, hprev 0 (by omega)]
  rfl

theorem rcon_eq_rconOf {j : Nat} (h1 : 1 ≤ j) (h2 : j ≤ 10) : rcon j = rconOf j := by
  have hall : ∀ k, k < 11 → 1 ≤ k → rcon k = rconOf k := by decide
  exact hall j (by omega) h1

/-- The word added to w[i-Nk], byte by byte (R156). -/
theorem scheduleCore_getElem (key : AesKey) (t : KeyWord) {i j : Nat} (h1 : key.nk ≤ i) (h2 : i < 4 * (key.nr + 1))
    (hj : j < 4) :
    (scheduleCore key.nk i t)[j] =
      (if i % key.nk = 0 then sbox (t[(j + 1) % 4]) ^^^ (if j = 0 then rconOf (i / key.nk) else 0)
      else if key.nk = 8 ∧ i % 8 = 4 then sbox t[j] else t[j]) := by
  have hsub (u : KeyWord) : (subWord u)[j] = sbox u[j] := by
    have : j = 0 ∨ j = 1 ∨ j = 2 ∨ j = 3 := by omega
    rcases this with rfl | rfl | rfl | rfl <;> rfl
  have hrot : (rotWord t)[j] = t[(j + 1) % 4] := by
    have : j = 0 ∨ j = 1 ∨ j = 2 ∨ j = 3 := by omega
    rcases this with rfl | rfl | rfl | rfl <;> rfl
  have hconst (b : Byte) : (keyWord b 0 0 0)[j] = if j = 0 then b else 0 := by
    have : j = 0 ∨ j = 1 ∨ j = 2 ∨ j = 3 := by omega
    rcases this with rfl | rfl | rfl | rfl <;> rfl
  have hround : 1 ≤ i / key.nk ∧ i / key.nk ≤ 10 := by
    rcases key.sizes with ⟨hnk, hnr⟩ | ⟨hnk, hnr⟩ <;> rw [hnk] at h1 ⊢ <;> omega
  have hnk : (key.nk = 8 ∧ i % key.nk = 4) ↔ (key.nk = 8 ∧ i % 8 = 4) :=
    ⟨fun ⟨a, b⟩ => ⟨a, a ▸ b⟩, fun ⟨a, b⟩ => ⟨a, a ▸ b⟩⟩
  unfold scheduleCore
  split
  · rw [xorReg_getElem, hsub, hrot, hconst, rcon_eq_rconOf hround.1 hround.2]
  · simp only [hnk]
    split
    · exact hsub t
    · rfl

/-- The bytes of the key schedule: w[i][j] (R152). -/
def scheduleByte (key : AesKey) (i j : Nat) : Byte := ((keyExpansion key).getD i (zeroReg 4)).toList.getD j 0#8

theorem scheduleByte_eq (key : AesKey) (i : Nat) {j : Nat} (hj : j < 4) :
    scheduleByte key i j = ((keyExpansion key).getD i (zeroReg 4))[j] := by
  simp [scheduleByte, hj]

theorem isKeySchedule_scheduleByte (key : AesKey) : isKeySchedule key (scheduleByte key) := by
  obtain ⟨_, hold, hnew⟩ := keyExpansion_words key
  refine ⟨fun i j hi hj => ?_, fun i j h1 h2 hj => ?_⟩
  · rw [scheduleByte_eq key i hj]
    simp only [hold i hi, keyWords_getD _ _ hi hj]
  · have hmod : (j + 1) % 4 < 4 := Nat.mod_lt _ (by decide)
    rw [scheduleByte_eq key i hj, scheduleByte_eq key _ hj, scheduleByte_eq key _ hj, scheduleByte_eq key _ hmod]
    simp only [hnew i h1 h2, xorReg_getElem, scheduleCore_getElem key _ h1 h2 hj]

/-! ## The rounds -/

theorem gmul_two (b : Byte) : gmul 2 b = twice b := by
  revert b
  decide

theorem gmul_three (b : Byte) : gmul 3 b = twice b ^^^ b := by
  revert b
  decide

theorem roundKey_getElem (key : AesKey) (n : Nat) {r c : Nat} (hr : r < 4) (hc : c < 4) :
    (roundKey (keyExpansion key) n)[r + 4 * c] = scheduleByte key (4 * n + c) r := by
  have hdiv : (r + 4 * c) / 4 = c := by omega
  have hmod : (r + 4 * c) % 4 = r := by omega
  rw [scheduleByte_eq key _ hr]
  simp only [roundKey, Vector.getElem_ofFn, hdiv, hmod]

/-- Row r + k of the column that ShiftRows brings to column c, substituted (R157). -/
theorem columnByte_shift_sub (s : Block) {r c : Nat} (hr : r < 4) (hc : c < 4) (k : Nat) :
    columnByte (shiftRows (subBytes s)) ⟨r + 4 * c, by omega⟩ k =
      sbox (s.toList.getD ((r + k) % 4 + 4 * ((c + (r + k) % 4) % 4)) 0#8) := by
  have hlt : (r + k) % 4 + 4 * ((c + (r + k) % 4) % 4) < 16 := by omega
  have hmod : ((r + 4 * c) % 4 + k) % 4 = (r + k) % 4 := by omega
  have hdiv : (r + 4 * c) / 4 = c := by omega
  have hrow : ((r + k) % 4 + 4 * c) % 4 = (r + k) % 4 := by omega
  have hcol : ((r + k) % 4 + 4 * c) / 4 = c := by omega
  rw [toList_getD s hlt]
  simp only [columnByte, shiftRows, subBytes, Vector.getElem_ofFn, Vector.getElem_map, hmod, hdiv, hrow, hcol]

/-- The state after round `n` of Cipher; after the last round, its result (R158). -/
def cipherState (key : AesKey) (x : Block) (n : Nat) : Block :=
  if n = key.nr then cipher key x
  else (List.range' 1 n).foldl (cipherRound (keyExpansion key)) (xorReg x (roundKey (keyExpansion key) 0))

theorem cipherState_zero (key : AesKey) (x : Block) : cipherState key x 0 = xorReg x (roundKey (keyExpansion key) 0) := by
  rw [cipherState, if_neg (by have := key.sizes; omega)]
  rfl

theorem cipherState_succ (key : AesKey) (x : Block) {n : Nat} (h : n + 1 < key.nr) :
    cipherState key x (n + 1) = cipherRound (keyExpansion key) (cipherState key x n) (n + 1) := by
  rw [cipherState, if_neg (by omega), cipherState, if_neg (by omega), List.range'_concat, List.foldl_append, Nat.one_mul,
    Nat.add_comm 1 n]
  rfl

theorem cipherState_last (key : AesKey) (x : Block) {n : Nat} (h : n + 1 = key.nr) :
    cipherState key x (n + 1) =
      xorReg (shiftRows (subBytes (cipherState key x n))) (roundKey (keyExpansion key) (n + 1)) := by
  rw [cipherState, if_pos h, cipherState, if_neg (by omega), cipher, ← h, Nat.add_sub_cancel]

/-- The bytes of the state after each round: s[r][c] (R152). -/
def cipherByte (key : AesKey) (x : Block) (n r c : Nat) : Byte := (cipherState key x n).toList.getD (r + 4 * c) 0#8

theorem cipherByte_eq (key : AesKey) (x : Block) (n : Nat) {r c : Nat} (hr : r < 4) (hc : c < 4) :
    cipherByte key x n r c = (cipherState key x n)[r + 4 * c] := by
  have hlt : r + 4 * c < 16 := by omega
  simp [cipherByte, hlt]

theorem isCipherRun_cipherByte (key : AesKey) (x : Block) : isCipherRun key.nr (scheduleByte key) x (cipherByte key x) := by
  refine ⟨fun r c hr hc => ?_, fun n r c hn hr hc => ?_⟩
  · have hlt : r + 4 * c < 16 := by omega
    simp only [cipherByte_eq key x 0 hr hc, cipherState_zero, xorReg_getElem, roundKey_getElem key 0 hr hc]
    simp [hlt]
  · have hbyte (k : Nat) : columnByte (shiftRows (subBytes (cipherState key x n))) ⟨r + 4 * c, by omega⟩ k =
        sbox (cipherByte key x n ((r + k) % 4) ((c + (r + k) % 4) % 4)) := columnByte_shift_sub _ hr hc k
    have hfirst : (shiftRows (subBytes (cipherState key x n)))[r + 4 * c] =
        sbox (cipherByte key x n ((r + 0) % 4) ((c + (r + 0) % 4) % 4)) := (columnByte_zero _ _).symm.trans (hbyte 0)
    dsimp only
    rw [cipherByte_eq key x (n + 1) hr hc]
    split
    · next hlast =>
      simp only [cipherState_last key x hlast, xorReg_getElem, roundKey_getElem key (n + 1) hr hc, hfirst]
    · next hnot =>
      simp only [cipherState_succ key x (show n + 1 < key.nr by omega), cipherRound, xorReg_getElem, mixColumns,
        Vector.getElem_ofFn, roundKey_getElem key (n + 1) hr hc, gmul_two, gmul_three, hbyte]

/-- Settles O60: the words and the states of the model, read byte by byte. -/
theorem keyScheduleAndCipherRecurrence : Obligations.KeyScheduleAndCipherRecurrence := by
  intro key
  obtain ⟨hlen, _, _⟩ := keyExpansion_words key
  refine ⟨scheduleByte key, isKeySchedule_scheduleByte key, hlen, fun i j hj _ => (scheduleByte_eq key i hj).symm,
    fun x => ⟨cipherByte key x, isCipherRun_cipherByte key x, fun r c hr hc => ?_⟩⟩
  rw [cipherByte_eq key x _ hr hc]
  simp only [cipherState, if_true]

end Sys2Proof.Machine
end

section
/-! CRYPT (`44_sector_crypt.md`): its two pipelines, its cipher failures, and its round trip. -/

namespace Sys2Proof.Machine

/-! ## CRYPT after its checks -/

theorem cryptChecks_of_valid {mode : Mode} {d : Direction} {o : Snapshot} {cls : MethodClass} {cap : Nat}
    (h : directionOf mode = some d) (hv : o.ctx.valid = true) (hcls : classify o.ctx.method = some cls)
    (hcap : o.length.toNat ≤ cap) (h0 : o.length.toNat ≠ 0) (h16 : o.length.toNat % 16 = 0)
    (hsector : cls.usesDiffuser = true → o.length.toNat = o.sectorSize.toNat) :
    cryptChecks cap mode o = .ok (d, cls) := by
  have hl : lengthCheck cap o.length.toNat true 16 (sectorOperand cls o) = none := by
    refine (lengthCheck_eq_none ..).2 ⟨hcap, fun _ => h0, h16, fun n hn => ?_⟩
    rw [sectorOperand] at hn
    split at hn
    · next hu => exact (hsector hu).trans (Option.some.inj hn)
    · cases hn
  simp [cryptChecks, ecbChecks_of_valid h hv, hcls, hl]

/-- CRYPT with the checks passed is a buffer transform, from zeroed buffers (R300, R303). -/
theorem exec_crypt {s : State} {mode : Mode} {d : Direction} {cls : MethodClass} {n : Nat}
    (h : cryptChecks s.cfg.bufBytes mode s.operands = .ok (d, cls)) (hn : s.operands.length.toNat = n) :
    exec (.crypt mode) s = transformBuffer { s with hidden := s.hidden.clearSector } (.crypt mode) n
      (sectorCrypt s.cfg.nonDiffIv cls s.operands.ctx d (blockIndex s.operands)) := by
  simp only [exec, execCrypt, h, hn]
  rfl

/-- The sector that a CRYPT with a legal LENGTH is given: its IBUF and LENGTH (R300, R301). -/
structure SectorGiven (s : State) (cls : MethodClass) (x : List Byte) : Prop where
  valid : s.operands.ctx.valid = true
  method : classify s.operands.ctx.method = some cls
  input : ibufHolds s.operands x
  len : s.operands.length.toNat = x.length
  fits : x.length ≤ s.cfg.bufBytes
  pos : x.length ≠ 0
  blocks : x.length % 16 = 0
  sector : cls.usesDiffuser = true → s.operands.sectorSize.toNat = x.length

section
variable {s : State} {cls : MethodClass} {x : List Byte} {mode : Mode} {d : Direction}

theorem SectorGiven.checks (g : SectorGiven s cls x) (h : directionOf mode = some d) :
    cryptChecks s.cfg.bufBytes mode s.operands = .ok (d, cls) := by
  obtain ⟨hv, hcls, _, hlen, hfits, hpos, hblocks, hsector⟩ := g
  rw [← hlen] at hfits hpos hblocks hsector
  exact cryptChecks_of_valid h hv hcls hfits hpos hblocks fun hu => (hsector hu).symm

theorem onlyWritesObuf_crypt {y : List Byte} (g : SectorGiven s cls x) (h : directionOf mode = some d)
    (hy : sectorCrypt s.cfg.nonDiffIv cls s.operands.ctx d (blockIndex s.operands) x = .ok y) :
    onlyWritesObuf (.crypt mode) s y s.hidden.clearSector :=
  onlyWritesObuf_of_transform _ s x.length _ _ x y (exec_crypt (g.checks h) g.len) g.input rfl hy

theorem onlyReportsAndForgets_crypt {S : SubId} {w : Word} (g : SectorGiven s cls x) (h : directionOf mode = some d)
    (he : sectorCrypt s.cfg.nonDiffIv cls s.operands.ctx d (blockIndex s.operands) x = .error (errKeyNotSet S))
    (hw : errorWord 0x04 (errKeyNotSet S) = w) :
    onlyReportsAndForgets (.crypt mode) s w x.length s.hidden.clearSector :=
  onlyReportsAndForgets_of_transform _ s x.length _ _ x _ w (exec_crypt (g.checks h) g.len) g.input rfl he hw

end

/-! ## The block key -/

/-- R304 and R306 say which block the block key is, whatever its last byte. -/
theorem eq_of_isBlockKey {idx : BitVec 64} {last : Byte} {b b' : Block} (h : isBlockKey idx last b)
    (h' : isBlockKey idx last b') : b = b' := by
  obtain ⟨hlow, hmid, hlast⟩ := h
  obtain ⟨hlow', hmid', hlast'⟩ := h'
  ext k hk : 1
  rcases Nat.lt_or_ge k 8 with h8 | h8
  · rw [hlow k h8, hlow' k h8]
  · rcases Nat.lt_or_ge k 15 with h15 | h15
    · rw [hmid k h15 h8, hmid' k h15 h8]
    · obtain rfl : k = 15 := by omega
      rw [hlast, hlast']

theorem isBlockKey_blockKey (idx : BitVec 64) : isBlockKey idx 0x00 (blockKey idx) := by
  refine ⟨fun k h => ?_, fun k h h8 => ?_, ?_⟩ <;> rw [blockKey_getElem]
  · rw [if_pos h]
  · rw [if_neg (by omega)]
  · rfl

theorem isBlockKey_set (idx : BitVec 64) : isBlockKey idx 0x80 ((blockKey idx).set 15 0x80#8) := by
  obtain ⟨hlow, hmid, _⟩ := isBlockKey_blockKey idx
  refine ⟨fun k h => ?_, fun k h h8 => ?_, ?_⟩
  · rw [Vector.getElem_set_ne (by decide) (by omega) (by omega), hlow k h]
  · rw [Vector.getElem_set_ne (by decide) (by omega) (by omega), hmid k h h8]
  · exact Vector.getElem_set_self _

/-! ## Under a Diffuser method -/

section
variable {c : Context} {idx : BitVec 64} {cls : MethodClass} {h : Hidden} (policy : NonDiffIv) (x : List Byte)

theorem sectorCrypt_encrypt (hu : cls.usesDiffuser = true) (hh : sectorHidden c idx = .ok h) :
    sectorCrypt policy cls c .encrypt idx x = cbcEnc c .fvekEnc h.ivw (diffBEnc (diffAEnc (xorMask h.mask x))) := by
  simp only [sectorCrypt, hu, if_true, hh, encPipeline]

theorem sectorCrypt_decrypt {z : List Byte} (hu : cls.usesDiffuser = true) (hh : sectorHidden c idx = .ok h)
    (hz : cbcDec c .fvekDec h.ivw x = .ok z) :
    sectorCrypt policy cls c .decrypt idx x = .ok (xorMask h.mask (diffADec (diffBDec z))) := by
  simp only [sectorCrypt, hu, if_true, hh, decPipeline, hz]

theorem sectorCrypt_of_hidden_error {d : Direction} {e : CmdError} (hu : cls.usesDiffuser = true)
    (hh : sectorHidden c idx = .error e) : sectorCrypt policy cls c d idx x = .error e := by
  simp only [sectorCrypt, hu, if_true, hh]

theorem sectorCrypt_nonDiffuser (d : Direction) (hu : cls.usesDiffuser = false) :
    sectorCrypt policy cls c d idx x = nonDiffuser policy c d idx x := by
  simp only [sectorCrypt, hu, Bool.false_eq_true, if_false]

end

/-- The diffusers and the mask keep the length of a sector. -/
theorem length_diffused {x : List Byte} (mask : ByteReg 32) (h : x.length % 16 = 0) :
    (diffBEnc (diffAEnc (xorMask mask x))).length = x.length := by
  have hA : (diffAEnc (xorMask mask x)).length = x.length := by
    rw [diffAEnc_length _ (by rwa [xorMask_length]), xorMask_length]
  rw [diffBEnc_length _ (by rwa [hA]), hA]

/-- Settles O42: the IV and the mask are those the block key gives, and each direction runs its pipeline. -/
theorem cryptDiffuserPipeline : Obligations.CryptDiffuserPipeline := by
  intro s fe fd te bk bk' x hv hm hfe hfd hte hx hlen hfits hpos h16 hsector hbk hbk'
  obtain ⟨bits, hcls, _⟩ := classify_diffuser hm
  have g : SectorGiven s ⟨bits, true, true⟩ x := ⟨hv, hcls, hx, hlen, hfits, hpos, h16, fun _ => hsector⟩
  obtain rfl := eq_of_isBlockKey hbk (isBlockKey_blockKey _)
  obtain rfl := eq_of_isBlockKey hbk' (isBlockKey_set _)
  obtain ⟨h, hh, hiv, hmask⟩ := sectorHidden_keyed s.operands.ctx (blockIndex s.operands) fe te hfe hte
  have hkey : blockKey (s.operands.blkidxHi ++ s.operands.blkidxLo) = blockKey (blockIndex s.operands) := rfl
  rw [hkey, ← hiv]
  refine ⟨⟨_, _, isMasked_xorMask _ _ h.mask hmask x, isCbcEncryption_chain _ _ _ ?_, onlyWritesObuf_crypt g rfl ?_⟩,
    ⟨_, _, isCbcDecryption_chain (invCipher fd) h.ivw x h16, isMasked_xorMask _ _ h.mask hmask _,
      onlyWritesObuf_crypt g rfl ?_⟩⟩
  · rwa [length_diffused h.mask h16]
  · rw [sectorCrypt_encrypt _ _ rfl hh, cbcEnc_keyed _ .fvekEnc _ _ fe hfe]
    rfl
  · rw [sectorCrypt_decrypt _ _ rfl hh (cbcDec_keyed _ .fvekDec _ _ fd hfd)]
    rfl

/-! ## Under a non-Diffuser method -/

theorem nonDiffuser_encrypt {policy : NonDiffIv} {c : Context} {idx : BitVec 64} {iv : Block} (x : List Byte)
    (h : nonDiffuserIv policy c idx = .ok iv) : nonDiffuser policy c .encrypt idx x = cbcEnc c .fvekEnc iv x := by
  simp only [nonDiffuser, h]

theorem nonDiffuser_decrypt {policy : NonDiffIv} {c : Context} {idx : BitVec 64} {iv : Block} (x : List Byte)
    (h : nonDiffuserIv policy c idx = .ok iv) : nonDiffuser policy c .decrypt idx x = cbcDec c .fvekDec iv x := by
  simp only [nonDiffuser, h]

/-- Settles O43: the IV is the policy's, and the pass is CBC under the FVEK. -/
theorem cryptNonDiffuserIsDirectCbc : Obligations.CryptNonDiffuserIsDirectCbc := by
  intro s fe fd iv x hv hm hfe hfd hx hlen hfits hpos h16 hpolicy
  obtain ⟨bits, hcls, _⟩ := classify_nonDiffuser hm
  have g : SectorGiven s ⟨bits, false, false⟩ x := ⟨hv, hcls, hx, hlen, hfits, hpos, h16, fun hu => by cases hu⟩
  have hiv : nonDiffuserIv s.cfg.nonDiffIv s.operands.ctx (blockIndex s.operands) = .ok iv := by
    rcases hpolicy with ⟨hz, rfl⟩ | ⟨hd, bk, hbk, rfl⟩
    · rw [hz, nonDiffuserIv]
    · obtain rfl := eq_of_isBlockKey hbk (isBlockKey_blockKey _)
      rw [hd, nonDiffuserIv, ecb, Context.sub, hfe]
      rfl
  refine ⟨⟨_, isCbcEncryption_chain (cipher fe) iv x h16, onlyWritesObuf_crypt g rfl ?_⟩,
    ⟨_, isCbcDecryption_chain (invCipher fd) iv x h16, onlyWritesObuf_crypt g rfl ?_⟩⟩
  · rw [sectorCrypt_nonDiffuser _ _ _ rfl, nonDiffuser_encrypt x hiv, cbcEnc_keyed _ .fvekEnc _ _ fe hfe]
    rfl
  · rw [sectorCrypt_nonDiffuser _ _ _ rfl, nonDiffuser_decrypt x hiv, cbcDec_keyed _ .fvekDec _ _ fd hfd]
    rfl

/-! ## Without keys -/

theorem ecb_unset {c : Context} {S : SubId} (h : c.sub S = .unset) (x : Block) : ecb c S x = .error (errKeyNotSet S) := by
  simp [ecb, h]

theorem sectorHidden_unset {c : Context} (h : c.sub .fvekEnc = .unset) (idx : BitVec 64) :
    sectorHidden c idx = .error (errKeyNotSet .fvekEnc) := by
  simp only [sectorHidden, ecb_unset h]
  rfl

/-- Without keys a non-Diffuser CRYPT that derives its IV or encrypts meets FVEK_ENC (R311). -/
theorem nonDiffuser_unset {c : Context} {policy : NonDiffIv} {d : Direction} (h : c.sub .fvekEnc = .unset)
    (hd : policy = .derived ∨ d = .encrypt) (idx : BitVec 64) (x : List Byte) :
    nonDiffuser policy c d idx x = .error (errKeyNotSet .fvekEnc) := by
  cases policy with
  | derived => simp only [nonDiffuser, nonDiffuserIv, ecb_unset h]
  | zero =>
    obtain rfl := hd.resolve_left (by decide)
    exact cbcEnc_unset c .fvekEnc _ x h

/-- Settles O44: FVEK_ENC gives the IV and encrypts, and only a decryption with the zero IV meets FVEK_DEC first. -/
theorem cryptWithoutKeysNamesTheUnit : Obligations.CryptWithoutKeysNamesTheUnit := by
  intro s mode x hd hv hunset hx hlen hfits hpos h16
  obtain ⟨d, hdir⟩ := directionOf_of_defined hd
  refine ⟨fun hm hsector => ?_, fun hm hpolicy => ?_, fun hm hzero hmode => ?_⟩
  · obtain ⟨bits, hcls, _⟩ := classify_diffuser hm
    have g : SectorGiven s ⟨bits, true, true⟩ x := ⟨hv, hcls, hx, hlen, hfits, hpos, h16, fun _ => hsector⟩
    exact onlyReportsAndForgets_crypt g hdir
      (sectorCrypt_of_hidden_error _ x rfl (sectorHidden_unset (hunset .fvekEnc) _)) (by decide)
  · obtain ⟨bits, hcls, _⟩ := classify_nonDiffuser hm
    have g : SectorGiven s ⟨bits, false, false⟩ x := ⟨hv, hcls, hx, hlen, hfits, hpos, h16, fun hu => by cases hu⟩
    refine onlyReportsAndForgets_crypt (S := .fvekEnc) g hdir ?_ (by decide)
    rw [sectorCrypt_nonDiffuser _ _ _ rfl]
    refine nonDiffuser_unset (hunset .fvekEnc) (hpolicy.imp_right fun hmode => ?_) _ x
    rw [hmode] at hdir
    exact (Option.some.inj hdir).symm
  · obtain ⟨bits, hcls, _⟩ := classify_nonDiffuser hm
    have g : SectorGiven s ⟨bits, false, false⟩ x := ⟨hv, hcls, hx, hlen, hfits, hpos, h16, fun hu => by cases hu⟩
    subst hmode
    refine onlyReportsAndForgets_crypt (S := .fvekDec) (d := .decrypt) g rfl ?_ (by decide)
    rw [sectorCrypt_nonDiffuser _ _ _ rfl, hzero]
    exact cbcDec_unset _ .fvekDec _ x (hunset .fvekDec)

/-! ## The round trip -/

theorem xorMask_getElem (mask : ByteReg 32) (z : List Byte) (k : Nat) (h : k < z.length) :
    (xorMask mask z)[k]'(by simpa using h) = z[k] ^^^ mask.toList.getD (k % 32) 0#8 := by
  simp [xorMask]

/-- Masking twice changes nothing (R307). -/
theorem xorMask_xorMask (mask : ByteReg 32) (z : List Byte) : xorMask mask (xorMask mask z) = z := by
  refine List.ext_getElem (by simp) fun k h1 h2 => ?_
  rw [xorMask_getElem mask (xorMask mask z) k (by simpa using h2), xorMask_getElem mask z k h2, BitVec.xor_assoc,
    BitVec.xor_self, BitVec.xor_zero]

/-- CRYPT encrypts under FVEK_ENC, whatever the method. -/
theorem fvekEnc_keyed_of_encrypt {policy : NonDiffIv} {cls : MethodClass} {c : Context} {idx : BitVec 64} {x y : List Byte}
    (h : sectorCrypt policy cls c .encrypt idx x = .ok y) : ∃ key, c.fvekEnc = .keyed key := by
  cases hk : c.fvekEnc with
  | keyed key => exact ⟨key, rfl⟩
  | unset =>
    cases hu : cls.usesDiffuser with
    | true => cases (sectorCrypt_of_hidden_error policy x hu (sectorHidden_unset hk idx)).symm.trans h
    | false =>
      rw [sectorCrypt_nonDiffuser _ _ _ hu] at h
      cases (nonDiffuser_unset hk (.inr rfl) idx x).symm.trans h

/-- Decryption takes an encryption that succeeds back, under every method and policy (R312). -/
theorem sectorCrypt_decrypt_encrypt {policy : NonDiffIv} {cls : MethodClass} {c : Context} {idx : BitVec 64}
    {x y : List Byte} (hkeys : c.fvekEnc = c.fvekDec) (h16 : x.length % 16 = 0) (hpos : x.length ≠ 0)
    (h : sectorCrypt policy cls c .encrypt idx x = .ok y) : sectorCrypt policy cls c .decrypt idx y = .ok x := by
  obtain ⟨fe, hfe⟩ := fvekEnc_keyed_of_encrypt h
  have hfd : c.fvekDec = .keyed fe := hkeys.symm.trans hfe
  have hcbc (iv : Block) {p : List Byte} (hp : p.length % 16 = 0) :=
    cbcDec_cbcEnc (S := .fvekEnc) (T := .fvekDec) rfl rfl hfe hfd iv hp
  cases hu : cls.usesDiffuser with
  | true =>
    cases hh : sectorHidden c idx with
    | error e => cases (sectorCrypt_of_hidden_error policy x hu hh).symm.trans h
    | ok hid =>
      have hlen := length_diffused hid.mask h16
      obtain ⟨y', henc, _, hdec⟩ := hcbc hid.ivw (p := diffBEnc (diffAEnc (xorMask hid.mask x))) (by omega)
      obtain rfl := Except.ok.inj (((sectorCrypt_encrypt policy x hu hh).trans henc).symm.trans h)
      have hA : (diffAEnc (xorMask hid.mask x)).length = x.length := by
        rw [diffAEnc_length _ (by simpa using h16), xorMask_length]
      obtain ⟨_, _, hB, _⟩ := diffusersInvert (diffAEnc (xorMask hid.mask x)) (by omega) (by omega)
      obtain ⟨hAinv, _⟩ := diffusersInvert (xorMask hid.mask x) (by simpa using h16) (by rw [xorMask_length]; omega)
      rw [sectorCrypt_decrypt policy _ hu hh hdec, hB, hAinv, xorMask_xorMask]
  | false =>
    rw [sectorCrypt_nonDiffuser _ _ _ hu] at h ⊢
    cases hiv : nonDiffuserIv policy c idx with
    | error e => simp only [nonDiffuser, hiv, reduceCtorEq] at h
    | ok iv =>
      obtain ⟨y', henc, _, hdec⟩ := hcbc iv h16
      rw [nonDiffuser_encrypt x hiv, henc] at h
      obtain rfl := Except.ok.inj h
      rw [nonDiffuser_decrypt y' hiv, hdec]

/-- A CRYPT that completes without an error was given a sector, and OBUF holds what its algorithm answers. -/
theorem exec_crypt_succeeds {s t : State} {mode : Mode} {d : Direction} {x y : List Byte} (hdir : directionOf mode = some d)
    (hx : ibufHolds s.operands x) (hlen : s.operands.length.toNat = x.length) (ht : exec (.crypt mode) s = .next t)
    (herr : t.err = false) (hy : y.length = x.length) (hobuf : obufHolds t y) :
    ∃ cls, SectorGiven s cls x ∧
      sectorCrypt s.cfg.nonDiffIv cls s.operands.ctx d (blockIndex s.operands) x = .ok y := by
  rcases cryptChecks_cases s.cfg.bufBytes mode s.operands with
    ⟨e, hc, _⟩ | ⟨d', cls, hc, hd', hv, hcls, hcap, hpos, h16, hsector⟩
  · have hexec : exec (.crypt mode) s = reject s.clearSector (.crypt mode) e := by simp only [exec, execCrypt, hc]
    cases ht.symm.trans hexec
    cases herr
  · cases hdir.symm.trans hd'
    rw [hlen] at hcap hpos h16 hsector
    have g : SectorGiven s cls x := ⟨hv, hcls, hx, hlen, hcap, hpos, h16, fun hu => (hsector hu).symm⟩
    refine ⟨cls, g, ?_⟩
    rcases sectorCrypt_cases s.cfg.nonDiffIv cls s.operands.ctx d (blockIndex s.operands) x h16 with
      ⟨S, hS, _⟩ | ⟨y', hy', hl'⟩
    · obtain ⟨u, hu, ⟨_, _, huerr, _⟩, _⟩ := onlyReportsAndForgets_crypt g hdir hS rfl
      cases ht.symm.trans hu
      cases herr.symm.trans huerr
    · obtain ⟨u, hu, _, _, _, _, hholds, _⟩ := onlyWritesObuf_crypt g hdir hy'
      cases ht.symm.trans hu
      have hsame : y' = y := by
        refine List.ext_getElem? fun k => ?_
        rcases Nat.lt_or_ge k x.length with hk | hk
        · rw [← hholds k (by omega), ← hobuf k (by omega)]
        · rw [List.getElem?_eq_none (by omega), List.getElem?_eq_none (by omega)]
      rw [hy', hsame]

/-- Settles O45: the encryption was given a sector; with the same operands the decryption passes the same checks. -/
theorem cryptRoundTrip : Obligations.CryptRoundTrip := by
  intro s t u x y hkeys hx hlen ht _ herr hy hobuf hin hcfg hctx hlength hsector hlo hhi
  obtain ⟨cls, g, henc⟩ := exec_crypt_succeeds rfl hx hlen ht herr hy hobuf
  have hdec := sectorCrypt_decrypt_encrypt hkeys g.blocks g.pos henc
  have hidx : blockIndex u.operands = blockIndex s.operands := by rw [blockIndex, hlo, hhi, blockIndex]
  have gu : SectorGiven u cls y := by
    obtain ⟨hv, hcls, _, hl, hfits, hpos, hblocks, hsec⟩ := g
    refine ⟨by rwa [hctx], by rwa [hctx], hin, by rw [hlength, hl, hy], by rwa [hcfg, hy], by rwa [hy], by rwa [hy],
      fun hu => by rw [hsector, hsec hu, hy]⟩
  rw [← hcfg, ← hctx, ← hidx] at hdec
  exact onlyWritesObuf_crypt gu rfl hdec

end Sys2Proof.Machine
end

section
/-! SHA-256: its padding, schedule, rounds and constants (`42_kdf.md` R231 to R234). -/

namespace Sys2Proof.Machine

/-! ## The constants (R233) -/

/-- The first 64 primes. -/
def shaPrimes : List Nat :=
  [2, 3, 5, 7, 11, 13, 17, 19, 23, 29, 31, 37, 41, 43, 47, 53, 59, 61, 67, 71, 73, 79, 83, 89, 97, 101, 103, 107, 109, 113,
    127, 131, 137, 139, 149, 151, 157, 163, 167, 173, 179, 181, 191, 193, 197, 199, 211, 223, 227, 229, 233, 239, 241, 251,
    257, 263, 269, 271, 277, 281, 283, 293, 307, 311]

theorem shaPrimes_count : ∀ t, t < 64 →
    (shaPrimes.getD t 0).Prime ∧ Nat.count Nat.Prime (shaPrimes.getD t 0) = t := by
  decide +kernel

theorem nth_prime_eq {t : Nat} (ht : t < 64) : Nat.nth Nat.Prime t = shaPrimes.getD t 0 := by
  obtain ⟨hprime, hcount⟩ := shaPrimes_count t ht
  calc Nat.nth Nat.Prime t = Nat.nth Nat.Prime (Nat.count Nat.Prime (shaPrimes.getD t 0)) := by rw [hcount]
    _ = shaPrimes.getD t 0 := Nat.nth_count hprime

/-- The integer parts of the cube roots are below 8, so that the check is finite. -/
theorem shaK_cube : ∀ t, t < 64 → ∃ q, q < 8 ∧
    (q * 2 ^ 32 + (shaK.getD t 0).toNat) ^ 3 ≤ shaPrimes.getD t 0 * 2 ^ (32 * 3) ∧
    shaPrimes.getD t 0 * 2 ^ (32 * 3) < (q * 2 ^ 32 + (shaK.getD t 0).toNat + 1) ^ 3 := by
  decide

theorem shaK_isRootFraction {t : Nat} (ht : t < 64) : isRootFraction 3 (Nat.nth Nat.Prime t) (shaK.getD t 0) := by
  obtain ⟨q, -, hq⟩ := shaK_cube t ht
  rw [nth_prime_eq ht]
  exact ⟨q, hq⟩

/-- The words a to h, in order. -/
def HashWords.words (v : HashWords) : List Word := [v.a, v.b, v.c, v.d, v.e, v.f, v.g, v.h]

/-- Word `i` of a to h. -/
def HashWords.word (v : HashWords) (i : Nat) : Word := v.words.getD i 0

theorem shaInit_square : ∀ t, t < 8 → ∃ q, q < 8 ∧
    (q * 2 ^ 32 + (shaInit.word t).toNat) ^ 2 ≤ shaPrimes.getD t 0 * 2 ^ (32 * 2) ∧
    shaPrimes.getD t 0 * 2 ^ (32 * 2) < (q * 2 ^ 32 + (shaInit.word t).toNat + 1) ^ 2 := by
  decide

theorem shaInit_isRootFraction {t : Nat} (ht : t < 8) : isRootFraction 2 (Nat.nth Nat.Prime t) (shaInit.word t) := by
  obtain ⟨q, -, hq⟩ := shaInit_square t ht
  rw [nth_prime_eq (by omega)]
  exact ⟨q, hq⟩

/-! ## The padding (R231) -/

theorem extractByte_ofNat (n : Nat) {k : Nat} (hk : k < 8) :
    (BitVec.ofNat 64 n).extractLsb' (8 * k) 8 = BitVec.ofNat 8 (n / 256 ^ k) := by
  apply BitVec.eq_of_toNat_eq
  rw [BitVec.extractLsb'_toNat, BitVec.toNat_ofNat, BitVec.toNat_ofNat, Nat.shiftRight_eq_div_pow]
  interval_cases k <;> omega

/-- Eight big-endian bytes, the most significant first. -/
theorem encBE64_ofNat (n : Nat) :
    encBE64 (BitVec.ofNat 64 n) = (List.range 8).map fun j => BitVec.ofNat 8 (n / 256 ^ (7 - j)) :=
  calc encBE64 (BitVec.ofNat 64 n)
      = (List.range 8).map (fun j => (BitVec.ofNat 64 n).extractLsb' (8 * (7 - j)) 8) := rfl
    _ = (List.range 8).map (fun j => BitVec.ofNat 8 (n / 256 ^ (7 - j))) :=
      List.map_congr_left fun j _ => extractByte_ofNat n (by omega)

theorem shaPad_length (m : List Byte) : (shaPad m).length = m.length + 1 + shaPadZeros m.length + 8 := by
  simp only [shaPad, List.length_append, List.length_cons, List.length_replicate, encBE64_length]
  omega

/-! ## Big-endian words -/

/-- Lane `k` of a big-endian word is its byte `k`. -/
theorem be32_lane (f : Nat → Byte) {k : Nat} (hk : k < 4) :
    (be32 (f 0) (f 1) (f 2) (f 3) >>> (24 - 8 * k)).setWidth 8 = f k := by
  have hlane := le32_lane (fun i => f (3 - i)) (show 3 - k < 4 by omega)
  have hshift : 8 * (3 - k) = 24 - 8 * k := by omega
  have hback : 3 - (3 - k) = k := by omega
  simp only [hshift, hback] at hlane
  exact hlane

theorem beWords_lane (n : Nat) (bs : List Byte) {t k : Nat} (ht : t < n) (hk : k < 4) :
    ((beWords n bs).getD t 0 >>> (24 - 8 * k)).setWidth 8 = bs.getD (4 * t + k) 0#8 := by
  induction n generalizing bs t with
  | zero => omega
  | succ n ih =>
    cases t with
    | zero =>
      rw [Nat.mul_zero, Nat.zero_add]
      exact be32_lane (fun i => bs.getD i 0#8) hk
    | succ t =>
      have hpos : 4 + (4 * t + k) = 4 * (t + 1) + k := by omega
      rw [beWords, List.getD_cons_succ, ih (bs.drop 4) (by omega)]
      simp only [List.getD_eq_getElem?_getD, List.getElem?_drop, hpos]

theorem encBE32_getD (w : Word) {k : Nat} (hk : k < 4) : (encBE32 w).getD k 0#8 = (w >>> (24 - 8 * k)).setWidth 8 := by
  have hshift : 24 - 8 * k = 8 * (3 - k) := by omega
  rw [hshift, ← byteOf_eq]
  interval_cases k <;> rfl

/-- Byte `k` of word `i` in a string of big-endian words. -/
theorem flatMap_encBE32_getD (d : List Word) {i k : Nat} (hi : i < d.length) (hk : k < 4) :
    (d.flatMap encBE32).getD (4 * i + k) 0#8 = (d.getD i 0 >>> (24 - 8 * k)).setWidth 8 := by
  induction d generalizing i with
  | nil => simp at hi
  | cons w d ih =>
    rw [List.flatMap_cons]
    cases i with
    | zero =>
      rw [Nat.mul_zero, Nat.zero_add, List.getD_append _ _ _ _ (by simpa using hk)]
      exact encBE32_getD w hk
    | succ i =>
      have hpos : 4 * (i + 1) + k - 4 = 4 * i + k := by omega
      rw [List.getD_append_right _ _ _ _ (by simp; omega), encBE32_length, hpos, ih (by simpa using hi), List.getD_cons_succ]

/-- The digest is the eight words, big-endian (R234). -/
theorem shaDigest_getElem (v : HashWords) {i k : Nat} (hi : i < 8) (hk : k < 4) :
    (shaDigest v)[4 * i + k] = (v.word i >>> (24 - 8 * k)).setWidth 8 := by
  have hbytes : shaDigest v = regOfBytes 32 (v.words.flatMap encBE32) := by
    simp [shaDigest, HashWords.words, List.append_assoc]
  simp only [hbytes, regOfBytes_getElem]
  exact flatMap_encBE32_getD v.words hi hk

/-! ## The message schedule (R234) -/

/-- The next word of the message schedule, of the words before it, newest first. -/
def nextScheduleWord (acc : List Word) : Word :=
  shaSmall1 (acc.getD 1 0) + acc.getD 6 0 + shaSmall0 (acc.getD 14 0) + acc.getD 15 0

theorem shaExtend_eq_foldl (n o : Nat) (w : List Word) :
    shaExtend n w = (List.range' o n).foldl (fun acc _ => nextScheduleWord acc :: acc) w := by
  induction n generalizing o w with
  | zero => rfl
  | succ n ih =>
    rw [List.range'_succ, List.foldl_cons]
    exact ih (o + 1) _

/-- The schedule word by word: the block's words, then the recurrence. -/
theorem shaSchedule_words (block : List Byte) :
    (shaSchedule block).length = 64 ∧
    (∀ t, t < 16 → (shaSchedule block).getD t 0 = (beWords 16 block).getD t 0) ∧
    ∀ t, 16 ≤ t → t < 64 → (shaSchedule block).getD t 0 =
      shaSmall1 ((shaSchedule block).getD (t - 2) 0) + (shaSchedule block).getD (t - 7) 0 +
      shaSmall0 ((shaSchedule block).getD (t - 15) 0) + (shaSchedule block).getD (t - 16) 0 := by
  have hinit : (beWords 16 block).reverse.length = 16 := by simp
  have hgrowth := growth_getD (0 : Word) (fun acc _ => nextScheduleWord acc) (beWords 16 block).reverse 48
  rw [← shaExtend_eq_foldl, hinit, List.reverse_reverse] at hgrowth
  obtain ⟨hlen, hold, hnew⟩ := hgrowth
  refine ⟨hlen, hold, fun t h1 h2 => ?_⟩
  obtain ⟨acc, hval, hprev⟩ := hnew t h1 h2
  have hback (d : Nat) (hd : d < 16) : acc.getD d 0 = (shaSchedule block).getD (t - (d + 1)) 0 := by
    rw [hprev d (by omega), Nat.sub_sub, Nat.add_comm 1 d]
    rfl
  refine hval.trans ?_
  rw [nextScheduleWord, hback 1 (by decide), hback 6 (by decide), hback 14 (by decide), hback 15 (by decide)]

/-- The block that begins at byte `o` of a string. -/
def shaBlockAt (m : List Byte) (o : Nat) : List Byte := (m.drop o).take 64

theorem shaBlockAt_getD (m : List Byte) (o : Nat) {k : Nat} (hk : k < 64) :
    (shaBlockAt m o).getD k 0#8 = m.getD (o + k) 0#8 := by
  simp only [shaBlockAt, List.getD_eq_getElem?_getD, List.getElem?_take_of_lt hk, List.getElem?_drop]

theorem isShaSchedule_shaSchedule (m : List Byte) (o : Nat) :
    isShaSchedule m o fun t => (shaSchedule (shaBlockAt m o)).getD t 0 := by
  obtain ⟨_, hold, hnew⟩ := shaSchedule_words (shaBlockAt m o)
  refine ⟨fun t k ht hk => ?_, fun t h1 h2 => hnew t h1 h2⟩
  dsimp only
  rw [hold t ht, beWords_lane 16 _ ht hk, shaBlockAt_getD m o (by omega), Nat.add_assoc]

/-! ## The rounds and the blocks (R234) -/

/-- The words a to h before round `t` of a compression. -/
def shaState (hv : HashWords) (block : List Byte) (t : Nat) : HashWords :=
  ((shaK.zip (shaSchedule block)).take t).foldl shaRound hv

theorem shaState_zero (hv : HashWords) (block : List Byte) : shaState hv block 0 = hv := rfl

theorem shaK_zip_length (block : List Byte) : (shaK.zip (shaSchedule block)).length = 64 := by
  rw [List.length_zip, (shaSchedule_words block).1]
  rfl

theorem shaState_succ (hv : HashWords) (block : List Byte) {t : Nat} (ht : t < 64) :
    shaState hv block (t + 1) = shaRound (shaState hv block t) (shaK.getD t 0, (shaSchedule block).getD t 0) := by
  have hlen := shaK_zip_length block
  have hk : t < shaK.length := ht
  have hw : t < (shaSchedule block).length := by rwa [(shaSchedule_words block).1]
  rw [shaState, List.take_add_one, List.getElem?_eq_getElem (by omega), Option.toList_some, List.foldl_append,
    List.getElem_zip, List.getD_eq_getElem _ _ hk, List.getD_eq_getElem _ _ hw]
  rfl

theorem isShaRounds_shaState (hv : HashWords) (block : List Byte) :
    isShaRounds (fun t => (shaSchedule block).getD t 0) fun t => (shaState hv block t).word := by
  intro t ht
  dsimp only
  rw [shaState_succ hv block ht]
  refine ⟨rfl, rfl, fun i hi h3 => ?_⟩
  have : i = 0 ∨ i = 1 ∨ i = 2 ∨ i = 4 ∨ i = 5 ∨ i = 6 := by omega
  rcases this with rfl | rfl | rfl | rfl | rfl | rfl <;> rfl

/-- A compression adds what its 64 rounds make of the hash value to it, word by word. -/
theorem shaCompress_word (hv : HashWords) (block : List Byte) {i : Nat} (hi : i < 8) :
    (shaCompress hv block).word i = hv.word i + (shaState hv block 64).word i := by
  have hall : (shaK.zip (shaSchedule block)).take 64 = shaK.zip (shaSchedule block) :=
    List.take_of_length_le (shaK_zip_length block).le
  rw [shaState, hall, shaCompress]
  interval_cases i <;> rfl

/-- One more block is compressed last. -/
theorem shaBlocks_succ (n : Nat) (hv : HashWords) (m : List Byte) :
    shaBlocks (n + 1) hv m = shaCompress (shaBlocks n hv m) (shaBlockAt m (64 * n)) := by
  induction n generalizing hv m with
  | zero => rfl
  | succ n ih =>
    have hblock : shaBlockAt (m.drop 64) (64 * n) = shaBlockAt m (64 * (n + 1)) := by
      rw [shaBlockAt, shaBlockAt, List.drop_drop, Nat.mul_succ, Nat.add_comm 64]
    rw [shaBlocks, ih, hblock, shaBlocks]

/-! ## R231 to R234 -/

theorem shaPad_minimal (m : List Byte) : ∃ k,
    shaPad m = m ++ [0x80#8] ++ List.replicate k 0x00#8 ++
      (List.range 8).map (fun j => BitVec.ofNat 8 (8 * m.length / 256 ^ (7 - j))) ∧
    (shaPad m).length % 64 = 0 ∧ ∀ j, j < k → (m.length + 1 + j + 8) % 64 ≠ 0 := by
  refine ⟨shaPadZeros m.length, ?_, ?_, fun j hj => ?_⟩
  · rw [shaPad, encBE64_ofNat]
    simp only [List.append_assoc, List.cons_append, List.nil_append]
  · rw [shaPad_length, shaPadZeros]
    omega
  · rw [shaPadZeros] at hj
    omega

/-- Settles O40: the hash values are those of the model after each block, and its rounds and schedule are read word by
word. -/
theorem sha256Recurrence : Obligations.Sha256Recurrence := by
  refine ⟨fun m _ => shaPad_minimal m, fun m => ?_, fun t ht => shaK_isRootFraction ht⟩
  refine ⟨fun j => (shaBlocks j shaInit (shaPad m)).word, fun i hi => shaInit_isRootFraction hi, fun j _ => ?_,
    fun i k hi hk => shaDigest_getElem _ hi hk⟩
  refine ⟨_, _, isShaSchedule_shaSchedule (shaPad m) (64 * j), isShaRounds_shaState (shaBlocks j shaInit (shaPad m)) _,
    fun i hi => ⟨rfl, ?_⟩⟩
  dsimp only
  rw [shaBlocks_succ, shaCompress_word _ _ hi]

end Sys2Proof.Machine
end
